-- ==== Sys2Proof/Word.lean ====
section
/-! DEFINITION. The word types the block moves (20_memory.md R56): bytes, 32-bit rates and 64-bit words. -/

namespace Sys2Proof

/-- One byte of the command stream or of PULSE_OUT. -/
abbrev Byte := BitVec 8

/-- The width of SAMPLE_RATE (00_scope.md R8, `RATE_WIDTH`). -/
abbrev Word32 := BitVec 32

/-- The width of the counters and of a RESP_OUT element (00_scope.md R8, `COUNT_WIDTH`; 20_memory.md R52). -/
abbrev Word64 := BitVec 64

/-- A binary64 value, held as its 64-bit IEEE pattern (00_scope.md R8, `FLOAT`; 20_memory.md R54). -/
abbrev F64 := BitVec 64

end Sys2Proof
end

