-- ==== Sys2Proof/Syntax.lean ====
section
/-! DEFINITION. The commands of 30_encoding.md R73, one constructor per row of the opcode table, the names its formats
and decoder verdicts use, and the assembler's text forms of R78 and R79 as data. -/

namespace Sys2Proof

/-- A command of the block (30_encoding.md R73), with its operands as R74 decodes them: unsigned fields and raw
binary64 patterns. -/
inductive Instr where
  /-- RESET, opcode 0x01 (40_control_ops.md R101). -/
  | reset
  /-- SET_RATE rate, opcode 0x02 (40_control_ops.md R102). -/
  | setRate (rate : Word32)
  /-- SET_CHANNELS ch, opcode 0x03 (40_control_ops.md R103). -/
  | setChannels (ch : Byte)
  /-- SET_CPUFREQ freq, opcode 0x04 (40_control_ops.md R104). -/
  | setCpufreq (freq : F64)
  /-- SAMPLE_MONO a, opcode 0x10 (44_sample_ops.md R182). -/
  | sampleMono (a : F64)
  /-- SAMPLE_STEREO a0, a1, opcode 0x11 (44_sample_ops.md R183). -/
  | sampleStereo (a0 a1 : F64)
  /-- END, opcode 0x20 (40_control_ops.md R105). -/
  | endStream
  /-- READ_REG idx, opcode 0x30 (40_control_ops.md R106). -/
  | readReg (idx : Byte)
  deriving DecidableEq, Repr

/-- The five command formats of 30_encoding.md R71. -/
inductive Format where
  | f0
  | fb
  | fw
  | fd
  | fdd
  deriving DecidableEq, Repr

/-- The eight legal opcodes of 30_encoding.md R73, by name. -/
inductive Opcode where
  | reset
  | setRate
  | setChannels
  | setCpufreq
  | sampleMono
  | sampleStereo
  | endStream
  | readReg
  deriving DecidableEq, Repr

/-- What the decoder answers where it finds no command: the two `Invalid` verdicts. -/
inductive Verdict where
  /-- The opcode byte is not one of R73 (30_encoding.md R75). -/
  | illegalOpcode
  /-- The byte string ended inside a command's operands (30_encoding.md R76). -/
  | truncatedCommand
  deriving DecidableEq, Repr

/-- One verdict of the decoder on a byte string, with the bytes it leaves (30_encoding.md R70). -/
inductive Decoded where
  | command (i : Instr) (rest : List Byte)
  | invalid (v : Verdict) (rest : List Byte)
  deriving DecidableEq, Repr

/-- The seven registers of the index map (10_state.md R34). -/
inductive Register where
  | sampleRate
  | cpuFreq
  | channels
  | status
  | sampleCount
  | crossCount
  | pulseCount
  deriving DecidableEq, Repr

/-- A `float` of the assembler's grammar (30_encoding.md R78). -/
inductive AsmFloat where
  /-- A decimal literal: its sign, its digits read as one natural, and the power of ten they are scaled by. -/
  | decimal (neg : Bool) (digits : Nat) (exp10 : Int)
  /-- `0d` and sixteen hexadecimal digits: a raw pattern. -/
  | raw (pattern : F64)
  /-- `nan`. -/
  | nan
  /-- `inf` or `-inf`. -/
  | inf (neg : Bool)
  deriving DecidableEq, Repr

/-- The operand of `read_reg`: a `uint` or a `regname` (30_encoding.md R78). -/
inductive AsmRegister where
  | index (n : Nat)
  | name (r : Register)
  deriving DecidableEq, Repr

/-- A line of assembler text: a command of 30_encoding.md R78 or a pseudo-instruction of R79. A `uint` may be too
large for its field, which Sys2Proof.AsmCommand.wellFormed refuses. -/
inductive AsmCommand where
  | reset
  | endStream
  | setRate (rate : Nat)
  | setChannels (ch : Nat)
  | setCpufreq (freq : AsmFloat)
  | sample (v : AsmFloat)
  | sample2 (v0 v1 : AsmFloat)
  | readReg (r : AsmRegister)
  /-- `config ch, rate`. -/
  | config (ch rate : Nat)
  /-- `config ch, rate, freq`. -/
  | configFreq (ch rate : Nat) (freq : AsmFloat)
  /-- `samples v0, v1, ..., vn`. -/
  | samples (vs : List AsmFloat)
  /-- `stream_mono rate, [v0, ..., vn]`. -/
  | streamMono (rate : Nat) (vs : List AsmFloat)
  /-- `status`. -/
  | status
  deriving DecidableEq, Repr

end Sys2Proof
end

