-- ==== Sys2Proof/WellFormed.lean ====
section
/-! DEFINITION. Which commands and which lines of assembler text are well formed. -/

namespace Sys2Proof

/-- Every command is well formed: each field has the width of its encoding in its type, and every operand value
decodes (30_encoding.md R74: operand values are checked when the command is performed, not when it is decoded). -/
def Instr.wellFormed (i : Instr) : Bool :=
  match i with
  | .reset => true
  | .setRate _ => true
  | .setChannels _ => true
  | .setCpufreq _ => true
  | .sampleMono _ => true
  | .sampleStereo _ _ => true
  | .endStream => true
  | .readReg _ => true

/-- A `uint` that a byte field holds (30_encoding.md R78: above 255 is an assembly error). -/
def fitsByte (n : Nat) : Bool := decide (n ≤ 255)

/-- A `uint` that SET_RATE's field holds (30_encoding.md R78: above 2^32 − 1 is an assembly error). -/
def fitsRate (n : Nat) : Bool := decide (n ≤ 4294967295)

/-- The assembly errors of 30_encoding.md R78, and of the lines of R79 by the commands they expand to. `samples`
takes at least one value (R79 writes it `v0, v1, ..., vn`; only `stream_mono` may have an empty list). -/
def AsmCommand.wellFormed (c : AsmCommand) : Bool :=
  match c with
  | .reset => true
  | .endStream => true
  | .setRate rate => fitsRate rate
  | .setChannels ch => fitsByte ch
  | .setCpufreq _ => true
  | .sample _ => true
  | .sample2 _ _ => true
  | .readReg (.index n) => fitsByte n
  | .readReg (.name _) => true
  | .config ch rate => fitsByte ch && fitsRate rate
  | .configFreq ch rate _ => fitsByte ch && fitsRate rate
  | .samples vs => !vs.isEmpty
  | .streamMono rate _ => fitsRate rate
  | .status => true

end Sys2Proof
end

