-- ==== Sys2Proof/Decode.lean ====
section
/-! DEFINITION. The decoder and the encoder of 30_encoding.md, both written from the tables of R71, R72 and R73. -/

namespace Sys2Proof

/-- A byte string read as one little-endian natural, byte 0 in bits [7:0] (20_memory.md R54; 30_encoding.md R72). -/
def leNat : List Byte → Nat
  | [] => 0
  | b :: bs => b.toNat + 256 * leNat bs

/-- The `n` low bytes of a natural, least significant first (20_memory.md R54). -/
def leBytes : Nat → Nat → List Byte
  | 0, _ => []
  | n + 1, v => BitVec.ofNat 8 v :: leBytes n (v / 256)

/-- The whole length of a command of this format, its opcode byte included (30_encoding.md R71). -/
def Format.length (f : Format) : Nat :=
  match f with
  | .f0 => 1
  | .fb => 2
  | .fw => 5
  | .fd => 9
  | .fdd => 17

/-- The opcode byte of each command (30_encoding.md R73). -/
def Opcode.byte (op : Opcode) : Byte :=
  match op with
  | .reset => 0x01
  | .setRate => 0x02
  | .setChannels => 0x03
  | .setCpufreq => 0x04
  | .sampleMono => 0x10
  | .sampleStereo => 0x11
  | .endStream => 0x20
  | .readReg => 0x30

/-- The command that an opcode byte selects; none for the 248 illegal values (30_encoding.md R73, R75). -/
def opcodeOf (b : Byte) : Option Opcode :=
  match b.toNat with
  | 0x01 => some .reset
  | 0x02 => some .setRate
  | 0x03 => some .setChannels
  | 0x04 => some .setCpufreq
  | 0x10 => some .sampleMono
  | 0x11 => some .sampleStereo
  | 0x20 => some .endStream
  | 0x30 => some .readReg
  | _ => none

/-- The format of each command (30_encoding.md R73). -/
def Opcode.format (op : Opcode) : Format :=
  match op with
  | .reset => .f0
  | .setRate => .fw
  | .setChannels => .fb
  | .setCpufreq => .fd
  | .sampleMono => .fd
  | .sampleStereo => .fdd
  | .endStream => .f0
  | .readReg => .fb

/-- The `n` bits of `w` from bit `lo` up. -/
def fieldOf (w lo n : Nat) : BitVec n := BitVec.ofNat n (w >>> lo)

/-- The command whose bytes, read as one little-endian number, are `w`: its operand fields at the bit positions of
30_encoding.md R72, with no conversion (R74). -/
def instrOf (op : Opcode) (w : Nat) : Instr :=
  match op with
  | .reset => .reset
  | .setRate => .setRate (fieldOf w 8 32)
  | .setChannels => .setChannels (fieldOf w 8 8)
  | .setCpufreq => .setCpufreq (fieldOf w 8 64)
  | .sampleMono => .sampleMono (fieldOf w 8 64)
  | .sampleStereo => .sampleStereo (fieldOf w 8 64) (fieldOf w 72 64)
  | .endStream => .endStream
  | .readReg => .readReg (fieldOf w 8 8)

/-- The next verdict on a byte string (30_encoding.md R70, R75 to R77): none when no byte is left. The opcode byte
alone gives the length; an illegal opcode consumes one byte; a command that the string ends inside consumes the rest. -/
def decodeNext (bytes : List Byte) : Option Decoded :=
  match bytes with
  | [] => none
  | b :: rest =>
    match opcodeOf b with
    | none => some (.invalid .illegalOpcode rest)
    | some op =>
      if bytes.length < op.format.length then some (.invalid .truncatedCommand [])
      else some (.command (instrOf op (leNat (bytes.take op.format.length))) (bytes.drop op.format.length))

/-- The bytes a verdict leaves for the next one. -/
def Decoded.rest (d : Decoded) : List Byte :=
  match d with
  | .command _ rest => rest
  | .invalid _ rest => rest

/-- The command of a verdict; none for an `Invalid` one. -/
def Decoded.instr (d : Decoded) : Option Instr :=
  match d with
  | .command i _ => some i
  | .invalid _ _ => none

/-- The verdicts on a byte string, at most `fuel` of them. -/
def decodeUpTo : Nat → List Byte → List Decoded
  | 0, _ => []
  | fuel + 1, bytes =>
    match decodeNext bytes with
    | none => []
    | some d => d :: decodeUpTo fuel d.rest

/-- Every verdict on a byte string, in order (30_encoding.md R70). Each consumes at least one byte, so there are at most
as many as bytes. -/
def decodeAll (bytes : List Byte) : List Decoded := decodeUpTo bytes.length bytes

/-- The opcode of a command (30_encoding.md R73). -/
def Instr.opcode (i : Instr) : Opcode :=
  match i with
  | .reset => .reset
  | .setRate _ => .setRate
  | .setChannels _ => .setChannels
  | .setCpufreq _ => .setCpufreq
  | .sampleMono _ => .sampleMono
  | .sampleStereo _ _ => .sampleStereo
  | .endStream => .endStream
  | .readReg _ => .readReg

/-- The operand fields of a command at the bit positions of 30_encoding.md R72, as one number. -/
def Instr.operandBits (i : Instr) : Nat :=
  match i with
  | .reset => 0
  | .setRate rate => rate.toNat * 2 ^ 8
  | .setChannels ch => ch.toNat * 2 ^ 8
  | .setCpufreq freq => freq.toNat * 2 ^ 8
  | .sampleMono a => a.toNat * 2 ^ 8
  | .sampleStereo a0 a1 => a0.toNat * 2 ^ 8 + a1.toNat * 2 ^ 72
  | .endStream => 0
  | .readReg idx => idx.toNat * 2 ^ 8

/-- The bytes of a command (30_encoding.md R71 to R73). -/
def encode (i : Instr) : List Byte :=
  leBytes i.opcode.format.length (i.opcode.byte.toNat + i.operandBits)

/-- The bytes of a list of commands, with no padding or separator (30_encoding.md R70). -/
def encodeAll (is : List Instr) : List Byte := is.flatMap encode

/-- The bits of a table word laid out as bytes, the first byte its least significant, as long as the longest command
(17 bytes), with every bit from `nbits` up zero. -/
def tableWordBytes (nbits w : Nat) : List Byte := leBytes 17 (w % 2 ^ nbits)

/-- The command that the decoder reads from a table word. -/
def decodeTableWord (nbits w : Nat) : Option Instr :=
  match decodeNext (tableWordBytes nbits w) with
  | some (.command i _) => some i
  | _ => none

/-- The bytes of a table word that belong to its command: as many as its opcode takes, and one for an illegal opcode. -/
def tableWordCommand (nbits w : Nat) : List Byte :=
  match tableWordBytes nbits w with
  | [] => []
  | b :: rest =>
    match opcodeOf b with
    | none => [b]
    | some op => (b :: rest).take op.format.length

end Sys2Proof
end

