-- ==== Sys2Proof/Config.lean ====
section
/-! DEFINITION. The parameters of 00_scope.md R8 that the state's reset and the checks use, and the free values: what
no rule of the spec and no clause of IEEE 754 fixes. -/

namespace Sys2Proof.Config

/-- `CPU_FREQ_DEFAULT` of 00_scope.md R8: the pattern of 985248.0 (10_state.md R25; 90_conflicts.md C9). -/
def cpuFreqDefault : F64 := 0x412E114000000000

/-- `MAX_SAMPLES` of 00_scope.md R8: the sample of this index faults. -/
def maxSamples : Nat := 2 ^ 53

/-- The largest Pulse Byte count that END accepts (40_control_ops.md R105). -/
def maxPulses : Nat := 2 ^ 32 - 1

/-- The four arithmetic operations of 00_scope.md R10: which of them computed a NaN. -/
inductive FloatOp where
  | add
  | sub
  | mul
  | div
  deriving DecidableEq, Repr

/-- FREE VALUE (DESIGN CHOICE, log entry 3): the sign bit of the NaN that an operation computes from two operands. IEEE
754 leaves it open, and the spec says nothing. -/
opaque nanSign : FloatOp → F64 → F64 → Bool

/-- FREE VALUE (DESIGN CHOICE, log entry 3): the 51 payload bits, below the quiet bit, of the NaN that an operation
computes. -/
opaque nanPayload : FloatOp → F64 → F64 → BitVec 51

/-- FREE VALUE (DESIGN CHOICE, log entry 4): `floor` of a value outside the domain that 00_scope.md R10 gives it (a NaN,
an infinity, a value below zero). -/
opaque floorOutside : F64 → Nat

/-- FREE VALUE (DESIGN CHOICE, log entry 8): the sign bit of the pattern that the assembler writes for `nan`
(30_encoding.md R78). -/
opaque asmNanSign : Bool

/-- FREE VALUE (DESIGN CHOICE, log entry 8): the 51 payload bits of the pattern that the assembler writes for `nan`. -/
opaque asmNanPayload : BitVec 51

end Sys2Proof.Config
end

