-- ==== Sys2Proof/Machine/State.lean ====
section
/-! DEFINITION. The state of the block (10_state.md R20), its reset (R35), and why a step can stop. -/

namespace Sys2Proof.Machine

/-- STATUS.STATE (10_state.md R26; DEDUCED, log entry 11). -/
inductive RunState where
  /-- Configuration is allowed and no sample has been accepted since reset. -/
  | idle
  /-- At least one sample has been accepted and END has not been performed. -/
  | running
  /-- END has been performed. -/
  | ended
  /-- A fault was raised; only RESET leaves this state. -/
  | faulted
  deriving DecidableEq, Repr

/-- STATUS.CAUSE: the fifteen codes of 60_exceptions.md R201, in their order. The codes 0x0F to 0xFF are never written
(R201), so they have no constructor (DEDUCED, log entry 11). -/
inductive Cause where
  | noFault
  | illegalOpcode
  | truncatedCommand
  | badRegister
  | badRate
  | badCpufreq
  | badChannels
  | configLocked
  | notConfigured
  | arityMismatch
  | nonfiniteSample
  | indexOverflow
  | timestampOverflow
  | afterEnd
  | lengthOverflow
  deriving DecidableEq, Repr

/-- What stops the machine with a fault. Nothing does (DEDUCED, log entry 13): a fault of the block is a state it goes on from
(60_exceptions.md R203, R205) and a step always completes (70_reset_and_hazards.md R244), so this type is empty (safe:
it promises no more than those rules). -/
inductive Fault where
  deriving DecidableEq, Repr

/-- Why the model has no meaning for a command. -/
inductive Refusal where
  /-- An arm of exec whose command is not modelled yet would answer this; it is safe, since a run stops there. Every
  command is modelled, so nothing raises it. -/
  | notModelled (mnemonic : String)
  deriving DecidableEq, Repr

/-- The state of the block (10_state.md R20), and the host's side of CMD_IN, which the step reads (DESIGN CHOICE, log entry 1). An Opt
register is an Option: a payload without a valid bit is unobservable (93_implementation_defined.md V6; DEDUCED,
log entry 6). -/
@[ext]
structure State where
  /-- SAMPLE_RATE, register 0 (10_state.md R23). -/
  sampleRate : Word32
  /-- CPU_FREQ, register 1, a binary64 pattern (10_state.md R25). -/
  cpuFreq : F64
  /-- CHANNELS, register 2 (10_state.md R24). -/
  channels : Byte
  /-- STATUS.STATE, bits [1:0] of register 3 (10_state.md R26). -/
  runState : RunState
  /-- STATUS.CAUSE, bits [15:8] of register 3 (10_state.md R26). -/
  cause : Cause
  /-- PREV, the amplitude of the latest accepted sample (10_state.md R27). -/
  prev : Option F64
  /-- LASTZO, the held fractional offset (10_state.md R28). -/
  lastzo : Option F64
  /-- LASTEV, the latest Crossing Event (10_state.md R29). -/
  lastev : Option F64
  /-- SAMPLE_COUNT, register 4 (10_state.md R30). -/
  sampleCount : Word64
  /-- CROSS_COUNT, register 5 (10_state.md R31). -/
  crossCount : Word64
  /-- PULSE_COUNT, register 6 (10_state.md R32). -/
  pulseCount : Word64
  /-- CROSS_OUT, in emission order (20_memory.md R52). -/
  crossOut : List F64
  /-- PULSE_OUT, in emission order (20_memory.md R52). -/
  pulseOut : List Byte
  /-- RESP_OUT, in emission order (20_memory.md R52). -/
  respOut : List Word64
  /-- CMD_IN: the bytes the host has presented and the block has not consumed (20_memory.md R51). The model's own field. -/
  cmdIn : List Byte
  /-- The position of the next command in the host's list (10_state.md R21). The model's own field. -/
  position : Nat
  deriving DecidableEq, Repr

/-- The state after reset and power-on (10_state.md R35; 70_reset_and_hazards.md R230, R231), with no command presented
yet (DESIGN CHOICE, log entry 1). -/
def State.reset : State where
  sampleRate := 0
  cpuFreq := Config.cpuFreqDefault
  channels := 0
  runState := .idle
  cause := .noFault
  prev := none
  lastzo := none
  lastev := none
  sampleCount := 0
  crossCount := 0
  pulseCount := 0
  crossOut := []
  pulseOut := []
  respOut := []
  cmdIn := []
  position := 0

end Sys2Proof.Machine
end

