-- ==== Sys2Proof/Machine/Flags.lean ====
section
/-! DEFINITION. STATUS, the block's only status (10_state.md R22, R26): the codes of its fields and the word they make. -/

namespace Sys2Proof.Machine

/-- The values of STATUS.STATE (10_state.md R26). -/
def RunState.code (r : RunState) : BitVec 2 :=
  match r with
  | .idle => 0
  | .running => 1
  | .ended => 2
  | .faulted => 3

/-- The cause codes of 60_exceptions.md R201. -/
def Cause.code (c : Cause) : Byte :=
  match c with
  | .noFault => 0x00
  | .illegalOpcode => 0x01
  | .truncatedCommand => 0x02
  | .badRegister => 0x03
  | .badRate => 0x04
  | .badCpufreq => 0x05
  | .badChannels => 0x06
  | .configLocked => 0x07
  | .notConfigured => 0x08
  | .arityMismatch => 0x09
  | .nonfiniteSample => 0x0A
  | .indexOverflow => 0x0B
  | .timestampOverflow => 0x0C
  | .afterEnd => 0x0D
  | .lengthOverflow => 0x0E

/-- STATUS as READ_REG gives it: CAUSE in bits [15:8], STATE in bits [1:0], every other bit hard-wired 0
(10_state.md R26; 40_control_ops.md R106). -/
def statusWord (s : State) : Word64 :=
  (s.cause.code ++ (0 : BitVec 6) ++ s.runState.code).setWidth 64

end Sys2Proof.Machine
end

