-- ==== Sys2Proof/Machine/Float.lean ====
section
/-! DEFINITION. IEEE 754 binary64 arithmetic (00_scope.md R10), over 64-bit patterns: round to nearest, ties to even,
subnormals, no fused operation. Results and special values are the standard's (PRESUMED, log entry 7).

Every finite value is a whole number of units of 2^-1074, the smallest subnormal. An operation computes its exact result
as a ratio of naturals in that unit and rounds once, in `roundMag`. -/

namespace Sys2Proof.Machine

/-- The sign bit. -/
def signOf (x : F64) : Bool := decide (2 ^ 63 ≤ x.toNat)

/-- The low 63 bits of a pattern: exponent and fraction. They rise with the magnitude. -/
def magOf (x : F64) : Nat := x.toNat % 2 ^ 63

/-- The low 63 bits of an infinity. -/
def infMag : Nat := 0x7FF0000000000000

/-- A pattern from its sign and its low 63 bits. -/
def packF64 (neg : Bool) (mag : Nat) : F64 := BitVec.ofNat 64 ((if neg then 2 ^ 63 else 0) + mag)

/-- Not a number: an exponent of all ones and a fraction that is not zero. -/
def isNaN (x : F64) : Bool := decide (infMag < magOf x)

/-- +inf or −inf. -/
def isInf (x : F64) : Bool := decide (magOf x = infMag)

/-- `is_finite` of 00_scope.md R10. -/
def isFinite (x : F64) : Bool := decide (magOf x < infMag)

/-- The magnitude whose low 63 bits are `mag`, in units of 2^-1074. -/
def unitsOfMag (mag : Nat) : Nat :=
  if mag / 2 ^ 52 = 0 then mag else (2 ^ 52 + mag % 2 ^ 52) * 2 ^ (mag / 2 ^ 52 - 1)

/-- The magnitude of a finite value in units of 2^-1074. -/
def unitsOf (x : F64) : Nat := unitsOfMag (magOf x)

/-- A finite value in units of 2^-1074. -/
def exactOf (x : F64) : Int := if signOf x then -(unitsOf x : Int) else (unitsOf x : Int)

/-- How many units of 2^-1074 make 1.0. Irreducible, so that no proof unfolds the numeral by accident. -/
@[irreducible] def oneUnits : Nat := 2 ^ 1074

/-- The power of two that is the unit in the last place (in units of 2^-1074) of a magnitude whose whole part is `q`:
53 significant bits are kept, and none is lost in the subnormal range. -/
def ulpShift (q : Nat) : Nat := q.log2 - 52

/-- `num / den` rounded to a natural, to nearest, ties to even. -/
def divRoundEven (num den : Nat) : Nat :=
  if 2 * (num % den) > den ∨ (2 * (num % den) = den ∧ (num / den) % 2 = 1) then num / den + 1 else num / den

/-- The one rounding of an operation (00_scope.md R10): the low 63 bits of the binary64 nearest to the magnitude
`num / den` (in units of 2^-1074), ties to even, and an infinity from halfway past the largest finite value. A carry out
of the significand runs into the exponent, as it must. -/
def roundMag (num den : Nat) : Nat :=
  min (ulpShift (num / den) * 2 ^ 52 + divRoundEven num (den * 2 ^ ulpShift (num / den))) infMag

/-- The NaN an operation answers: quiet, with a free sign and a free payload (log entry 3). -/
def nanResult (op : Config.FloatOp) (a b : F64) : F64 :=
  packF64 (Config.nanSign op a b) (0x7FF8000000000000 + (Config.nanPayload op a b).toNat)

/-- The value with its sign turned. -/
def negF64 (x : F64) : F64 := packF64 (!signOf x) (magOf x)

/-- A sum, on behalf of `op`: an exact sum of zero is +0.0, but −0.0 when both operands are negative. -/
def addFor (op : Config.FloatOp) (a b : F64) : F64 :=
  if isNaN a || isNaN b then nanResult op a b
  else if isInf a then (if isInf b && (signOf a != signOf b) then nanResult op a b else a)
  else if isInf b then b
  else if exactOf a + exactOf b = 0 then packF64 (signOf a && signOf b) 0
  else packF64 (decide (exactOf a + exactOf b < 0)) (roundMag (exactOf a + exactOf b).natAbs 1)

/-- `fadd` of 00_scope.md R10. -/
def fadd (a b : F64) : F64 := addFor .add a b

/-- `fsub` of 00_scope.md R10. -/
def fsub (a b : F64) : F64 := addFor .sub a (negF64 b)

/-- `fmul` of 00_scope.md R10. -/
def fmul (a b : F64) : F64 :=
  if isNaN a || isNaN b then nanResult .mul a b
  else if isInf a || isInf b then
    (if magOf a = 0 ∨ magOf b = 0 then nanResult .mul a b else packF64 (signOf a != signOf b) infMag)
  else packF64 (signOf a != signOf b) (roundMag (unitsOf a * unitsOf b) oneUnits)

/-- `fdiv` of 00_scope.md R10. -/
def fdiv (a b : F64) : F64 :=
  if isNaN a || isNaN b then nanResult .div a b
  else if isInf a then (if isInf b then nanResult .div a b else packF64 (signOf a != signOf b) infMag)
  else if isInf b then packF64 (signOf a != signOf b) 0
  else if magOf b = 0 then
    (if magOf a = 0 then nanResult .div a b else packF64 (signOf a != signOf b) infMag)
  else packF64 (signOf a != signOf b) (roundMag (unitsOf a * oneUnits) (unitsOf b))

/-- A value's place in the order of all values but NaN: both zeros at 0, the infinities at the ends. -/
def orderKey (x : F64) : Int := if signOf x then -(magOf x : Int) else (magOf x : Int)

/-- `feq` of 00_scope.md R10, false on a NaN. -/
def feq (a b : F64) : Bool := !isNaN a && !isNaN b && decide (orderKey a = orderKey b)

/-- `flt` of 00_scope.md R10, false on a NaN. -/
def flt (a b : F64) : Bool := !isNaN a && !isNaN b && decide (orderKey a < orderKey b)

/-- `fgt` of 00_scope.md R10, false on a NaN. -/
def fgt (a b : F64) : Bool := flt b a

/-- `fge` of 00_scope.md R10, false on a NaN. -/
def fge (a b : F64) : Bool := !isNaN a && !isNaN b && decide (orderKey b ≤ orderKey a)

/-- `f64` of 00_scope.md R10: the binary64 nearest to a natural. -/
def f64OfNat (n : Nat) : F64 := packF64 false (roundMag (n * oneUnits) 1)

/-- `floor` of 00_scope.md R10 for finite `x >= 0` (−0.0 among them, 43_pulse_quantizer.md R162); a free value outside
that domain (log entry 4). -/
def floorF64 (x : F64) : Nat :=
  if isFinite x && decide (0 ≤ orderKey x) then unitsOf x / oneUnits else Config.floorOutside x

/-- +0.0. -/
def posZero : F64 := 0x0000000000000000

/-- 2.0. -/
def two : F64 := 0x4000000000000000

/-- 8.0, the CPU cycles of one pulse unit (00_scope.md R8, `PULSE_UNIT`). -/
def eight : F64 := 0x4020000000000000

/-- 255.0, the largest scaled duration a Pulse Byte holds (43_pulse_quantizer.md R162). -/
def maxScaled : F64 := 0x406FE00000000000

/-- 1e6, exact (41_sample_downmixer.md R123). -/
def million : F64 := 0x412E848000000000

/-- The binary64 nearest to 1e-6 (43_pulse_quantizer.md R161). -/
def millionth : F64 := 0x3EB0C6F7A0B5ED8D

/-- 2^64 (41_sample_downmixer.md R123). -/
def twoTo64 : F64 := 0x43F0000000000000

end Sys2Proof.Machine
end

