-- ==== Sys2Proof/Machine/Operands.lean ====
section
/-! DEFINITION. The operand forms: the register index of READ_REG (10_state.md R34) and the one or two channel values of
a sample command (44_sample_ops.md R180). -/

namespace Sys2Proof.Machine

/-- The register index map (10_state.md R34); none for the unassigned indices 7 to 255. -/
def registerOf (idx : Byte) : Option Register :=
  match idx.toNat with
  | 0 => some .sampleRate
  | 1 => some .cpuFreq
  | 2 => some .channels
  | 3 => some .status
  | 4 => some .sampleCount
  | 5 => some .crossCount
  | 6 => some .pulseCount
  | _ => none

/-- The index of a register (10_state.md R34). -/
def indexOf (r : Register) : Byte :=
  match r with
  | .sampleRate => 0
  | .cpuFreq => 1
  | .channels => 2
  | .status => 3
  | .sampleCount => 4
  | .crossCount => 5
  | .pulseCount => 6

/-- The read value of a register, zero-extended to 64 bits where it is narrower (10_state.md R34; 40_control_ops.md
R106). -/
def readRegister (r : Register) (s : State) : Word64 :=
  match r with
  | .sampleRate => s.sampleRate.setWidth 64
  | .cpuFreq => s.cpuFreq
  | .channels => s.channels.setWidth 64
  | .status => statusWord s
  | .sampleCount => s.sampleCount
  | .crossCount => s.crossCount
  | .pulseCount => s.pulseCount

/-- The channel values a sample command carries: one row of the source's sample matrix (44_sample_ops.md). -/
inductive SampleRow where
  | mono (v0 : F64)
  | stereo (v0 v1 : F64)
  deriving DecidableEq, Repr

/-- The arity `n` of a sample command (44_sample_ops.md R180). -/
def arityOf (row : SampleRow) : Byte :=
  match row with
  | .mono _ => 1
  | .stereo _ _ => 2

/-- Whether every channel value is finite (44_sample_ops.md R180; 41_sample_downmixer.md R124). -/
def rowIsFinite (row : SampleRow) : Bool :=
  match row with
  | .mono v0 => isFinite v0
  | .stereo v0 v1 => isFinite v0 && isFinite v1

end Sys2Proof.Machine
end

