-- ==== Sys2Proof/Machine/Ops.lean ====
section
/-! DEFINITION. The named operations over registers and streams that the meanings share: raising a fault, leaving it, the
order of checks, and the three emits. -/

namespace Sys2Proof.Machine

/-- `raise Fault(c)` (60_exceptions.md R203): STATUS is written, and nothing else. -/
def raiseFault (c : Cause) (s : State) : State := { s with runState := .faulted, cause := c }

/-- `Reset()` (70_reset_and_hazards.md R230), the only way out of FAULTED (60_exceptions.md R205). What the host has
presented, and its own position, are not the block's to reset (10_state.md R20, R21). -/
def performReset (s : State) : State := { State.reset with cmdIn := s.cmdIn, position := s.position }

/-- What 40_control_ops.md R100 does with every command but RESET and READ_REG: in FAULTED it is ignored. -/
def unlessFaulted (effect : State → State) (s : State) : State :=
  if s.runState = .faulted then s else effect s

/-- The cause of the first check that fails, in the order listed (60_exceptions.md R207). -/
def firstFailing : List (Bool × Cause) → Option Cause
  | [] => none
  | (failed, c) :: rest => if failed then some c else firstFailing rest

/-- A command's checks and then its effect (60_exceptions.md R204): the first failing check raises its fault, and the
command then has no other effect. -/
def checked (checks : List (Bool × Cause)) (effect : State → State) (s : State) : State :=
  match firstFailing checks with
  | some c => raiseFault c s
  | none => effect s

/-- `Emit(CROSS_OUT, e)` and its count (44_sample_ops.md R181). -/
def emitCross (e : F64) (s : State) : State :=
  { s with crossOut := s.crossOut ++ [e], crossCount := s.crossCount + 1 }

/-- `Emit(PULSE_OUT, b)` and its count (43_pulse_quantizer.md R163). -/
def emitPulse (b : Byte) (s : State) : State :=
  { s with pulseOut := s.pulseOut ++ [b], pulseCount := s.pulseCount + 1 }

/-- `Emit(RESP_OUT, v)` (40_control_ops.md R106). -/
def emitResp (v : Word64) (s : State) : State := { s with respOut := s.respOut ++ [v] }

/-- The block has taken a command off CMD_IN: `rest` is left, and the position moves on by one (10_state.md R21). -/
def takeCommand (rest : List Byte) (s : State) : State :=
  { s with cmdIn := rest, position := s.position + 1 }

end Sys2Proof.Machine
end

