-- ==== Sys2Proof/Machine/Control.lean ====
section
/-! DEFINITION. The control commands (40_control_ops.md): RESET, SET_RATE, SET_CHANNELS, SET_CPUFREQ, END, READ_REG, and
the performing of the decoder's `Invalid` verdicts. -/

namespace Sys2Proof.Machine

/-- RESET (40_control_ops.md R101): performed in every state, FAULTED included. -/
def execReset (s : State) : Host.Outcome State Fault Refusal := .next (performReset s)

/-- SET_RATE (40_control_ops.md R102). -/
def execSetRate (rate : Word32) (s : State) : Host.Outcome State Fault Refusal :=
  .next (unlessFaulted
    (checked [(decide (s.runState ≠ .idle), .configLocked), (decide (rate = 0), .badRate)]
      (fun s => { s with sampleRate := rate })) s)

/-- SET_CHANNELS (40_control_ops.md R103). -/
def execSetChannels (ch : Byte) (s : State) : Host.Outcome State Fault Refusal :=
  .next (unlessFaulted
    (checked [(decide (s.runState ≠ .idle), .configLocked), (decide (ch ≠ 1 ∧ ch ≠ 2), .badChannels)]
      (fun s => { s with channels := ch })) s)

/-- SET_CPUFREQ (40_control_ops.md R104). -/
def execSetCpufreq (freq : F64) (s : State) : Host.Outcome State Fault Refusal :=
  .next (unlessFaulted
    (checked [(decide (s.runState ≠ .idle), .configLocked), (!isFinite freq || !fgt freq posZero, .badCpufreq)]
      (fun s => { s with cpuFreq := freq })) s)

/-- END (40_control_ops.md R105): legal in IDLE with nothing configured, emits and flushes nothing. -/
def execEndStream (s : State) : Host.Outcome State Fault Refusal :=
  .next (unlessFaulted
    (checked [(decide (s.runState = .ended), .afterEnd), (decide (Config.maxPulses < s.pulseCount.toNat), .lengthOverflow)]
      (fun s => { s with runState := .ended })) s)

/-- READ_REG (40_control_ops.md R106): performed in every state; of an unassigned index it faults, or is ignored in
FAULTED. -/
def execReadReg (idx : Byte) (s : State) : Host.Outcome State Fault Refusal :=
  match registerOf idx with
  | none => .next (unlessFaulted (raiseFault .badRegister) s)
  | some r => .next (emitResp (readRegister r s) s)

/-- The cause that an `Invalid` verdict raises (40_control_ops.md R107). -/
def verdictCause (v : Verdict) : Cause :=
  match v with
  | .illegalOpcode => .illegalOpcode
  | .truncatedCommand => .truncatedCommand

/-- Performing an `Invalid` verdict (40_control_ops.md R107): ignored in FAULTED. -/
def performInvalid (v : Verdict) (s : State) : State := unlessFaulted (raiseFault (verdictCause v)) s

end Sys2Proof.Machine
end

