-- ==== Sys2Proof/Machine/Detector.lean ====
section
/-! DEFINITION. The zero_crossing_detector unit (42_zero_crossing_detector.md). -/

namespace Sys2Proof.Machine

/-- The fractional crossing offset `zo` of a pair of amplitudes (42_zero_crossing_detector.md R142). -/
def crossingOffset (p a : F64) : Option F64 :=
  if feq p a then none else some (fdiv p (fsub p a))

/-- Whether a pair of amplitudes qualifies (42_zero_crossing_detector.md R143). -/
def qualifies (p a : F64) : Bool := flt p posZero && fge a posZero

/-- The candidate crossing timestamp (42_zero_crossing_detector.md R145): left to right, two roundings. -/
def candidate (t : Word64) (zo lastzo : F64) : F64 := fsub (fadd (f64OfNat t.toNat) zo) lastzo

/-- The Crossing Event of a pair, with the held offset the pair reads (42_zero_crossing_detector.md R146). A qualifying
pair always has an offset of its own (R148). -/
def crossingEvent (p a : F64) (t : Word64) (lastzo : Option F64) : Option F64 :=
  match qualifies p a, crossingOffset p a, lastzo with
  | true, some zo, some l => some (candidate t zo l)
  | _, _, _ => none

/-- The offset the next pair reads: this pair's when it is defined, the held one otherwise (42_zero_crossing_detector.md
R144, R147). -/
def heldOffset (p a : F64) (lastzo : Option F64) : Option F64 :=
  match crossingOffset p a with
  | some zo => some zo
  | none => lastzo

/-- The event that `DetectStep(a, t)` returns (42_zero_crossing_detector.md R147). It reads LASTZO as it was before the
step (70_reset_and_hazards.md R240). -/
def detectEvent (a : F64) (t : Word64) (s : State) : Option F64 :=
  match s.prev with
  | none => none
  | some p => crossingEvent p a t s.lastzo

/-- What `DetectStep(a, t)` writes: PREV, and LASTZO where the pair's offset is defined (42_zero_crossing_detector.md
R147). -/
def detectWrite (a : F64) (s : State) : State :=
  match s.prev with
  | none => { s with prev := some a }
  | some p => { s with prev := some a, lastzo := heldOffset p a s.lastzo }

end Sys2Proof.Machine
end

