-- ==== Sys2Proof/Machine/Downmixer.lean ====
section
/-! DEFINITION. The sample_downmixer unit (41_sample_downmixer.md): one sample to an amplitude and a timestamp. -/

namespace Sys2Proof.Machine

/-- The mono amplitude: the one channel as it is (41_sample_downmixer.md R121), or the mean of two with one rounding for
the sum and one for the halving (R122). -/
def downmix (row : SampleRow) : F64 :=
  match row with
  | .mono v0 => v0
  | .stereo v0 v1 => fdiv (fadd v0 v1) two

/-- The real `x` of 41_sample_downmixer.md R123, in microseconds. -/
def timestampReal (i : Nat) (sr : Word32) : F64 :=
  fmul (fdiv (f64OfNat i) (f64OfNat sr.toNat)) million

/-- The timestamp `t = floor(x)` of 41_sample_downmixer.md R123, an unsigned 64-bit number of microseconds. -/
def timestamp (i : Nat) (sr : Word32) : Word64 := BitVec.ofNat 64 (floorF64 (timestampReal i sr))

/-- Whether the timestamp does not fit its 64 bits (41_sample_downmixer.md R123, TIMESTAMP_OVERFLOW). -/
def timestampOverflows (i : Nat) (sr : Word32) : Bool := !flt (timestampReal i sr) twoTo64

end Sys2Proof.Machine
end

