-- ==== Sys2Proof/Machine/Quantizer.lean ====
section
/-! DEFINITION. The pulse_quantizer unit (43_pulse_quantizer.md). -/

namespace Sys2Proof.Machine

/-- The scale factor `K` (43_pulse_quantizer.md R161): the multiplication rounds before the division. -/
def scaleFactor (freq : F64) : F64 := fdiv (fmul millionth freq) eight

/-- The quantizing function `Q` of a duration in microseconds (43_pulse_quantizer.md R162): 0 above 255 and below 0,
truncation between. -/
def quantize (freq d : F64) : Byte :=
  if fgt (fmul d (scaleFactor freq)) maxScaled then 0
  else if flt (fmul d (scaleFactor freq)) posZero then 0
  else BitVec.ofNat 8 (floorF64 (fmul d (scaleFactor freq)))

/-- The Pulse Byte of an event, given the event before it (43_pulse_quantizer.md R163): 0 for the first. -/
def pulseByte (freq e : F64) (lastev : Option F64) : Byte :=
  match lastev with
  | none => 0
  | some l => quantize freq (fsub e l)

/-- `QuantStep(e)` (43_pulse_quantizer.md R163). LASTEV is read as it was before the step (70_reset_and_hazards.md
R241). -/
def quantStep (e : F64) (s : State) : State :=
  { emitPulse (pulseByte s.cpuFreq e s.lastev) s with lastev := some e }

end Sys2Proof.Machine
end

