-- ==== Sys2Proof/Machine/Sample.lean ====
section
/-! DEFINITION. The sample commands (44_sample_ops.md): admission, and the three units in their order. -/

namespace Sys2Proof.Machine

/-- The checks of `SampleAdmit` in their order (44_sample_ops.md R180; 60_exceptions.md R207). -/
def sampleChecks (row : SampleRow) (s : State) : List (Bool × Cause) :=
  [ (decide (s.runState = .ended), .afterEnd),
    (decide (s.sampleRate = 0 ∨ s.channels = 0), .notConfigured),
    (decide (s.channels ≠ arityOf row), .arityMismatch),
    (!rowIsFinite row, .nonfiniteSample),
    (!isFinite (downmix row), .nonfiniteSample),
    (decide (Config.maxSamples ≤ s.sampleCount.toNat), .indexOverflow),
    (timestampOverflows s.sampleCount.toNat s.sampleRate, .timestampOverflow) ]

/-- What an accepted sample does with the event the detector gave (44_sample_ops.md R181): nothing, or one CROSS_OUT
element and then one PULSE_OUT element. -/
def emitEvent (ev : Option F64) (s : State) : State :=
  match ev with
  | none => s
  | some e => quantStep e (emitCross e s)

/-- `SampleStep(i, a, t)` (44_sample_ops.md R181), with `i` = SAMPLE_COUNT before the command. -/
def sampleStep (a : F64) (t : Word64) (s : State) : State :=
  emitEvent (detectEvent a t s)
    (detectWrite a { s with runState := .running, sampleCount := s.sampleCount + 1 })

/-- A sample command of either arity: admission, then the effect (44_sample_ops.md R180, R181). -/
def performSample (row : SampleRow) (s : State) : State :=
  unlessFaulted
    (checked (sampleChecks row s)
      (fun s => sampleStep (downmix row) (timestamp s.sampleCount.toNat s.sampleRate) s)) s

/-- SAMPLE_MONO (44_sample_ops.md R182). -/
def execSampleMono (a : F64) (s : State) : Host.Outcome State Fault Refusal :=
  .next (performSample (.mono a) s)

/-- SAMPLE_STEREO (44_sample_ops.md R183), channel 0 first. -/
def execSampleStereo (a0 a1 : F64) (s : State) : Host.Outcome State Fault Refusal :=
  .next (performSample (.stereo a0 a1) s)

end Sys2Proof.Machine
end

