-- ==== Sys2Proof/Machine/Dispatch.lean ====
section
/-! DEFINITION. One arm per command (40_control_ops.md R100). -/

namespace Sys2Proof.Machine

def exec (i : Instr) (s : State) : Host.Outcome State Fault Refusal :=
  match i with
  | .reset => Sys2Proof.Machine.execReset s
  | .setRate rate => Sys2Proof.Machine.execSetRate rate s
  | .setChannels ch => Sys2Proof.Machine.execSetChannels ch s
  | .setCpufreq freq => Sys2Proof.Machine.execSetCpufreq freq s
  | .sampleMono a => Sys2Proof.Machine.execSampleMono a s
  | .sampleStereo a0 a1 => Sys2Proof.Machine.execSampleStereo a0 a1 s
  | .endStream => Sys2Proof.Machine.execEndStream s
  | .readReg idx => Sys2Proof.Machine.execReadReg idx s

end Sys2Proof.Machine
end

