-- ==== Sys2Proof/Machine/Step.lean ====
section
/-! DEFINITION. One step (00_scope.md R14; 40_control_ops.md R100): the next command or verdict of CMD_IN is taken off it
and performed. -/

namespace Sys2Proof.Machine

/-- One step. With no command presented the block holds its state and does nothing (60_exceptions.md R212; DEDUCED, log
entry 2). -/
def step (s : State) : Host.Outcome State Fault Refusal :=
  match decodeNext s.cmdIn with
  | none => .next s
  | some (.command i rest) => exec i (takeCommand rest s)
  | some (.invalid v rest) => .next (performInvalid v (takeCommand rest s))

/-- The host presents the command of a table word ahead of everything else it has presented (DESIGN CHOICE, log entry 1). -/
def State.withFetchWord (s : State) (nbits w : Nat) : State :=
  { s with cmdIn := tableWordCommand nbits w ++ s.cmdIn }

end Sys2Proof.Machine
end

