-- ==== Sys2Proof/Machine/Asm.lean ====
section
/-! DEFINITION. The assembler and the disassembler (30_encoding.md R78, R79): text to commands and back. What the grammar
leaves open (blanks, the spelling of a decimal literal, the radix in which a number is printed, which shortest decimal is
printed, what becomes of the other lines when one is an error) is in log entry 9 (DESIGN CHOICE). -/

namespace Sys2Proof.Machine

/-- The low 63 bits of the binary64 nearest to `digits × 10^exp10` (00_scope.md R10, decimal literals). -/
def decimalMag (digits : Nat) (exp10 : Int) : Nat :=
  match exp10 with
  | .ofNat e => roundMag (digits * 10 ^ e * oneUnits) 1
  | .negSucc e => roundMag (digits * oneUnits) (10 ^ (e + 1))

/-- The pattern that a `float` of the grammar stands for (30_encoding.md R78). The pattern of `nan` is free (log entry
8). -/
def asmValue (f : AsmFloat) : F64 :=
  match f with
  | .decimal neg digits exp10 => packF64 neg (decimalMag digits exp10)
  | .raw pattern => pattern
  | .nan => packF64 Config.asmNanSign (0x7FF8000000000000 + Config.asmNanPayload.toNat)
  | .inf neg => packF64 neg infMag

/-- The index that the operand of `read_reg` assembles to (30_encoding.md R78). -/
def asmIndex (r : AsmRegister) : Byte :=
  match r with
  | .index n => BitVec.ofNat 8 n
  | .name r => indexOf r

/-- The commands a well-formed line stands for: one, or a pseudo-instruction's expansion in order (30_encoding.md R78,
R79). -/
def expand (c : AsmCommand) : List Instr :=
  match c with
  | .reset => [.reset]
  | .endStream => [.endStream]
  | .setRate rate => [.setRate (BitVec.ofNat 32 rate)]
  | .setChannels ch => [.setChannels (BitVec.ofNat 8 ch)]
  | .setCpufreq freq => [.setCpufreq (asmValue freq)]
  | .sample v => [.sampleMono (asmValue v)]
  | .sample2 v0 v1 => [.sampleStereo (asmValue v0) (asmValue v1)]
  | .readReg r => [.readReg (asmIndex r)]
  | .config ch rate => [.setChannels (BitVec.ofNat 8 ch), .setRate (BitVec.ofNat 32 rate)]
  | .configFreq ch rate freq =>
    [.setChannels (BitVec.ofNat 8 ch), .setRate (BitVec.ofNat 32 rate), .setCpufreq (asmValue freq)]
  | .samples vs => vs.map (fun v => .sampleMono (asmValue v))
  | .streamMono rate vs =>
    [.reset, .setChannels 1, .setRate (BitVec.ofNat 32 rate)] ++ vs.map (fun v => .sampleMono (asmValue v)) ++ [.endStream]
  | .status => [.readReg (indexOf .status)]

/-- The bytes of a list of lines; none where a line is an assembly error (30_encoding.md R78: it is not encoded). R78 says
nothing of the other lines then; that none of them is encoded either is a DESIGN CHOICE (log entry 9). -/
def assemble (lines : List AsmCommand) : Option (List Byte) :=
  if lines.all AsmCommand.wellFormed then some (encodeAll (lines.flatMap expand)) else none

/-- The name of a register in the grammar (30_encoding.md R78). -/
def registerName (r : Register) : List Char :=
  match r with
  | .sampleRate => "SAMPLE_RATE".toList
  | .cpuFreq => "CPU_FREQ".toList
  | .channels => "CHANNELS".toList
  | .status => "STATUS".toList
  | .sampleCount => "SAMPLE_COUNT".toList
  | .crossCount => "CROSS_COUNT".toList
  | .pulseCount => "PULSE_COUNT".toList

/-- The registers in the order of their indices (10_state.md R34). -/
def allRegisters : List Register :=
  [.sampleRate, .cpuFreq, .channels, .status, .sampleCount, .crossCount, .pulseCount]

/-- The value of a hexadecimal digit, in either case. -/
def hexDigit (c : Char) : Option Nat :=
  if '0' ≤ c ∧ c ≤ '9' then some (c.toNat - '0'.toNat)
  else if 'a' ≤ c ∧ c ≤ 'f' then some (c.toNat - 'a'.toNat + 10)
  else if 'A' ≤ c ∧ c ≤ 'F' then some (c.toNat - 'A'.toNat + 10)
  else none

/-- The value of a decimal digit. -/
def decDigit (c : Char) : Option Nat :=
  if '0' ≤ c ∧ c ≤ '9' then some (c.toNat - '0'.toNat) else none

/-- Digits of a base read after a value, all of them. -/
def readDigits (digit : Char → Option Nat) (base : Nat) : Nat → List Char → Option Nat
  | acc, [] => some acc
  | acc, c :: cs =>
    match digit c with
    | none => none
    | some d => readDigits digit base (acc * base + d) cs

/-- One or more decimal digits. -/
def readDec (cs : List Char) : Option Nat := if cs.isEmpty then none else readDigits decDigit 10 0 cs

/-- One or more hexadecimal digits. -/
def readHex (cs : List Char) : Option Nat := if cs.isEmpty then none else readDigits hexDigit 16 0 cs

/-- A `uint` of the grammar: a decimal or a 0x-hexadecimal natural (30_encoding.md R78). -/
def parseUint (cs : List Char) : Option Nat :=
  match cs with
  | '0' :: 'x' :: hex => readHex hex
  | _ => readDec cs

/-- The text before the first `sep`, and the text after it where there is one. -/
def splitFirst (sep : Char) : List Char → List Char × Option (List Char)
  | [] => ([], none)
  | c :: cs => if c = sep then ([], some cs) else ((c :: (splitFirst sep cs).1), (splitFirst sep cs).2)

/-- The pieces of a text between commas. -/
def splitCommas : List Char → List (List Char)
  | [] => [[]]
  | c :: cs =>
    match splitCommas cs with
    | [] => [[c]]
    | piece :: pieces => if c = ',' then [] :: piece :: pieces else (c :: piece) :: pieces

/-- A text without the blanks at its ends. -/
def trimBlanks (cs : List Char) : List Char :=
  ((cs.dropWhile (· = ' ')).reverse.dropWhile (· = ' ')).reverse

/-- A signed decimal exponent. -/
def parseExponent (cs : List Char) : Option Int :=
  match cs with
  | '-' :: ds => (readDec ds).map (fun n : Nat => -(n : Int))
  | '+' :: ds => (readDec ds).map (fun n : Nat => (n : Int))
  | ds => (readDec ds).map (fun n : Nat => (n : Int))

/-- An unsigned decimal literal: digits, then `.` and digits or nothing, then `e` and an exponent or nothing. -/
def parseDecimal (neg : Bool) (cs : List Char) : Option AsmFloat := do
  let (mantissa, exponent) := splitFirst 'e' cs
  let (whole, fraction) := splitFirst '.' mantissa
  let e ← match exponent with
    | none => some 0
    | some ds => parseExponent ds
  let w ← readDec whole
  match fraction with
  | none => some (.decimal neg w e)
  | some ds =>
    let f ← readDec ds
    some (.decimal neg (w * 10 ^ ds.length + f) (e - ds.length))

/-- A `float` of the grammar (30_encoding.md R78). -/
def parseFloat (cs : List Char) : Option AsmFloat :=
  if cs = "nan".toList then some .nan
  else if cs = "inf".toList then some (.inf false)
  else if cs = "-inf".toList then some (.inf true)
  else
    match cs with
    | '0' :: 'd' :: hex => if hex.length = 16 then (readHex hex).map (fun n => .raw (BitVec.ofNat 64 n)) else none
    | '-' :: ds => parseDecimal true ds
    | ds => parseDecimal false ds

/-- The operand of `read_reg`: a `uint` or a `regname` (30_encoding.md R78). -/
def parseRegister (cs : List Char) : Option AsmRegister :=
  match allRegisters.find? (fun r => registerName r = cs) with
  | some r => some (.name r)
  | none => (parseUint cs).map .index

/-- A list of floats; a text of blanks is the empty list. -/
def parseFloats (cs : List Char) : Option (List AsmFloat) :=
  if (trimBlanks cs).isEmpty then some [] else (splitCommas cs).mapM (fun p => parseFloat (trimBlanks p))

/-- A list of floats between brackets. -/
def parseBracketed (cs : List Char) : Option (List AsmFloat) :=
  match cs with
  | '[' :: inner => if inner.getLast? = some ']' then parseFloats inner.dropLast else none
  | _ => none

/-- A mnemonic with its operands, which stand between commas (30_encoding.md R78, R79). -/
def parseOperands (name : List Char) (ops : List (List Char)) : Option AsmCommand :=
  if name = "samples".toList then (ops.mapM parseFloat).map .samples
  else
    match ops with
    | [x] =>
      if name = "set_rate".toList then (parseUint x).map .setRate
      else if name = "set_channels".toList then (parseUint x).map .setChannels
      else if name = "set_cpufreq".toList then (parseFloat x).map .setCpufreq
      else if name = "sample".toList then (parseFloat x).map .sample
      else if name = "read_reg".toList then (parseRegister x).map .readReg
      else none
    | [x, y] =>
      if name = "sample2".toList then do some (.sample2 (← parseFloat x) (← parseFloat y))
      else if name = "config".toList then do some (.config (← parseUint x) (← parseUint y))
      else none
    | [x, y, z] =>
      if name = "config".toList then do some (.configFreq (← parseUint x) (← parseUint y) (← parseFloat z))
      else none
    | _ => none

/-- A mnemonic that takes no operand. -/
def parseBare (name : List Char) : Option AsmCommand :=
  if name = "reset".toList then some .reset
  else if name = "end".toList then some .endStream
  else if name = "status".toList then some .status
  else none

/-- One line of assembler text (30_encoding.md R78, R79). -/
def parseLine (line : List Char) : Option AsmCommand :=
  match splitFirst ' ' (trimBlanks line) with
  | (name, none) => parseBare name
  | (name, some text) =>
    if name = "stream_mono".toList then
      match splitFirst ',' (trimBlanks text) with
      | (_, none) => none
      | (rate, some list) => do
        some (.streamMono (← parseUint (trimBlanks rate)) (← parseBracketed (trimBlanks list)))
    else parseOperands name ((splitCommas text).map trimBlanks)

/-- The bytes of assembler text, given line by line; none where a line is an assembly error or outside the grammar. That
the other lines are then not encoded either is a DESIGN CHOICE (log entry 9). -/
def assembleText (lines : List (List Char)) : Option (List Byte) := do
  assemble (← lines.mapM parseLine)

/-- The decimal digits of a natural, at most `fuel` of them, before a text. -/
def decDigits : Nat → Nat → List Char → List Char
  | 0, _, acc => acc
  | fuel + 1, n, acc =>
    if n < 10 then Char.ofNat (48 + n) :: acc else decDigits fuel (n / 10) (Char.ofNat (48 + n % 10) :: acc)

/-- A natural in decimal. -/
def showNat (n : Nat) : List Char := decDigits (n + 1) n []

/-- A nibble as a hexadecimal digit. -/
def showNibble (n : Nat) : Char := if n < 10 then Char.ofNat (48 + n) else Char.ofNat (87 + n)

/-- A pattern as sixteen hexadecimal digits, the most significant first (30_encoding.md R78). -/
def showPattern (x : F64) : List Char :=
  (List.range 16).map (fun k => showNibble (x.toNat / 16 ^ (15 - k) % 16))

/-- The number of decimal digits of a natural, at most `fuel`. -/
def decLength : Nat → Nat → Nat
  | 0, _ => 0
  | fuel + 1, n => if n < 10 then 1 else decLength fuel (n / 10) + 1

/-- The power of ten that brings every binary64 magnitude but zero above 10^19. -/
def printScale : Nat := 343

/-- The next decimal of `n` significant digits above `low × 10^e`: past `n` nines it is a power of ten, written with its
one significant digit and `n − 1` zeros. -/
def nextDecimal (n low : Nat) (e : Int) : Nat × Int :=
  if low + 1 = 10 ^ n then (10 ^ (n - 1), e + 1) else (low + 1, e)

/-- Of the decimals of `n` significant digits next to a magnitude, one that reads back to it; where both do, the nearer, and the
lower where they are equally near (DESIGN CHOICE, log entry 9). -/
def decimalOfLength (mag n : Nat) : Option (Nat × Int) :=
  let scaled := unitsOfMag mag * 10 ^ printScale
  let len := decLength 700 (scaled / oneUnits)
  let place := 10 ^ (len - n) * oneUnits
  let low := scaled / place
  let e : Int := (len : Int) - n - printScale
  let high := nextDecimal n low e
  let lowReads := decide (decimalMag low e = mag)
  let highReads := decide (decimalMag high.1 high.2 = mag)
  if lowReads && (!highReads || decide (2 * (scaled % place) ≤ place)) then some (low, e)
  else if highReads then some high
  else none

/-- The shortest decimal that reads back to a magnitude (30_encoding.md R78): the fewest significant digits, of one to
seventeen. That "shortest" counts significant digits is DEDUCED (log entry 9). -/
def shortestDecimal (mag : Nat) : Option (Nat × Int) :=
  if mag = 0 then some (0, 0) else ((List.range 18).drop 1).findSome? (decimalOfLength mag)

/-- How the disassembler prints a binary64 operand (30_encoding.md R78): a NaN by its pattern, a finite value by its
shortest decimal. Every finite binary64 has a decimal of seventeen digits that reads back to it; were there none, its
pattern would be printed. -/
def asmFloatOf (x : F64) : AsmFloat :=
  if isNaN x then .raw x
  else if isInf x then .inf (signOf x)
  else
    match shortestDecimal (magOf x) with
    | some (digits, e) => .decimal (signOf x) digits e
    | none => .raw x

/-- The text line of a command, as data (30_encoding.md R78). -/
def disassemble (i : Instr) : AsmCommand :=
  match i with
  | .reset => .reset
  | .setRate rate => .setRate rate.toNat
  | .setChannels ch => .setChannels ch.toNat
  | .setCpufreq freq => .setCpufreq (asmFloatOf freq)
  | .sampleMono a => .sample (asmFloatOf a)
  | .sampleStereo a0 a1 => .sample2 (asmFloatOf a0) (asmFloatOf a1)
  | .endStream => .endStream
  | .readReg idx =>
    match registerOf idx with
    | some r => .readReg (.name r)
    | none => .readReg (.index idx.toNat)

/-- A `float` as text: a decimal as its digits, `e` and its exponent (DESIGN CHOICE, log entry 9). -/
def showFloat (f : AsmFloat) : List Char :=
  match f with
  | .decimal neg digits (.ofNat e) => (if neg then ['-'] else []) ++ showNat digits ++ ['e'] ++ showNat e
  | .decimal neg digits (.negSucc e) => (if neg then ['-'] else []) ++ showNat digits ++ ['e', '-'] ++ showNat (e + 1)
  | .raw pattern => ['0', 'd'] ++ showPattern pattern
  | .nan => "nan".toList
  | .inf neg => (if neg then ['-'] else []) ++ "inf".toList

/-- The text of a command: its mnemonic in lower case, then its operands separated by commas (30_encoding.md R78). The
`uint` operands of `set_rate` and `set_channels`, and an index of `read_reg` that has no name, are printed in decimal: R78
allows either radix and is silent on printing (DESIGN CHOICE, log entry 9). -/
def showInstr (i : Instr) : List Char :=
  match i with
  | .reset => "reset".toList
  | .setRate rate => "set_rate ".toList ++ showNat rate.toNat
  | .setChannels ch => "set_channels ".toList ++ showNat ch.toNat
  | .setCpufreq freq => "set_cpufreq ".toList ++ showFloat (asmFloatOf freq)
  | .sampleMono a => "sample ".toList ++ showFloat (asmFloatOf a)
  | .sampleStereo a0 a1 => "sample2 ".toList ++ showFloat (asmFloatOf a0) ++ ", ".toList ++ showFloat (asmFloatOf a1)
  | .endStream => "end".toList
  | .readReg idx =>
    "read_reg ".toList ++
      (match registerOf idx with
       | some r => registerName r
       | none => showNat idx.toNat)

end Sys2Proof.Machine
end

