-- ==== Sys2Proof/Machine/Grammar.lean ====
section
/-! DEFINITION. The grammar of assembler text as a relation between a text and what it reads as (30_encoding.md R78, R79),
written from the grammar and not from the parser of Sys2Proof/Machine/Asm.lean. What the grammar leaves open (blanks, the
spelling of a decimal literal, the case of hexadecimal digits) is in log entry 9 (DESIGN CHOICE). -/

namespace Sys2Proof.Machine

/-- One or more digits that stand for `n`, the most significant first. The digit of value `d` is the character at place
`d` of an alphabet. -/
def DigitsText (base : Nat) (alphabets : List String) (cs : List Char) (n : Nat) : Prop :=
  cs ≠ [] ∧ ∃ ds : List Nat,
    List.Forall₂ (fun c d => ∃ a ∈ alphabets, a.toList[d]? = some c) cs.reverse ds ∧ n = Nat.ofDigits base ds

/-- A decimal natural. -/
def DecText (cs : List Char) (n : Nat) : Prop := DigitsText 10 ["0123456789"] cs n

/-- A hexadecimal natural, without its prefix. -/
def HexText (cs : List Char) (n : Nat) : Prop := DigitsText 16 ["0123456789abcdef", "0123456789ABCDEF"] cs n

/-- A `uint`: a decimal or 0x-hexadecimal natural (30_encoding.md R78). -/
def UintText (cs : List Char) (n : Nat) : Prop := DecText cs n ∨ ∃ hex, cs = '0' :: 'x' :: hex ∧ HexText hex n

/-- The exponent of a decimal literal, with its `e`; none is 0. -/
def ExponentText (cs : List Char) (e : Int) : Prop :=
  (cs = [] ∧ e = 0) ∨ ∃ ds n, DecText ds n ∧
    (((cs = 'e' :: ds ∨ cs = 'e' :: '+' :: ds) ∧ e = n) ∨ (cs = 'e' :: '-' :: ds ∧ e = -n))

/-- A decimal literal without its sign: it stands for its digits, read without the point, over one power of ten for each
digit behind the point, times the power of ten of its exponent. -/
def DecimalText (cs : List Char) (digits : Nat) (exp10 : Int) : Prop :=
  ∃ whole fraction exponent e, whole ≠ [] ∧ DecText (whole ++ fraction) digits ∧ ExponentText exponent e ∧
    exp10 = e - fraction.length ∧
    ((fraction = [] ∧ cs = whole ++ exponent) ∨ (fraction ≠ [] ∧ cs = whole ++ '.' :: (fraction ++ exponent)))

/-- A `float` (30_encoding.md R78). -/
def FloatText (cs : List Char) (f : AsmFloat) : Prop :=
  match f with
  | .decimal false digits exp10 => DecimalText cs digits exp10
  | .decimal true digits exp10 => ∃ ds, cs = '-' :: ds ∧ DecimalText ds digits exp10
  | .raw pattern => ∃ hex, cs = '0' :: 'd' :: hex ∧ hex.length = 16 ∧ HexText hex pattern.toNat
  | .nan => cs = "nan".toList
  | .inf false => cs = "inf".toList
  | .inf true => cs = "-inf".toList

/-- The operand of `read_reg`: a `uint` or a `regname` (30_encoding.md R78). -/
def RegisterText (cs : List Char) (r : AsmRegister) : Prop :=
  match r with
  | .index n => UintText cs n
  | .name .sampleRate => cs = "SAMPLE_RATE".toList
  | .name .cpuFreq => cs = "CPU_FREQ".toList
  | .name .channels => cs = "CHANNELS".toList
  | .name .status => cs = "STATUS".toList
  | .name .sampleCount => cs = "SAMPLE_COUNT".toList
  | .name .crossCount => cs = "CROSS_COUNT".toList
  | .name .pulseCount => cs = "PULSE_COUNT".toList

/-- A text with blanks around it, or none. -/
def Padded (cs core : List Char) : Prop :=
  ∃ before after : Nat, cs = List.replicate before ' ' ++ core ++ List.replicate after ' '

/-- Operands separated by commas, with blanks around each or none (30_encoding.md R78). -/
def OperandsText (cs : List Char) (ops : List (List Char)) : Prop :=
  ∃ pieces, List.Forall₂ Padded pieces ops ∧ cs = [','].intercalate pieces

/-- One or more floats separated by commas. -/
def FloatsText (cs : List Char) (fs : List AsmFloat) : Prop :=
  fs ≠ [] ∧ ∃ ops, OperandsText cs ops ∧ List.Forall₂ FloatText ops fs

/-- A line of a mnemonic, a blank, and the text of its operands (30_encoding.md R78). -/
def MnemonicText (line : List Char) (mnemonic : String) (text : List Char) : Prop :=
  ∃ before : Nat, line = List.replicate before ' ' ++ mnemonic.toList ++ ' ' :: text

/-- A line of a mnemonic and its operands. -/
def OperationText (line : List Char) (mnemonic : String) (ops : List (List Char)) : Prop :=
  ∃ text, MnemonicText line mnemonic text ∧ OperandsText text ops

/-- A line of assembler text and the command or pseudo-instruction it reads as (30_encoding.md R78, R79). -/
def LineText (line : List Char) (c : AsmCommand) : Prop :=
  match c with
  | .reset => Padded line "reset".toList
  | .endStream => Padded line "end".toList
  | .status => Padded line "status".toList
  | .setRate rate => ∃ x, OperationText line "set_rate" [x] ∧ UintText x rate
  | .setChannels ch => ∃ x, OperationText line "set_channels" [x] ∧ UintText x ch
  | .setCpufreq freq => ∃ x, OperationText line "set_cpufreq" [x] ∧ FloatText x freq
  | .sample v => ∃ x, OperationText line "sample" [x] ∧ FloatText x v
  | .sample2 v0 v1 => ∃ x y, OperationText line "sample2" [x, y] ∧ FloatText x v0 ∧ FloatText y v1
  | .readReg r => ∃ x, OperationText line "read_reg" [x] ∧ RegisterText x r
  | .config ch rate => ∃ x y, OperationText line "config" [x, y] ∧ UintText x ch ∧ UintText y rate
  | .configFreq ch rate freq =>
    ∃ x y z, OperationText line "config" [x, y, z] ∧ UintText x ch ∧ UintText y rate ∧ FloatText z freq
  | .samples vs => ∃ text, MnemonicText line "samples" text ∧ FloatsText text vs
  | .streamMono rate vs =>
    ∃ first list x inner, MnemonicText line "stream_mono" (first ++ ',' :: list) ∧ Padded first x ∧ UintText x rate ∧
      Padded list ('[' :: (inner ++ [']'])) ∧ ((vs = [] ∧ Padded inner []) ∨ FloatsText inner vs)

end Sys2Proof.Machine
end

