-- ==== Sys2Proof/Machine/Reference.lean ====
section
/-! DEFINITION. The reference semantics of one stream: the source's batch pipeline over a whole sample matrix
(42_zero_crossing_detector.md R141 to R146; 43_pulse_quantizer.md R164; 44_sample_ops.md R185). -/

namespace Sys2Proof.Machine

/-- A whole Mono Trace: the (timestamp, amplitude) entries in index order (42_zero_crossing_detector.md, section 2). -/
abbrev MonoTrace := List (Word64 × F64)

/-- The offset `zo[i]` of pair `i` (42_zero_crossing_detector.md R141, R142); none outside 1 to N − 1. -/
def pairOffset (tr : MonoTrace) (i : Nat) : Option F64 :=
  match i with
  | 0 => none
  | j + 1 =>
    match tr[j]?, tr[j + 1]? with
    | some p, some c => crossingOffset p.2 c.2
    | _, _ => none

/-- The held offset `lastzo[i]`: the offset of the largest earlier pair that has one (42_zero_crossing_detector.md
R144). -/
def pairHeld (tr : MonoTrace) : Nat → Option F64
  | 0 => none
  | j + 1 =>
    match pairOffset tr j with
    | some zo => some zo
    | none => pairHeld tr j

/-- Whether pair `i` qualifies, `q[i]` (42_zero_crossing_detector.md R143). -/
def pairQualifies (tr : MonoTrace) (i : Nat) : Bool :=
  match i with
  | 0 => false
  | j + 1 =>
    match tr[j]?, tr[j + 1]? with
    | some p, some c => qualifies p.2 c.2
    | _, _ => false

/-- The Crossing Event of pair `i`: `c[i]` where the pair qualifies and has a held offset (42_zero_crossing_detector.md
R145, R146). -/
def pairEvent (tr : MonoTrace) (i : Nat) : Option F64 :=
  match pairQualifies tr i, tr[i]?, pairOffset tr i, pairHeld tr i with
  | true, some c, some zo, some l => some (candidate c.1 zo l)
  | _, _, _, _ => none

/-- The Crossing Event sequence `E`, in ascending pair order (42_zero_crossing_detector.md R146). -/
def crossingEvents (tr : MonoTrace) : List F64 := (List.range tr.length).filterMap (pairEvent tr)

/-- The Pulse Bytes of the events that follow an event (43_pulse_quantizer.md R164). -/
def pulseBytesFrom (freq : F64) : F64 → List F64 → List Byte
  | _, [] => []
  | prev, e :: es => quantize freq (fsub e prev) :: pulseBytesFrom freq e es

/-- The Pulse Byte sequence `P` (43_pulse_quantizer.md R164). -/
def pulseBytes (freq : F64) (events : List F64) : List Byte :=
  match events with
  | [] => []
  | e :: es => 0 :: pulseBytesFrom freq e es

/-- The Mono Trace of a sample matrix (44_sample_ops.md R185). -/
def monoTrace (rows : List SampleRow) (sr : Word32) : MonoTrace :=
  rows.zipIdx.map (fun r => (timestamp r.2 sr, downmix r.1))

/-- Where 44_sample_ops.md R185 defines the pipeline: rows of one arity with finite values, a legal rate, finite
amplitudes, at most 2^53 samples, every timestamp below 2^64. -/
def pipelineDefined (rows : List SampleRow) (ch : Byte) (sr : Word32) : Bool :=
  decide (ch = 1 ∨ ch = 2) && decide (sr ≠ 0) &&
    rows.all (fun r => decide (arityOf r = ch) && rowIsFinite r && isFinite (downmix r)) &&
    decide (rows.length ≤ Config.maxSamples) &&
    (List.range rows.length).all (fun i => !timestampOverflows i sr)

/-- `Pipeline(S, C, sr, F)` (44_sample_ops.md R185): the Crossing Events and the Pulse Bytes of a sample matrix. -/
def pipeline (rows : List SampleRow) (sr : Word32) (freq : F64) : List F64 × List Byte :=
  (crossingEvents (monoTrace rows sr), pulseBytes freq (crossingEvents (monoTrace rows sr)))

/-- The sample command that carries a row (44_sample_ops.md R182, R183). -/
def sampleCommand (row : SampleRow) : Instr :=
  match row with
  | .mono v0 => .sampleMono v0
  | .stereo v0 v1 => .sampleStereo v0 v1

/-- The command sequence of one stream (44_sample_ops.md R186; 70_reset_and_hazards.md R234): `freq` is none where the
host keeps the default frequency. -/
def streamCommands (rows : List SampleRow) (ch : Byte) (sr : Word32) (freq : Option F64) : List Instr :=
  [.reset, .setChannels ch, .setRate sr] ++ (freq.map Instr.setCpufreq).toList ++ rows.map sampleCommand ++ [.endStream]

end Sys2Proof.Machine
end

