-- ==== Sys2Proof/Machine/Tap.lean ====
section
/-! DEFINITION. The TAP container (20_memory.md R59 to R61): what the host's writer builds from PULSE_OUT and PULSE_COUNT,
and how its header reads back. No command does this (00_scope.md R5); it is a view of the state (DEDUCED, log entry 12). -/

namespace Sys2Proof.Machine

/-- ASCII `C64-TAPE-RAW` (20_memory.md R59; the byte values are PRESUMED, log entry 12). -/
def tapMagic : List Byte := [0x43, 0x36, 0x34, 0x2D, 0x54, 0x41, 0x50, 0x45, 0x2D, 0x52, 0x41, 0x57]

/-- The 20 header bytes for a payload of this length (20_memory.md R59). -/
def tapHeader (length : Nat) : List Byte := tapMagic ++ [0x00] ++ [0x00, 0x00, 0x00] ++ leBytes 4 length

/-- The TAP file of a stream that reached ENDED; none in any other state (20_memory.md R60). -/
def tapFile (s : State) : Option (List Byte) :=
  if s.runState = .ended then some (tapHeader s.pulseCount.toNat ++ s.pulseOut) else none

/-- The header fields of a TAP file (20_memory.md R59). -/
structure TapHeader where
  magic : List Byte
  version : Byte
  reserved : List Byte
  payloadLength : Nat
  deriving DecidableEq, Repr

/-- The header read from a file's first 20 bytes (20_memory.md R61); none for a shorter file. -/
def readTapHeader (file : List Byte) : Option TapHeader :=
  match (file.drop 12).head? with
  | none => none
  | some version =>
    if file.length < 20 then none
    else some
      { magic := file.take 12
        version := version
        reserved := (file.drop 13).take 3
        payloadLength := leNat ((file.drop 16).take 4) }

end Sys2Proof.Machine
end

