-- ==== Sys2Proof/Machine/Transport.lean ====
section
/-! DEFINITION. The output streams as a byte-level transport carries them (20_memory.md R54): every multi-byte element
little-endian. PULSE_OUT is bytes already (R52). The bytes are a view of the state, which no command calls (DEDUCED, log
entry 14). -/

namespace Sys2Proof.Machine

/-- The eight bytes of a 64-bit word or binary64 pattern, byte `k` its bits [8k+7:8k] (20_memory.md R54). -/
def wordBytes (v : Word64) : List Byte := leBytes 8 v.toNat

/-- The words that bytes of a transport carry, eight bytes each; bytes that fill no word are dropped
(DESIGN CHOICE, log entry 14). -/
def wordsOfBytes : List Byte → List Word64
  | b0 :: b1 :: b2 :: b3 :: b4 :: b5 :: b6 :: b7 :: rest =>
    BitVec.ofNat 64 (leNat [b0, b1, b2, b3, b4, b5, b6, b7]) :: wordsOfBytes rest
  | _ => []

/-- RESP_OUT as bytes: its 64-bit words in emission order (20_memory.md R52, R54). -/
def State.respOutBytes (s : State) : List Byte := s.respOut.flatMap wordBytes

/-- CROSS_OUT as bytes: its binary64 patterns in emission order (20_memory.md R52, R54). -/
def State.crossOutBytes (s : State) : List Byte := s.crossOut.flatMap wordBytes

end Sys2Proof.Machine
end

