-- ==== Sys2Proof/Safety.lean ====
section
/-! DEFINITION. What the claims speak of: runs of commands, the end of a run, when a sample is accepted, where results
overflow, and the invariant of the states a run reaches. -/

namespace Sys2Proof.Machine

/-- A list of commands performed in order, stopping at the first fault or refusal (20_memory.md R51, R57). -/
def execAll : List Instr → State → Host.Outcome State Fault Refusal
  | [], s => .next s
  | i :: is, s =>
    match exec i s with
    | .next t => execAll is t
    | .fault r => .fault r
    | .refused r => .refused r

/-- A run that ends here is complete (70_reset_and_hazards.md R245). -/
def State.complete (s : State) : Prop := s.runState = .ended

/-- A run that ends here has failed (70_reset_and_hazards.md R245; 60_exceptions.md R206). -/
def State.failed (s : State) : Prop := s.runState = .faulted

/-- The command `i` carries one sample of amplitude `a`, of the arity that `s` is configured for, with finite channel
values (44_sample_ops.md R180; 41_sample_downmixer.md R121, R122). -/
def CarriesSample (i : Instr) (a : F64) (s : State) : Prop :=
  (i = .sampleMono a ∧ s.channels = 1) ∨
    ∃ a0 a1, i = .sampleStereo a0 a1 ∧ s.channels = 2 ∧ isFinite a0 = true ∧ isFinite a1 = true ∧
      a = fdiv (fadd a0 a1) two

/-- The command `i` is a sample command that `s` admits, with amplitude `a`: every check of 44_sample_ops.md R180
passes. -/
def AcceptsSample (i : Instr) (a : F64) (s : State) : Prop :=
  (s.runState = .idle ∨ s.runState = .running) ∧ s.sampleRate ≠ 0 ∧ CarriesSample i a s ∧ isFinite a = true ∧
    s.sampleCount.toNat < 2 ^ 53 ∧
    flt (fmul (fdiv (f64OfNat s.sampleCount.toNat) (f64OfNat s.sampleRate.toNat)) million) twoTo64 = true

/-- Halfway from the largest finite magnitude, (2^53 − 1) · 2^971, to 2^1024, in units of 2^-1074: an exact result of
this magnitude or more rounds to an infinity (00_scope.md R10). Irreducible, so that no proof unfolds the numeral by
accident. -/
@[irreducible] def overflowUnits : Nat := (2 ^ 54 - 1) * 2 ^ 970 * oneUnits

/-- A SET command (60_exceptions.md R209). -/
def IsSetCommand (i : Instr) : Prop :=
  (∃ rate, i = .setRate rate) ∨ (∃ ch, i = .setChannels ch) ∨ ∃ freq, i = .setCpufreq freq

/-- A sample command (44_sample_ops.md). -/
def IsSampleCommand (i : Instr) : Prop := (∃ a, i = .sampleMono a) ∨ ∃ a0 a1, i = .sampleStereo a0 a1

/-- What the spec says of every state a run reaches: the status fields agree, the configuration is legal, and the
carried registers, the counters and the streams fit together. -/
structure State.Inv (s : State) : Prop where
  /-- CAUSE is nonzero exactly when STATE = FAULTED (10_state.md R26). -/
  cause_iff_faulted : s.cause ≠ .noFault ↔ s.runState = .faulted
  /-- CHANNELS is unconfigured or legal (10_state.md R24). -/
  channels_legal : s.channels = 0 ∨ s.channels = 1 ∨ s.channels = 2
  /-- CPU_FREQ is finite and above +0.0 (10_state.md R25). -/
  cpuFreq_legal : isFinite s.cpuFreq = true ∧ fgt s.cpuFreq posZero = true
  /-- In IDLE no sample has been accepted (10_state.md R26). -/
  idle_unsampled : s.runState = .idle → s.sampleCount = 0
  /-- In RUNNING at least one sample has been accepted (10_state.md R26). -/
  running_sampled : s.runState = .running → s.sampleCount ≠ 0
  /-- A sample is accepted only when the block is configured (44_sample_ops.md R180). -/
  sampled_configured : s.sampleCount ≠ 0 → s.sampleRate ≠ 0 ∧ s.channels ≠ 0
  /-- SAMPLE_COUNT never exceeds 2^53 (10_state.md R30). -/
  sampleCount_le : s.sampleCount.toNat ≤ 2 ^ 53
  /-- PREV is `some` exactly when SAMPLE_COUNT > 0 (10_state.md R27). -/
  prev_isSome_iff : s.prev.isSome = true ↔ s.sampleCount ≠ 0
  /-- PREV holds a finite amplitude (41_sample_downmixer.md R124). -/
  prev_finite : ∀ p, s.prev = some p → isFinite p = true
  /-- LASTZO comes from a pair, so from two samples (10_state.md R28). -/
  lastzo_sampled : s.lastzo.isSome = true → 2 ≤ s.sampleCount.toNat
  /-- A defined offset is finite, and at most 2^53 (42_zero_crossing_detector.md R148 item 1). -/
  lastzo_finite : ∀ l, s.lastzo = some l → isFinite l = true ∧ unitsOf l ≤ 2 ^ 53 * oneUnits
  /-- Every Crossing Event is finite: a timestamp below 2^64 with an offset up to 1 and less one up to 2^53
  (42_zero_crossing_detector.md R145, R148). -/
  crossOut_finite : ∀ e ∈ s.crossOut, isFinite e = true ∧ unitsOf e ≤ (2 ^ 64 + 2 ^ 53) * oneUnits
  /-- LASTEV is the latest Crossing Event, none when there is none (10_state.md R29). -/
  lastev_eq : s.lastev = s.crossOut.getLast?
  /-- CROSS_COUNT = len(CROSS_OUT) (10_state.md R31). -/
  crossCount_eq : s.crossCount.toNat = s.crossOut.length
  /-- PULSE_COUNT = len(PULSE_OUT) (10_state.md R32). -/
  pulseCount_eq : s.pulseCount.toNat = s.pulseOut.length
  /-- The cardinality law (10_state.md R33). -/
  pulse_eq_cross : s.pulseCount = s.crossCount
  /-- No event without a held offset (42_zero_crossing_detector.md R146). -/
  unheld_uncrossed : s.lastzo = none → s.crossCount = 0
  /-- At most floor((N − 1) / 2) events from N samples (42_zero_crossing_detector.md R149). -/
  crossCount_bound : 2 * s.crossCount.toNat ≤ s.sampleCount.toNat - 1
  /-- Two adjacent pairs never both qualify (42_zero_crossing_detector.md R149): before a pair that may emit, one sample
  is to spare. -/
  crossCount_before : ∀ p, s.prev = some p → flt p posZero = true → s.lastzo.isSome = true →
    2 * s.crossCount.toNat + 2 ≤ s.sampleCount.toNat
  /-- END left a count that fills the payload length field (40_control_ops.md R105). -/
  ended_payload : s.runState = .ended → s.pulseCount.toNat ≤ 2 ^ 32 - 1
  /-- PULSE_OUT is the Pulse Byte sequence of CROSS_OUT at CPU_FREQ (43_pulse_quantizer.md R164). -/
  pulses_eq : s.pulseOut = pulseBytes s.cpuFreq s.crossOut

end Sys2Proof.Machine
end

