-- ==== Sys2Proof/Certificates/Slice0/Obligations.lean ====
section
/-! DEFINITION. The statements about the block for the provers, each after a numbered rule of the spec. -/

open Sys2Proof Sys2Proof.Machine

/-! ### Encoding -/

/-- Decode and encode agree, on every command with every operand, whatever bytes follow it (30_encoding.md R71 to R74,
R77). -/
def Obligations.DecodeOfEncodeIsTheCommand : Prop :=
  ∀ (i : Instr) (rest : List Byte), i.wellFormed = true →
    decodeNext (encode i ++ rest) = some (.command i rest)

/-- Whatever decodes to a command was that command's encoding: no other byte string stands for it (30_encoding.md R72,
R73, R77). -/
def Obligations.DecodedBytesAreTheEncoding : Prop :=
  ∀ (bytes rest : List Byte) (i : Instr), decodeNext bytes = some (.command i rest) → bytes = encode i ++ rest

/-- A list of encoded commands, with nothing between them, decodes to those commands in order and nothing else
(30_encoding.md R70, R77). -/
def Obligations.EncodedStreamDecodesInOrder : Prop :=
  ∀ is : List Instr, (decodeAll (encodeAll is)).map Decoded.instr = is.map some

/-- The decoder is total: a byte string that is not empty decodes to verdicts that use it up, and only the last of them
can be Invalid(TRUNCATED_COMMAND) (30_encoding.md R70, R76). -/
def Obligations.DecoderIsTotalOnByteStrings : Prop :=
  ∀ bytes : List Byte, bytes ≠ [] →
    (decodeAll bytes).getLast?.map Decoded.rest = some [] ∧
      ∀ d ∈ (decodeAll bytes).dropLast, ∀ rest, d ≠ .invalid .truncatedCommand rest

/-- The illegal opcode values are the 248 that 30_encoding.md R75 lists; such a byte gives Invalid(ILLEGAL_OPCODE) and
uses up itself alone. -/
def Obligations.IllegalOpcodeUsesOneByte : Prop :=
  (∀ (b : Byte) (rest : List Byte),
    (decodeNext (b :: rest) = some (.invalid .illegalOpcode rest) ↔
      b = 0x00 ∨ (0x05 ≤ b ∧ b ≤ 0x0F) ∨ (0x12 ≤ b ∧ b ≤ 0x1F) ∨ (0x21 ≤ b ∧ b ≤ 0x2F) ∨ 0x31 ≤ b)) ∧
    ((List.range 256).filter (fun n => (opcodeOf (BitVec.ofNat 8 n)).isNone)).length = 248

/-- A string that ends inside a command's operands gives Invalid(TRUNCATED_COMMAND), which leaves nothing
(30_encoding.md R76). -/
def Obligations.CutOffCommandIsTruncated : Prop :=
  ∀ (i : Instr) (k : Nat), 0 < k → k < (encode i).length →
    decodeNext ((encode i).take k) = some (.invalid .truncatedCommand [])

/-- Words written out from the encoding tables decode to their commands (30_encoding.md R80, and the vectors of
95_test_vectors.md section 2.1). -/
def Obligations.SpecWordsDecode : Prop :=
  decodeNext [0x10, 0x00, 0x00, 0x00, 0x00, 0x00, 0x00, 0xF0, 0xBF] = some (.command (.sampleMono 0xBFF0000000000000) []) ∧
  decodeNext [0x02, 0x44, 0xAC, 0x00, 0x00] = some (.command (.setRate 44100) []) ∧
  decodeNext [0x30, 0x03] = some (.command (.readReg 3) []) ∧
  decodeNext [0x04, 0x00, 0x00, 0x00, 0x00, 0x80, 0x84, 0x5E, 0x41] = some (.command (.setCpufreq 0x415E848000000000) []) ∧
  decodeNext [0x11, 0x00, 0x00, 0x00, 0x00, 0x00, 0x00, 0x10, 0xC0, 0x00, 0x00, 0x00, 0x00, 0x00, 0x00, 0x00, 0x40] =
    some (.command (.sampleStereo 0xC010000000000000 0x4000000000000000) [])

/-- What each line of the assembler, as data, stands for, commands and pseudo-instructions, said by the commands its bytes
decode to, and which operands are assembly errors; a list of lines assembles line by line, and a line that is an error is
not encoded (30_encoding.md R78, R79). That `samples` takes at least one value, and that the other lines of a list with an
error are not encoded either, are the model's choice: log entry 9.
AssembledTextDecodes says the same of lines of text. -/
def Obligations.AssembledLinesDecode : Prop :=
  let means (line : AsmCommand) (is : List Instr) : Prop :=
    ∃ bytes, assemble [line] = some bytes ∧ (decodeAll bytes).map Decoded.instr = is.map some
  (∀ lines : List AsmCommand,
    ((∀ c ∈ lines, c.wellFormed = true) →
      ∃ bytes, assemble lines = some bytes ∧ (decodeAll bytes).map Decoded.instr = (lines.flatMap expand).map some) ∧
    ((∃ c ∈ lines, c.wellFormed = false) → assemble lines = none)) ∧
  (∀ a b x y, assemble a = some x → assemble b = some y → assemble (a ++ b) = some (x ++ y)) ∧
  (∀ a b c, assemble [c] = none → assemble (a ++ c :: b) = none) ∧
  means .reset [.reset] ∧ means .endStream [.endStream] ∧ means .status [.readReg 3] ∧
  (∀ rate : Word32, means (.setRate rate.toNat) [.setRate rate]) ∧
  (∀ ch : Byte, means (.setChannels ch.toNat) [.setChannels ch]) ∧
  (∀ idx : Byte, means (.readReg (.index idx.toNat)) [.readReg idx]) ∧
  means (.readReg (.name .sampleRate)) [.readReg 0] ∧ means (.readReg (.name .cpuFreq)) [.readReg 1] ∧
  means (.readReg (.name .channels)) [.readReg 2] ∧ means (.readReg (.name .status)) [.readReg 3] ∧
  means (.readReg (.name .sampleCount)) [.readReg 4] ∧ means (.readReg (.name .crossCount)) [.readReg 5] ∧
  means (.readReg (.name .pulseCount)) [.readReg 6] ∧
  (∀ f : AsmFloat, means (.setCpufreq f) [.setCpufreq (asmValue f)] ∧ means (.sample f) [.sampleMono (asmValue f)]) ∧
  (∀ f g : AsmFloat, means (.sample2 f g) [.sampleStereo (asmValue f) (asmValue g)]) ∧
  (∀ (ch : Byte) (rate : Word32), means (.config ch.toNat rate.toNat) [.setChannels ch, .setRate rate]) ∧
  (∀ (ch : Byte) (rate : Word32) (f : AsmFloat),
    means (.configFreq ch.toNat rate.toNat f) [.setChannels ch, .setRate rate, .setCpufreq (asmValue f)]) ∧
  (∀ (f : AsmFloat) (fs : List AsmFloat), means (.samples (f :: fs)) ((f :: fs).map (fun v => .sampleMono (asmValue v)))) ∧
  (∀ (rate : Word32) (fs : List AsmFloat),
    means (.streamMono rate.toNat fs)
      ([.reset, .setChannels 1, .setRate rate] ++ fs.map (fun v => .sampleMono (asmValue v)) ++ [.endStream])) ∧
  (∀ n : Nat, 255 < n → assemble [.setChannels n] = none ∧ assemble [.readReg (.index n)] = none ∧
    ∀ rate f, assemble [.config n rate] = none ∧ assemble [.configFreq n rate f] = none) ∧
  (∀ n : Nat, 4294967295 < n → assemble [.setRate n] = none ∧
    ∀ ch f fs, assemble [.config ch n] = none ∧ assemble [.configFreq ch n f] = none ∧
      assemble [.streamMono n fs] = none)

/-- The line, as data, that the disassembler gives for a command is no assembly error and stands for exactly that command,
every binary64 pattern among its operands (30_encoding.md R78). PrintedTextReadsBack says the same of the text. -/
def Obligations.DisassemblyReadsBack : Prop :=
  ∀ i : Instr, (disassemble i).wellFormed = true ∧ expand (disassemble i) = [i]

/-! ### Steps -/

/-- One step takes the next command off CMD_IN, moves the position on by one, and performs the command
(00_scope.md R14; 10_state.md R21). The fields CMD_IN and POSITION are the model's own: log entry 1. -/
def Obligations.StepRunsTheDecodedCommand : Prop :=
  ∀ (s : State) (i : Instr) (rest : List Byte), decodeNext s.cmdIn = some (.command i rest) → i.wellFormed = true →
    step s = exec i { s with cmdIn := rest, position := s.position + 1 }

/-- Performing an `Invalid` verdict faults with its cause in any state but FAULTED, and is ignored there
(40_control_ops.md R107). -/
def Obligations.StepPerformsInvalidVerdicts : Prop :=
  ∀ (s : State) (v : Verdict) (rest : List Byte), decodeNext s.cmdIn = some (.invalid v rest) →
    (s.runState ≠ .faulted →
      step s = .next { s with
        cmdIn := rest
        position := s.position + 1
        runState := .faulted
        cause := match v with
          | .illegalOpcode => .illegalOpcode
          | .truncatedCommand => .truncatedCommand }) ∧
    (s.runState = .faulted → step s = .next { s with cmdIn := rest, position := s.position + 1 })

/-- Every step completes: none waits, stalls or stops, and the position moves on by exactly one for each command or
verdict, whether it is performed, faults or is ignored (70_reset_and_hazards.md R244; 10_state.md R21). That a step with
nothing presented holds the state is the model's reading of 60_exceptions.md R212: log entry 2. -/
def Obligations.EveryStepCompletes : Prop :=
  ∀ s : State, ∃ t, step s = .next t ∧
    (s.cmdIn = [] → t = s) ∧
    (s.cmdIn ≠ [] → t.position = s.position + 1 ∧ t.cmdIn.length < s.cmdIn.length)

/-- A run performs the commands the host presents in their order, dropping and repeating none (20_memory.md R51): as many
steps as commands do what performing them one after the other does. -/
def Obligations.RunPerformsCommandsInOrder : Prop :=
  ∀ (is : List Instr) (rest : List Byte) (s : State), ∃ t,
    execAll is { s with cmdIn := rest } = .next t ∧
    Host.Core.run Sys2Proof.core is.length { s with cmdIn := encodeAll is ++ rest } =
      .next { t with position := s.position + is.length }

/-! ### Control commands -/

/-- The values reset gives (10_state.md R35; 70_reset_and_hazards.md R230). That nothing is presented then, and the
position is 0, is the model's own: log entry 1. -/
def Obligations.ResetStateIsTheTable : Prop :=
  State.reset.sampleRate = 0 ∧ State.reset.cpuFreq = 0x412E114000000000 ∧ State.reset.channels = 0 ∧
  State.reset.runState = .idle ∧ State.reset.cause = .noFault ∧ State.reset.prev = none ∧ State.reset.lastzo = none ∧
  State.reset.lastev = none ∧ State.reset.sampleCount = 0 ∧ State.reset.crossCount = 0 ∧ State.reset.pulseCount = 0 ∧
  State.reset.crossOut = [] ∧ State.reset.pulseOut = [] ∧ State.reset.respOut = []

/-- RESET, in every state, FAULTED included, completes with every register and stream at its reset value
(40_control_ops.md R101; 70_reset_and_hazards.md R230). -/
def Obligations.ResetWritesEveryRegister : Prop :=
  ∀ s : State, encode .reset = [0x01] ∧ ∃ t, exec .reset s = .next t ∧
    t.sampleRate = 0 ∧ t.cpuFreq = 0x412E114000000000 ∧ t.channels = 0 ∧ t.runState = .idle ∧ t.cause = .noFault ∧
    t.prev = none ∧ t.lastzo = none ∧ t.lastev = none ∧ t.sampleCount = 0 ∧ t.crossCount = 0 ∧ t.pulseCount = 0 ∧
    t.crossOut = [] ∧ t.pulseOut = [] ∧ t.respOut = []

/-- RESET leaves what the host has presented and the position alone (10_state.md R20, R21). The fields CMD_IN and POSITION
are the model's own: log entry 1. -/
def Obligations.ResetLeavesWhatTheHostPresents : Prop :=
  ∀ s : State, exec .reset s = .next { State.reset with cmdIn := s.cmdIn, position := s.position }

/-- SET_RATE (40_control_ops.md R102): what it writes, when it faults and with which cause, and that nothing else
changes. In FAULTED it is ignored (R100). -/
def Obligations.SetRateWritesTheRateInIdle : Prop :=
  ∀ (rate : Word32) (s : State), encode (.setRate rate) = 0x02 :: leBytes 4 rate.toNat ∧
    (s.runState = .idle → rate ≠ 0 → exec (.setRate rate) s = .next { s with sampleRate := rate }) ∧
    (s.runState = .idle → rate = 0 →
      exec (.setRate rate) s = .next { s with runState := .faulted, cause := .badRate }) ∧
    (s.runState = .running ∨ s.runState = .ended →
      exec (.setRate rate) s = .next { s with runState := .faulted, cause := .configLocked }) ∧
    (s.runState = .faulted → exec (.setRate rate) s = .next s)

/-- SET_CHANNELS (40_control_ops.md R103): legal values 1 and 2 only. In FAULTED it is ignored (R100). -/
def Obligations.SetChannelsWritesOneOrTwoInIdle : Prop :=
  ∀ (ch : Byte) (s : State), encode (.setChannels ch) = [0x03, ch] ∧
    (s.runState = .idle → ch = 1 ∨ ch = 2 → exec (.setChannels ch) s = .next { s with channels := ch }) ∧
    (s.runState = .idle → ch ≠ 1 → ch ≠ 2 →
      exec (.setChannels ch) s = .next { s with runState := .faulted, cause := .badChannels }) ∧
    (s.runState = .running ∨ s.runState = .ended →
      exec (.setChannels ch) s = .next { s with runState := .faulted, cause := .configLocked }) ∧
    (s.runState = .faulted → exec (.setChannels ch) s = .next s)

/-- SET_CPUFREQ (40_control_ops.md R104). The legal values are said by their patterns: from the smallest positive
subnormal to the largest finite value; every other pattern (NaN, an infinity, either zero, a negative value) faults
BAD_CPUFREQ. In FAULTED it is ignored (R100). -/
def Obligations.SetCpufreqWritesPositiveFiniteInIdle : Prop :=
  ∀ (freq : F64) (s : State), encode (.setCpufreq freq) = 0x04 :: leBytes 8 freq.toNat ∧
    (s.runState = .idle → 0 < freq.toNat → freq.toNat < 0x7FF0000000000000 →
      exec (.setCpufreq freq) s = .next { s with cpuFreq := freq }) ∧
    (s.runState = .idle → freq.toNat = 0 ∨ 0x7FF0000000000000 ≤ freq.toNat →
      exec (.setCpufreq freq) s = .next { s with runState := .faulted, cause := .badCpufreq }) ∧
    (s.runState = .running ∨ s.runState = .ended →
      exec (.setCpufreq freq) s = .next { s with runState := .faulted, cause := .configLocked }) ∧
    (s.runState = .faulted → exec (.setCpufreq freq) s = .next s)

/-- END (40_control_ops.md R105): legal in IDLE and RUNNING, configured or not, and it changes STATE alone. In FAULTED it
is ignored (R100). -/
def Obligations.EndClosesTheStream : Prop :=
  ∀ s : State, encode .endStream = [0x20] ∧
    (s.runState = .idle ∨ s.runState = .running → s.pulseCount.toNat ≤ 2 ^ 32 - 1 →
      exec .endStream s = .next { s with runState := .ended }) ∧
    (s.runState = .idle ∨ s.runState = .running → 2 ^ 32 - 1 < s.pulseCount.toNat →
      exec .endStream s = .next { s with runState := .faulted, cause := .lengthOverflow }) ∧
    (s.runState = .ended → exec .endStream s = .next { s with runState := .faulted, cause := .afterEnd }) ∧
    (s.runState = .faulted → exec .endStream s = .next s)

/-- READ_REG (40_control_ops.md R106; 10_state.md R34): the word each index gives, in every state, as one RESP_OUT
element and nothing else; an index above 6 faults BAD_REGISTER, and is ignored in FAULTED. -/
def Obligations.ReadRegEmitsTheRegister : Prop :=
  ∀ (idx : Byte) (s : State), encode (.readReg idx) = [0x30, idx] ∧
    (idx = 0 → exec (.readReg idx) s = .next { s with respOut := s.respOut ++ [s.sampleRate.setWidth 64] }) ∧
    (idx = 1 → exec (.readReg idx) s = .next { s with respOut := s.respOut ++ [s.cpuFreq] }) ∧
    (idx = 2 → exec (.readReg idx) s = .next { s with respOut := s.respOut ++ [s.channels.setWidth 64] }) ∧
    (idx = 3 → exec (.readReg idx) s = .next { s with
      respOut := s.respOut ++ [BitVec.ofNat 64 (s.cause.code.toNat * 2 ^ 8 + s.runState.code.toNat)] }) ∧
    (idx = 4 → exec (.readReg idx) s = .next { s with respOut := s.respOut ++ [s.sampleCount] }) ∧
    (idx = 5 → exec (.readReg idx) s = .next { s with respOut := s.respOut ++ [s.crossCount] }) ∧
    (idx = 6 → exec (.readReg idx) s = .next { s with respOut := s.respOut ++ [s.pulseCount] }) ∧
    (6 < idx → s.runState ≠ .faulted →
      exec (.readReg idx) s = .next { s with runState := .faulted, cause := .badRegister }) ∧
    (6 < idx → s.runState = .faulted → exec (.readReg idx) s = .next s)

/-- The fields of the STATUS word that READ_REG 3 emits (10_state.md R26): STATE in [1:0], CAUSE in [15:8], zeros in the
reserved bits. -/
def Obligations.StatusWordHasItsFields : Prop :=
  ∀ s : State, ∃ w : Word64, exec (.readReg 3) s = .next { s with respOut := s.respOut ++ [w] } ∧
    w.extractLsb' 0 2 = s.runState.code ∧ w.extractLsb' 2 6 = 0 ∧ w.extractLsb' 8 8 = s.cause.code ∧
    w.extractLsb' 16 48 = 0

/-- The numbers of the states (10_state.md R26) and of the causes (60_exceptions.md R201). -/
def Obligations.StatusCodesAreTheTables : Prop :=
  [RunState.idle, .running, .ended, .faulted].map (fun r => r.code.toNat) = [0, 1, 2, 3] ∧
  [Cause.noFault, .illegalOpcode, .truncatedCommand, .badRegister, .badRate, .badCpufreq, .badChannels, .configLocked,
    .notConfigured, .arityMismatch, .nonfiniteSample, .indexOverflow, .timestampOverflow, .afterEnd,
    .lengthOverflow].map (fun c => c.code.toNat) = List.range 15

/-- RESET and the SET commands give the same state when repeated (20_memory.md R56). -/
def Obligations.ConfiguringTwiceIsConfiguringOnce : Prop :=
  ∀ (i : Instr) (s t : State), i = .reset ∨ IsSetCommand i → exec i s = .next t → exec i t = .next t

/-! ### Faults and states -/

/-- In FAULTED, RESET is performed, READ_REG of an index 0 to 6 emits one word and changes no register, and everything
else is ignored (60_exceptions.md R205; 40_control_ops.md R100). That RESET leaves CMD_IN and POSITION is the model's
reading: log entry 1. -/
def Obligations.FaultedIgnoresAllButResetAndReads : Prop :=
  ∀ (i : Instr) (s : State), s.runState = .faulted →
    (i = .reset → exec i s = .next { State.reset with cmdIn := s.cmdIn, position := s.position }) ∧
    (∀ idx : Byte, i = .readReg idx → idx ≤ 6 →
      ∃ v, exec i s = .next { s with respOut := s.respOut ++ [v] }) ∧
    (i ≠ .reset → (∀ idx : Byte, i = .readReg idx → 6 < idx) → exec i s = .next s)

/-- Faults are precise (60_exceptions.md R203, R204): a command that faults writes STATE and a cause, and nothing else at
all. -/
def Obligations.FaultsWriteStatusAlone : Prop :=
  ∀ (i : Instr) (s t : State), s.runState ≠ .faulted → exec i s = .next t → t.runState = .faulted →
    ∃ c : Cause, c ≠ .noFault ∧ t = { s with runState := .faulted, cause := c }

/-- CAUSE keeps the first fault's code, and STATE stays FAULTED, over every step until a RESET is performed
(60_exceptions.md R205). -/
def Obligations.FirstCauseSticksUntilReset : Prop :=
  ∀ s t : State, s.runState = .faulted → step s = .next t →
    (∀ rest, decodeNext s.cmdIn ≠ some (.command .reset rest)) →
      t.runState = .faulted ∧ t.cause = s.cause ∧ t.crossOut = s.crossOut ∧ t.pulseOut = s.pulseOut

/-- The transitions of STATUS.STATE: no other exists (60_exceptions.md R209). -/
def Obligations.StateMovesOnlyAsTabled : Prop :=
  ∀ (i : Instr) (s t : State), exec i s = .next t →
    (i = .reset → t.runState = .idle) ∧
    (i ≠ .reset → s.runState = .faulted → t.runState = .faulted) ∧
    (∀ idx : Byte, i = .readReg idx → idx ≤ 6 → t.runState = s.runState) ∧
    (∀ idx : Byte, i = .readReg idx → 6 < idx → t.runState = .faulted) ∧
    (IsSetCommand i → s.runState ≠ .faulted →
      t.runState = .faulted ∨ (s.runState = .idle ∧ t.runState = .idle)) ∧
    (IsSampleCommand i → s.runState ≠ .faulted →
      t.runState = .faulted ∨ ((s.runState = .idle ∨ s.runState = .running) ∧ t.runState = .running)) ∧
    (i = .endStream → s.runState ≠ .faulted →
      t.runState = .faulted ∨ ((s.runState = .idle ∨ s.runState = .running) ∧ t.runState = .ended))

/-- A sample command that is not admitted reports the first check that fails, in the order of 44_sample_ops.md R180 and
60_exceptions.md R207, and does nothing else; both arities. -/
def Obligations.SampleReportsItsFirstFailingCheck : Prop :=
  ∀ (row : SampleRow) (s : State), s.runState ≠ .faulted →
    let faults (c : Cause) : Prop :=
      exec (sampleCommand row) s = .next { s with runState := .faulted, cause := c }
    let x := fmul (fdiv (f64OfNat s.sampleCount.toNat) (f64OfNat s.sampleRate.toNat)) million
    if s.runState = .ended then faults .afterEnd
    else if s.sampleRate = 0 ∨ s.channels = 0 then faults .notConfigured
    else if s.channels ≠ arityOf row then faults .arityMismatch
    else if rowIsFinite row = false then faults .nonfiniteSample
    else if isFinite (downmix row) = false then faults .nonfiniteSample
    else if 2 ^ 53 ≤ s.sampleCount.toNat then faults .indexOverflow
    else if flt x twoTo64 = false then faults .timestampOverflow
    else AcceptsSample (sampleCommand row) (downmix row) s

/-- The configuration is locked from the first sample on: outside IDLE only RESET changes it (10_state.md R23 to R25;
70_reset_and_hazards.md R233). -/
def Obligations.ConfigurationChangesOnlyInIdle : Prop :=
  ∀ (i : Instr) (s t : State), exec i s = .next t → i ≠ .reset → s.runState ≠ .idle →
    t.sampleRate = s.sampleRate ∧ t.cpuFreq = s.cpuFreq ∧ t.channels = s.channels

/-- What is emitted is never rewritten or removed but by RESET: every stream only grows at its end (20_memory.md R52,
R53). -/
def Obligations.StreamsOnlyGrowUntilReset : Prop :=
  ∀ (i : Instr) (s t : State), exec i s = .next t → i ≠ .reset →
    (∃ a, t.crossOut = s.crossOut ++ a) ∧ (∃ b, t.pulseOut = s.pulseOut ++ b) ∧ (∃ c, t.respOut = s.respOut ++ c)

/-- Each command but RESET emits either no event or exactly one CROSS_OUT element with exactly one PULSE_OUT element, and
only a sample command emits one (44_sample_ops.md R184). -/
def Obligations.EventAndPulseComeTogether : Prop :=
  ∀ (i : Instr) (s t : State), exec i s = .next t → i ≠ .reset →
    (t.crossOut = s.crossOut ∧ t.pulseOut = s.pulseOut ∧ t.crossCount = s.crossCount ∧ t.pulseCount = s.pulseCount ∧
      t.lastev = s.lastev) ∨
    (IsSampleCommand i ∧ ∃ (e : F64) (b : Byte), t.crossOut = s.crossOut ++ [e] ∧ t.pulseOut = s.pulseOut ++ [b] ∧
      t.crossCount = s.crossCount + 1 ∧ t.pulseCount = s.pulseCount + 1 ∧ t.lastev = some e)

/-! ### Sample commands -/

/-- The first sample of a stream, of either arity, loads PREV and emits nothing (44_sample_ops.md R181, R182, R183;
42_zero_crossing_detector.md R147). -/
def Obligations.FirstSampleLoadsPrev : Prop :=
  ∀ (i : Instr) (a : F64) (s : State), AcceptsSample i a s → s.prev = none →
    exec i s = .next { s with runState := .running, sampleCount := s.sampleCount + 1, prev := some a }

/-- A later sample whose pair emits nothing, of either arity: PREV is loaded, and LASTZO takes the pair's offset, or is
held where the amplitudes are equal (42_zero_crossing_detector.md R142, R143, R146, R147; 44_sample_ops.md R181). -/
def Obligations.SampleWithoutEventUpdatesTheScan : Prop :=
  ∀ (i : Instr) (a p : F64) (s : State), AcceptsSample i a s → s.prev = some p →
    (flt p posZero = false ∨ fge a posZero = false ∨ s.lastzo = none) →
    exec i s = .next { s with
      runState := .running
      sampleCount := s.sampleCount + 1
      prev := some a
      lastzo := if feq p a = true then s.lastzo else some (fdiv p (fsub p a)) }

/-- A sample whose pair qualifies and has a held offset, of either arity, emits the Crossing Event of
42_zero_crossing_detector.md R145 and its Pulse Byte (43_pulse_quantizer.md R161 to R163): the event reads LASTZO and the
byte reads LASTEV as they were before (70_reset_and_hazards.md R240, R241), and nothing but the fields named changes. -/
def Obligations.CrossingSampleEmitsEventAndPulse : Prop :=
  ∀ (i : Instr) (a p l : F64) (s : State), AcceptsSample i a s → s.prev = some p → s.lastzo = some l →
    flt p posZero = true → fge a posZero = true →
    let t : Nat := floorF64 (fmul (fdiv (f64OfNat s.sampleCount.toNat) (f64OfNat s.sampleRate.toNat)) million) % 2 ^ 64
    let zo := fdiv p (fsub p a)
    let e := fsub (fadd (f64OfNat t) zo) l
    let scaled (d : F64) := fmul d (fdiv (fmul millionth s.cpuFreq) eight)
    let byte (d : F64) : Byte :=
      if fgt (scaled d) maxScaled = true then 0
      else if flt (scaled d) posZero = true then 0
      else BitVec.ofNat 8 (floorF64 (scaled d))
    exec i s = .next { s with
      runState := .running
      sampleCount := s.sampleCount + 1
      prev := some a
      lastzo := some zo
      lastev := some e
      crossOut := s.crossOut ++ [e]
      crossCount := s.crossCount + 1
      pulseOut := s.pulseOut ++ [match s.lastev with
        | none => 0
        | some e' => byte (fsub e e')]
      pulseCount := s.pulseCount + 1 }

/-- The Pulse Byte of a duration (43_pulse_quantizer.md R162): for a finite duration and a legal frequency the scaled
duration is no NaN, and the byte is 0 above 255, 0 below 0, and otherwise the whole part of the scaled duration itself,
which a byte holds. -/
def Obligations.PulseByteIsTheTruncatedDuration : Prop :=
  ∀ freq d : F64, isFinite freq = true → fgt freq posZero = true → isFinite d = true →
    isNaN (fmul d (scaleFactor freq)) = false ∧
    (fgt (fmul d (scaleFactor freq)) maxScaled = true → quantize freq d = 0) ∧
    (flt (fmul d (scaleFactor freq)) posZero = true → quantize freq d = 0) ∧
    (fgt (fmul d (scaleFactor freq)) maxScaled = false → flt (fmul d (scaleFactor freq)) posZero = false →
      (quantize freq d).toNat = floorF64 (fmul d (scaleFactor freq)) ∧
        unitsOf (fmul d (scaleFactor freq)) / oneUnits = (quantize freq d).toNat)

/-! ### The invariant -/

/-- The reset state meets the invariant (10_state.md R35), whatever the host then presents. -/
def Obligations.ResetMeetsTheInvariant : Prop :=
  ∀ bytes : List Byte, ({ State.reset with cmdIn := bytes } : State).Inv

/-- Every step keeps the invariant: status fields that agree, legal configuration, PREV as SAMPLE_COUNT says, PREV, LASTZO
and every event finite, LASTEV the last event, counters equal to the streams' lengths, as many pulses as events, at most
floor((N − 1) / 2) events, and PULSE_OUT the Pulse Byte sequence of CROSS_OUT (10_state.md R24 to R33;
42_zero_crossing_detector.md R148, R149; 43_pulse_quantizer.md R164). -/
def Obligations.EveryStepKeepsTheInvariant : Prop :=
  ∀ s t : State, s.Inv → step s = .next t → t.Inv

/-- What the block computes with is finite: LASTZO, LASTEV and every event, and the duration of every event a command
emits, whose scaled value is then no NaN (42_zero_crossing_detector.md R148; 43_pulse_quantizer.md R162, R163). -/
def Obligations.OffsetsEventsAndDurationsAreFinite : Prop :=
  ∀ s : State, s.Inv →
    (∀ l, s.lastzo = some l → isFinite l = true) ∧ (∀ e, s.lastev = some e → isFinite e = true) ∧
    (∀ e ∈ s.crossOut, isFinite e = true) ∧ isFinite (scaleFactor s.cpuFreq) = true ∧
    ∀ (i : Instr) (t : State) (e : F64), exec i s = .next t → t.crossOut = s.crossOut ++ [e] →
      isFinite e = true ∧
      ∀ l, s.lastev = some l → isFinite (fsub e l) = true ∧ isNaN (fmul (fsub e l) (scaleFactor s.cpuFreq)) = false

/-! ### The reference semantics -/

/-- After the sample of index `k`, the carried registers and the streams hold the values of the batch definition, at the
default frequency or a legal one (44_sample_ops.md R186, its invariant; 42_zero_crossing_detector.md R141 to R146;
43_pulse_quantizer.md R164). -/
def Obligations.StreamPrefixHoldsTheReferenceValues : Prop :=
  ∀ (rows : List SampleRow) (ch : Byte) (sr : Word32) (freq : Option F64) (s : State) (k : Nat),
    pipelineDefined rows ch sr = true → (∀ f, freq = some f → isFinite f = true ∧ fgt f posZero = true) →
    k < rows.length →
    ∃ t, execAll ([.reset, .setChannels ch, .setRate sr] ++ (freq.map Instr.setCpufreq).toList ++
        (rows.take (k + 1)).map sampleCommand) s = .next t ∧
      t.runState = .running ∧ t.sampleCount.toNat = k + 1 ∧
      t.prev = ((monoTrace rows sr)[k]?).map Prod.snd ∧
      t.lastzo = pairHeld (monoTrace rows sr) (k + 1) ∧
      t.crossOut = (List.range (k + 1)).filterMap (pairEvent (monoTrace rows sr)) ∧
      t.pulseOut = pulseBytes (freq.getD 0x412E114000000000) t.crossOut ∧ t.lastev = t.crossOut.getLast?

/-- The streaming machine computes the source's batch pipeline exactly, from every state, for every sample matrix for
which the pipeline is defined, at the default frequency or a legal one (44_sample_ops.md R185, R186). -/
def Obligations.StreamComputesTheReferencePipeline : Prop :=
  ∀ (rows : List SampleRow) (ch : Byte) (sr : Word32) (freq : Option F64) (s : State),
    pipelineDefined rows ch sr = true → (∀ f, freq = some f → isFinite f = true ∧ fgt f posZero = true) →
    (pipeline rows sr (freq.getD 0x412E114000000000)).2.length ≤ 2 ^ 32 - 1 →
    ∃ t, execAll (streamCommands rows ch sr freq) s = .next t ∧ t.runState = .ended ∧
      t.crossOut = (pipeline rows sr (freq.getD 0x412E114000000000)).1 ∧
      t.pulseOut = (pipeline rows sr (freq.getD 0x412E114000000000)).2 ∧
      t.sampleCount.toNat = rows.length ∧
      t.crossCount.toNat = (pipeline rows sr (freq.getD 0x412E114000000000)).1.length ∧
      t.pulseCount.toNat = (pipeline rows sr (freq.getD 0x412E114000000000)).1.length ∧ t.respOut = []

/-! ### Arithmetic -/

/-- The comparisons are those of the exact values, with both zeros equal (00_scope.md R10), and among the values that are
no NaN +inf stands above every other one and −inf below. -/
def Obligations.ComparisonsOrderTheExactValues : Prop :=
  (∀ a b : F64, isFinite a = true → isFinite b = true →
    (feq a b = true ↔ exactOf a = exactOf b) ∧ (flt a b = true ↔ exactOf a < exactOf b) ∧
    (fgt a b = true ↔ exactOf b < exactOf a) ∧ (fge a b = true ↔ exactOf b ≤ exactOf a)) ∧
  ∀ x : F64, isNaN x = false →
    let posInf : F64 := 0x7FF0000000000000
    let negInf : F64 := 0xFFF0000000000000
    (feq x posInf = true ↔ x = posInf) ∧ (feq posInf x = true ↔ x = posInf) ∧
    (flt x posInf = true ↔ x ≠ posInf) ∧ (fgt posInf x = true ↔ x ≠ posInf) ∧
    (fge x posInf = true ↔ x = posInf) ∧ fge posInf x = true ∧ fgt x posInf = false ∧ flt posInf x = false ∧
    (feq x negInf = true ↔ x = negInf) ∧ (feq negInf x = true ↔ x = negInf) ∧
    (flt negInf x = true ↔ x ≠ negInf) ∧ (fgt x negInf = true ↔ x ≠ negInf) ∧
    (fge negInf x = true ↔ x = negInf) ∧ fge x negInf = true ∧ fgt negInf x = false ∧ flt x negInf = false

/-- A NaN operand makes every operation a NaN and every comparison false (00_scope.md R10; the NaN itself is free: log
entry 3). -/
def Obligations.NanOperandsGiveNanAndCompareFalse : Prop :=
  ∀ a b : F64, isNaN a = true ∨ isNaN b = true →
    isNaN (fadd a b) = true ∧ isNaN (fsub a b) = true ∧ isNaN (fmul a b) = true ∧ isNaN (fdiv a b) = true ∧
    feq a b = false ∧ flt a b = false ∧ fgt a b = false ∧ fge a b = false

/-- Every operation on finite operands rounds the exact result once, to nearest (00_scope.md R10). Below halfway past the
largest finite value the result is finite, no finite binary64 is nearer to the exact result, and of two that are equally
near the one with an even fraction is taken; from there on the result is the infinity of the exact result's sign. Exact
values are in units of 2^-1074, and the exact result is `exact / scale` of them. -/
def Obligations.OperationsRoundToNearestTiesToEven : Prop :=
  ∀ a b c : F64, isFinite a = true → isFinite b = true → isFinite c = true →
    let nearest (r : F64) (exact scale : Int) : Prop :=
      (|exact| < overflowUnits * |scale| →
        isFinite r = true ∧ |exactOf r * scale - exact| ≤ |exactOf c * scale - exact| ∧
        (|exactOf r * scale - exact| = |exactOf c * scale - exact| → exactOf c ≠ exactOf r → magOf r % 2 = 0)) ∧
      (overflowUnits * |scale| ≤ |exact| →
        r = if 0 < exact * scale then 0x7FF0000000000000 else 0xFFF0000000000000)
    nearest (fadd a b) (exactOf a + exactOf b) 1 ∧ nearest (fsub a b) (exactOf a - exactOf b) 1 ∧
    nearest (fmul a b) (exactOf a * exactOf b) oneUnits ∧
    (exactOf b ≠ 0 → nearest (fdiv a b) (exactOf a * oneUnits) (exactOf b))

/-- The timestamp starts at 0 and never falls (41_sample_downmixer.md R125). -/
def Obligations.TimestampsNeverFall : Prop :=
  ∀ sr : Word32, sr ≠ 0 → timestamp 0 sr = 0 ∧
    ∀ i j : Nat, i ≤ j → j < 2 ^ 53 → timestampOverflows j sr = false →
      (timestamp i sr).toNat ≤ (timestamp j sr).toNat

/-- A timestamp converts to binary64 with no rounding (41_sample_downmixer.md R127). -/
def Obligations.TimestampsConvertExactly : Prop :=
  ∀ (i : Nat) (sr : Word32), sr ≠ 0 → i < 2 ^ 53 → timestampOverflows i sr = false →
    exactOf (f64OfNat (timestamp i sr).toNat) = (timestamp i sr).toNat * oneUnits

/-- A qualifying pair of finite amplitudes has an offset, and it is from +0.0 to 1.0 (42_zero_crossing_detector.md
R148). -/
def Obligations.QualifyingOffsetIsFromZeroToOne : Prop :=
  ∀ p a : F64, isFinite p = true → isFinite a = true → qualifies p a = true →
    ∃ zo, crossingOffset p a = some zo ∧ isFinite zo = true ∧ signOf zo = false ∧ exactOf zo ≤ oneUnits

/-- An offset of finite amplitudes, of a qualifying pair or not, is finite and of magnitude at most 2^53
(42_zero_crossing_detector.md R148). -/
def Obligations.DefinedOffsetIsFinite : Prop :=
  ∀ p a zo : F64, isFinite p = true → isFinite a = true → crossingOffset p a = some zo →
    isFinite zo = true ∧ unitsOf zo ≤ 2 ^ 53 * oneUnits

/-! ### The TAP container -/

/-- The header of the TAP file that a host builds from a complete stream reads back to magic, version 0, zeros and the
Pulse Byte count, the payload follows it, and the file of a stream with no pulses is 20 bytes long (20_memory.md R59,
R60, R61). -/
def Obligations.TapHeaderReadsBack : Prop :=
  ∀ s : State, s.Inv → s.runState = .ended →
    ∃ file, tapFile s = some file ∧
      readTapHeader file = some
        { magic := [0x43, 0x36, 0x34, 0x2D, 0x54, 0x41, 0x50, 0x45, 0x2D, 0x52, 0x41, 0x57], version := 0,
          reserved := [0, 0, 0], payloadLength := s.pulseOut.length } ∧
      file.drop 20 = s.pulseOut ∧ file.length = 20 + s.pulseOut.length

/-! ### Byte order -/

/-- Every multi-byte value the block exchanges is little-endian (20_memory.md R54): byte `k` of a word is its bits
[8k+7:8k]; the operands of commands, the words of RESP_OUT, the patterns of CROSS_OUT and the TAP payload length are laid
out so. That the bytes of a stream are those of its words with nothing between them, and read back to its elements, is the
model's: log entry 14. -/
def Obligations.MultiByteValuesAreLittleEndian : Prop :=
  (∀ (v : Word64) (k : Nat), (wordBytes v).length = 8 ∧ (k < 8 → (wordBytes v)[k]? = some (v.extractLsb' (8 * k) 8))) ∧
  (∀ rate : Word32, encode (.setRate rate) =
    [0x02, rate.extractLsb' 0 8, rate.extractLsb' 8 8, rate.extractLsb' 16 8, rate.extractLsb' 24 8]) ∧
  (∀ x y : F64, encode (.setCpufreq x) = 0x04 :: wordBytes x ∧ encode (.sampleMono x) = 0x10 :: wordBytes x ∧
    encode (.sampleStereo x y) = 0x11 :: (wordBytes x ++ wordBytes y)) ∧
  (∀ s : State, s.respOutBytes = (s.respOut.map wordBytes).flatten ∧ s.crossOutBytes = (s.crossOut.map wordBytes).flatten ∧
    wordsOfBytes s.respOutBytes = s.respOut ∧ wordsOfBytes s.crossOutBytes = s.crossOut) ∧
  ∀ n : Word32, (tapHeader n.toNat).drop 16 =
    [n.extractLsb' 0 8, n.extractLsb' 8 8, n.extractLsb' 16 8, n.extractLsb' 24 8]

/-! ### Assembler text -/

/-- What a `float` of the grammar stands for (30_encoding.md R78; 00_scope.md R10): a raw pattern itself, the infinities, a
NaN for `nan` (which one is free: log entry 8), and for a decimal literal the binary64 nearest to it, ties to even, with
its sign, an infinity from halfway past the largest finite value. A literal's magnitude is `num / den` units of 2^-1074. -/
def Obligations.AssembledFloatsAreTheirValues : Prop :=
  (∀ p : F64, asmValue (.raw p) = p) ∧ asmValue (.inf false) = 0x7FF0000000000000 ∧
  asmValue (.inf true) = 0xFFF0000000000000 ∧ isNaN (asmValue .nan) = true ∧
  ∀ (neg : Bool) (digits : Nat) (e : Int) (c : F64), isFinite c = true →
    let x := asmValue (.decimal neg digits e)
    let num : Nat := digits * 10 ^ e.toNat * oneUnits
    let den : Nat := 10 ^ (-e).toNat
    signOf x = neg ∧
    (num < overflowUnits * den →
      isFinite x = true ∧ |(unitsOf x : Int) * den - num| ≤ |(unitsOf c : Int) * den - num| ∧
      (|(unitsOf x : Int) * den - num| = |(unitsOf c : Int) * den - num| → unitsOf c ≠ unitsOf x → magOf x % 2 = 0)) ∧
    (overflowUnits * den ≤ num → isInf x = true)

/-- The text the disassembler prints for a command reads back to the line it stands for, which DisassemblyReadsBack says
is that command (30_encoding.md R78). How the text is spelled where R78 is silent is the model's choice: log entry 9. -/
def Obligations.PrintedTextReadsBack : Prop :=
  ∀ i : Instr, parseLine (showInstr i) = some (disassemble i)

/-- The disassembler gives a finite operand as a decimal that reads back to it, and no decimal of fewer digits does; a NaN
as its pattern (30_encoding.md R78). That "shortest" counts significant digits is the model's reading: log entry 9. -/
def Obligations.DisassemblyPrintsTheShortestDecimal : Prop :=
  ∀ x : F64, (isNaN x = true → asmFloatOf x = .raw x) ∧ (isInf x = true → asmFloatOf x = .inf (signOf x)) ∧
    (isFinite x = true → ∃ digits e, asmFloatOf x = .decimal (signOf x) digits e ∧
      asmValue (.decimal (signOf x) digits e) = x ∧
      ∀ (digits' : Nat) (e' : Int) (k : Nat), asmValue (.decimal (signOf x) digits' e') = x → digits' < 10 ^ k →
        digits < 10 ^ k)

/-- The parser reads exactly the grammar: a line of text reads as a command or pseudo-instruction where the grammar says
that it is one, and any other text is refused (30_encoding.md R78, R79). What the grammar leaves open is the model's
choice: log entry 9. -/
def Obligations.ParserReadsExactlyTheGrammar : Prop :=
  ∀ (line : List Char) (c : AsmCommand), parseLine line = some c ↔ LineText line c

/-- What a line of assembler text stands for, whatever its spelling in the grammar, said by the commands its bytes decode
to; which lines are assembly errors; and that lines assemble one after the other, none of them where one is an error
(30_encoding.md R78, R79). AssembledFloatsAreTheirValues says what a float stands for; the spelling where the grammar is
silent, and that the other lines of a text with an error are not encoded either, are the model's choice: log entry 9. -/
def Obligations.AssembledTextDecodes : Prop :=
  (∀ line : List Char,
    let means (is : List Instr) : Prop :=
      ∃ bytes, assembleText [line] = some bytes ∧ (decodeAll bytes).map Decoded.instr = is.map some
    (LineText line .reset → means [.reset]) ∧ (LineText line .endStream → means [.endStream]) ∧
    (LineText line .status → means [.readReg 3]) ∧
    (∀ rate : Word32, LineText line (.setRate rate.toNat) → means [.setRate rate]) ∧
    (∀ ch : Byte, LineText line (.setChannels ch.toNat) → means [.setChannels ch]) ∧
    (∀ f, LineText line (.setCpufreq f) → means [.setCpufreq (asmValue f)]) ∧
    (∀ f, LineText line (.sample f) → means [.sampleMono (asmValue f)]) ∧
    (∀ f g, LineText line (.sample2 f g) → means [.sampleStereo (asmValue f) (asmValue g)]) ∧
    (∀ idx : Byte, LineText line (.readReg (.index idx.toNat)) → means [.readReg idx]) ∧
    (∀ (r : Register) (k : Nat), [Register.sampleRate, .cpuFreq, .channels, .status, .sampleCount, .crossCount,
      .pulseCount][k]? = some r → LineText line (.readReg (.name r)) → means [.readReg (BitVec.ofNat 8 k)]) ∧
    (∀ (ch : Byte) (rate : Word32), LineText line (.config ch.toNat rate.toNat) → means [.setChannels ch, .setRate rate]) ∧
    (∀ (ch : Byte) (rate : Word32) (f : AsmFloat), LineText line (.configFreq ch.toNat rate.toNat f) →
      means [.setChannels ch, .setRate rate, .setCpufreq (asmValue f)]) ∧
    (∀ fs, LineText line (.samples fs) → means (fs.map (fun v => .sampleMono (asmValue v)))) ∧
    (∀ (rate : Word32) (fs : List AsmFloat), LineText line (.streamMono rate.toNat fs) →
      means ([.reset, .setChannels 1, .setRate rate] ++ fs.map (fun v => .sampleMono (asmValue v)) ++ [.endStream])) ∧
    (∀ n, 255 < n → LineText line (.setChannels n) ∨ LineText line (.readReg (.index n)) ∨
        (∃ rate, LineText line (.config n rate)) ∨ (∃ rate f, LineText line (.configFreq n rate f)) →
      assembleText [line] = none) ∧
    (∀ n, 4294967295 < n → LineText line (.setRate n) ∨ (∃ ch, LineText line (.config ch n)) ∨
        (∃ ch f, LineText line (.configFreq ch n f)) ∨ (∃ fs, LineText line (.streamMono n fs)) →
      assembleText [line] = none) ∧
    ((∀ c, ¬ LineText line c) → assembleText [line] = none)) ∧
  (∀ a b x y, assembleText a = some x → assembleText b = some y → assembleText (a ++ b) = some (x ++ y)) ∧
  (∀ a b line, assembleText [line] = none → assembleText (a ++ line :: b) = none)

/-- Lines of text, spelled as 30_encoding.md R78 to R80 spell them, assemble to the bytes written out from the encoding
tables. -/
def Obligations.SpecLinesAssemble : Prop :=
  assembleText ["sample -1.0".toList, "set_rate 44100".toList, "read_reg STATUS".toList] =
    some [0x10, 0x00, 0x00, 0x00, 0x00, 0x00, 0x00, 0xF0, 0xBF, 0x02, 0x44, 0xAC, 0x00, 0x00, 0x30, 0x03] ∧
  assembleText ["config 1, 0xac44, 8000000.0".toList, "status".toList] =
    some [0x03, 0x01, 0x02, 0x44, 0xAC, 0x00, 0x00, 0x04, 0x00, 0x00, 0x00, 0x00, 0x80, 0x84, 0x5E, 0x41, 0x30, 0x03] ∧
  assembleText ["stream_mono 4, [0.5, -inf]".toList] =
    some [0x01, 0x03, 0x01, 0x02, 0x04, 0x00, 0x00, 0x00, 0x10, 0x00, 0x00, 0x00, 0x00, 0x00, 0x00, 0xE0, 0x3F,
      0x10, 0x00, 0x00, 0x00, 0x00, 0x00, 0x00, 0xF0, 0xFF, 0x20] ∧
  assembleText ["samples 0d3fe0000000000000, inf".toList, "set_channels 2".toList, "end".toList] =
    some [0x10, 0x00, 0x00, 0x00, 0x00, 0x00, 0x00, 0xE0, 0x3F, 0x10, 0x00, 0x00, 0x00, 0x00, 0x00, 0x00, 0xF0, 0x7F,
      0x03, 0x02, 0x20] ∧
  assembleText ["set_channels 256".toList] = none ∧ assembleText ["set_rate 4294967296".toList] = none ∧
  assembleText ["samplerate 4".toList] = none

/-! ### Special values -/

/-- The operations where no rounding decides: signs of products, quotients and exact zeros, division by zero, and
infinite operands (00_scope.md R10; the standard's rules are taken from general knowledge: log entry 7). -/
def Obligations.SpecialOperandsFollowTheStandard : Prop :=
  let inf (neg : Bool) : F64 := if neg then 0xFFF0000000000000 else 0x7FF0000000000000
  let zero (neg : Bool) : F64 := if neg then 0x8000000000000000 else 0x0000000000000000
  (∀ a b : F64, isFinite a = true → isFinite b = true →
    signOf (fmul a b) = (signOf a != signOf b) ∧
    (exactOf b ≠ 0 → signOf (fdiv a b) = (signOf a != signOf b)) ∧
    (exactOf b = 0 → exactOf a ≠ 0 → fdiv a b = inf (signOf a != signOf b)) ∧
    (exactOf b = 0 → exactOf a = 0 → isNaN (fdiv a b) = true) ∧
    (exactOf a + exactOf b = 0 → fadd a b = zero (signOf a && signOf b)) ∧
    (exactOf a - exactOf b = 0 → fsub a b = zero (signOf a && !signOf b))) ∧
  (∀ (a : F64) (p : Bool), isFinite a = true →
    fadd a (inf p) = inf p ∧ fadd (inf p) a = inf p ∧ fsub a (inf p) = inf (!p) ∧ fsub (inf p) a = inf p ∧
    (exactOf a ≠ 0 → fmul a (inf p) = inf (signOf a != p) ∧ fmul (inf p) a = inf (p != signOf a)) ∧
    (exactOf a = 0 → isNaN (fmul a (inf p)) = true ∧ isNaN (fmul (inf p) a) = true) ∧
    fdiv a (inf p) = zero (signOf a != p) ∧ fdiv (inf p) a = inf (p != signOf a)) ∧
  ∀ p q : Bool,
    (p = q → fadd (inf p) (inf q) = inf p ∧ isNaN (fsub (inf p) (inf q)) = true) ∧
    (p ≠ q → isNaN (fadd (inf p) (inf q)) = true ∧ fsub (inf p) (inf q) = inf p) ∧
    fmul (inf p) (inf q) = inf (p != q) ∧ isNaN (fdiv (inf p) (inf q)) = true
end

