-- ==== Sys2Proof/Laws/Asm.lean ====
section
/-! SUPPORT. What the parser's operations on text can do (30_encoding.md R78): cutting at a character, cutting at commas,
dropping blanks, reading digits. -/

namespace Sys2Proof.Machine

/-! ### Cutting a text -/

theorem splitFirst_of_notMem {sep : Char} {cs : List Char} (h : sep ∉ cs) : splitFirst sep cs = (cs, none) := by
  induction cs with
  | nil => rfl
  | cons c cs ih =>
    rw [List.mem_cons, not_or] at h
    rw [splitFirst, if_neg (Ne.symm h.1), ih h.2]

theorem splitFirst_append {sep : Char} {a b : List Char} (h : sep ∉ a) : splitFirst sep (a ++ sep :: b) = (a, some b) := by
  induction a with
  | nil => simp [splitFirst]
  | cons c cs ih =>
    rw [List.mem_cons, not_or] at h
    rw [List.cons_append, splitFirst, if_neg (Ne.symm h.1), ih h.2]

/-- A text has no separator, or is cut at its first. -/
theorem splitFirst_cases (sep : Char) (cs : List Char) :
    (sep ∉ cs ∧ splitFirst sep cs = (cs, none)) ∨
      ∃ a b, cs = a ++ sep :: b ∧ sep ∉ a ∧ splitFirst sep cs = (a, some b) := by
  by_cases h : sep ∈ cs
  · obtain ⟨a, b, rfl, ha⟩ := List.eq_append_cons_of_mem h
    exact .inr ⟨a, b, rfl, ha, splitFirst_append ha⟩
  · exact .inl ⟨h, splitFirst_of_notMem h⟩

theorem splitCommas_ne_nil (cs : List Char) : splitCommas cs ≠ [] := by
  cases cs with
  | nil => simp [splitCommas]
  | cons c cs => rw [splitCommas]; split <;> [simp; (split <;> simp)]

theorem splitCommas_cons (c : Char) (cs : List Char) : ∃ piece pieces, splitCommas cs = piece :: pieces ∧
    splitCommas (c :: cs) = if c = ',' then [] :: piece :: pieces else (c :: piece) :: pieces := by
  obtain ⟨piece, pieces, h⟩ := List.exists_cons_of_ne_nil (splitCommas_ne_nil cs)
  exact ⟨piece, pieces, h, by rw [splitCommas, h]⟩

/-- The pieces, joined by commas, are the text. -/
theorem intercalate_splitCommas (cs : List Char) : [','].intercalate (splitCommas cs) = cs := by
  induction cs with
  | nil => rfl
  | cons c cs ih =>
    obtain ⟨piece, pieces, h, h'⟩ := splitCommas_cons c cs
    rw [h] at ih
    rw [h']
    split
    · next hc => rw [List.intercalate_cons_cons, ih, hc]; rfl
    · cases pieces with
      | nil => simpa using ih
      | cons q qs =>
        rw [List.intercalate_cons_cons] at ih ⊢
        rw [List.cons_append, List.cons_append, ih]

theorem splitCommas_of_notMem {cs : List Char} (h : ',' ∉ cs) : splitCommas cs = [cs] := by
  induction cs with
  | nil => rfl
  | cons c cs ih =>
    rw [List.mem_cons, not_or] at h
    rw [splitCommas, ih h.2]
    exact if_neg (Ne.symm h.1)

theorem splitCommas_append {a b : List Char} (h : ',' ∉ a) : splitCommas (a ++ ',' :: b) = a :: splitCommas b := by
  induction a with
  | nil =>
    obtain ⟨piece, pieces, hb, h'⟩ := splitCommas_cons ',' b
    rw [List.nil_append, h', hb, if_pos rfl]
  | cons c cs ih =>
    rw [List.mem_cons, not_or] at h
    rw [List.cons_append, splitCommas, ih h.2]
    exact if_neg (Ne.symm h.1)

/-- Pieces without commas, joined by commas, are the pieces. -/
theorem splitCommas_intercalate {pieces : List (List Char)} (h : pieces ≠ []) (hc : ∀ p ∈ pieces, ',' ∉ p) :
    splitCommas ([','].intercalate pieces) = pieces := by
  induction pieces with
  | nil => exact absurd rfl h
  | cons p ps ih =>
    cases ps with
    | nil => simpa using splitCommas_of_notMem (hc p (by simp))
    | cons q qs =>
      rw [List.intercalate_cons_cons, List.append_assoc, List.singleton_append, splitCommas_append (hc p (by simp)),
        ih (by simp) (fun x hx => hc x (List.mem_cons_of_mem p hx))]

/-! ### Blanks -/

/-- A text whose first and last characters, if any, are no blanks. -/
def Trimmed (cs : List Char) : Prop := cs.head? ≠ some ' ' ∧ cs.getLast? ≠ some ' '

theorem dropWhile_blanks (n : Nat) (cs : List Char) :
    (List.replicate n ' ' ++ cs).dropWhile (· = ' ') = cs.dropWhile (· = ' ') := by
  induction n with
  | zero => rfl
  | succ n ih => rw [List.replicate_succ, List.cons_append, List.dropWhile_cons_of_pos (by simp), ih]

theorem exists_blanks (cs : List Char) : ∃ n, cs = List.replicate n ' ' ++ cs.dropWhile (· = ' ') := by
  induction cs with
  | nil => exact ⟨0, rfl⟩
  | cons c cs ih =>
    by_cases h : c = ' '
    · obtain ⟨n, hn⟩ := ih
      refine ⟨n + 1, ?_⟩
      rw [List.dropWhile_cons_of_pos (by simpa using h), List.replicate_succ, List.cons_append, ← hn, h]
    · exact ⟨0, by rw [List.dropWhile_cons_of_neg (by simpa using h)]; rfl⟩

theorem dropWhile_of_head {cs : List Char} (h : cs.head? ≠ some ' ') : cs.dropWhile (· = ' ') = cs := by
  cases cs with
  | nil => rfl
  | cons c cs => exact List.dropWhile_cons_of_neg (by simpa using h)

theorem head_dropWhile (cs : List Char) : (cs.dropWhile (· = ' ')).head? ≠ some ' ' := by
  induction cs with
  | nil => simp
  | cons c cs ih =>
    by_cases h : c = ' '
    · rwa [List.dropWhile_cons_of_pos (by simpa using h)]
    · rw [List.dropWhile_cons_of_neg (by simpa using h)]
      simpa using h

theorem trimBlanks_of_trimmed {cs : List Char} (h : Trimmed cs) : trimBlanks cs = cs := by
  rw [trimBlanks, dropWhile_of_head h.1, dropWhile_of_head (by rw [List.head?_reverse]; exact h.2), List.reverse_reverse]

/-- Blanks around a text do not change what is left of it. -/
theorem trimBlanks_padded {core cs : List Char} (h : Padded cs core) : trimBlanks cs = trimBlanks core := by
  obtain ⟨before, after, rfl⟩ := h
  rw [List.append_assoc, trimBlanks, dropWhile_blanks]
  by_cases hc : core.dropWhile (· = ' ') = []
  · have hall : ∀ c ∈ core, c = ' ' := by simpa [List.dropWhile_eq_nil_iff] using hc
    have : (core ++ List.replicate after ' ').dropWhile (· = ' ') = [] := by
      rw [List.dropWhile_eq_nil_iff]
      intro c hm
      rcases List.mem_append.1 hm with hm | hm
      · simpa using hall c hm
      · simpa using List.eq_of_mem_replicate hm
    rw [this, trimBlanks, hc]
  · have : (core ++ List.replicate after ' ').dropWhile (· = ' ') =
        core.dropWhile (· = ' ') ++ List.replicate after ' ' := by
      rw [List.dropWhile_append, if_neg (by simpa using hc)]
    rw [this, List.reverse_append, List.reverse_replicate, dropWhile_blanks, trimBlanks]

theorem trimmed_trimBlanks (cs : List Char) : Trimmed (trimBlanks cs) := by
  refine ⟨?_, ?_⟩
  · obtain ⟨n, hn⟩ := exists_blanks ((cs.dropWhile (· = ' ')).reverse)
    have hh := head_dropWhile cs
    rw [trimBlanks]
    have e : cs.dropWhile (· = ' ') =
        ((cs.dropWhile (· = ' ')).reverse.dropWhile (· = ' ')).reverse ++ List.replicate n ' ' := by
      have := congrArg List.reverse hn
      rwa [List.reverse_append, List.reverse_replicate, List.reverse_reverse] at this
    rw [e] at hh
    revert hh
    cases ((cs.dropWhile (· = ' ')).reverse.dropWhile (· = ' ')).reverse with
    | nil => simp
    | cons c cs => simp
  · rw [trimBlanks, List.getLast?_reverse]
    exact head_dropWhile _

/-- What is left of a text is the text but for the blanks around it. -/
theorem padded_trimBlanks (cs : List Char) : Padded cs (trimBlanks cs) := by
  obtain ⟨n, hn⟩ := exists_blanks cs
  obtain ⟨m, hm⟩ := exists_blanks (cs.dropWhile (· = ' ')).reverse
  refine ⟨n, m, ?_⟩
  have := congrArg List.reverse hm
  rw [List.reverse_append, List.reverse_replicate, List.reverse_reverse] at this
  rw [List.append_assoc, trimBlanks, ← this, ← hn]

/-- Blanks behind a text go to its last piece. -/
theorem splitCommas_append_blanks (cs : List Char) (n : Nat) : ∃ pieces last,
    splitCommas cs = pieces ++ [last] ∧ splitCommas (cs ++ List.replicate n ' ') = pieces ++ [last ++ List.replicate n ' '] := by
  induction cs with
  | nil =>
    refine ⟨[], [], rfl, splitCommas_of_notMem fun h => ?_⟩
    exact absurd (List.eq_of_mem_replicate h) (by decide)
  | cons c cs ih =>
    obtain ⟨pieces, last, h, h'⟩ := ih
    rw [List.cons_append, splitCommas, splitCommas, h, h']
    cases pieces with
    | nil =>
      by_cases hc : c = ','
      · exact ⟨[[]], last, by simp [hc], by simp [hc]⟩
      · exact ⟨[], c :: last, by simp [hc], by simp [hc]⟩
    | cons q qs =>
      by_cases hc : c = ','
      · exact ⟨[] :: q :: qs, last, by simp [hc], by simp [hc]⟩
      · exact ⟨(c :: q) :: qs, last, by simp [hc], by simp [hc]⟩

/-- The operands of a text, its pieces between commas without their blanks, do not depend on the blanks behind it. -/
theorem map_trimBlanks_splitCommas_append (cs : List Char) (n : Nat) :
    (splitCommas (cs ++ List.replicate n ' ')).map trimBlanks = (splitCommas cs).map trimBlanks := by
  obtain ⟨pieces, last, h, h'⟩ := splitCommas_append_blanks cs n
  rw [h, h', List.map_append, List.map_append, List.map_singleton, List.map_singleton]
  rw [trimBlanks_padded (show Padded (last ++ List.replicate n ' ') last from ⟨0, n, rfl⟩)]

/-! ### Digits -/

/-- Reading digits reads exactly the natural they stand for. -/
theorem readDigits_iff {digit : Char → Option Nat} {base : Nat} {alphabets : List String}
    (hd : ∀ c d, digit c = some d ↔ ∃ a ∈ alphabets, a.toList[d]? = some c) {cs : List Char} (hcs : cs ≠ []) (n : Nat) :
    readDigits digit base 0 cs = some n ↔ DigitsText base alphabets cs n := by
  have carry (l : List Nat) (d acc : Nat) :
      Nat.ofDigits base (l ++ [acc * base + d]) = Nat.ofDigits base ((l ++ [d]) ++ [acc]) := by
    simp only [Nat.ofDigits_append, Nat.ofDigits_cons, Nat.ofDigits_nil, List.length_append, List.length_singleton]
    ring
  have main : ∀ (cs : List Char) (acc n : Nat), readDigits digit base acc cs = some n ↔
      ∃ ds, List.Forall₂ (fun c d => ∃ a ∈ alphabets, a.toList[d]? = some c) cs ds ∧
        n = Nat.ofDigits base (ds.reverse ++ [acc]) := by
    intro cs
    induction cs with
    | nil => intro acc n; simp [readDigits, eq_comm]
    | cons c cs ih =>
      intro acc n
      rw [readDigits]
      cases hc : digit c with
      | none =>
        simp only [reduceCtorEq, false_iff]
        rintro ⟨_, h, -⟩
        cases h with
        | cons h _ => rw [(hd _ _).2 h] at hc; cases hc
      | some d =>
        simp only [ih]
        constructor
        · rintro ⟨ds, h, rfl⟩
          exact ⟨d :: ds, .cons ((hd _ _).1 hc) h, by rw [List.reverse_cons, carry]⟩
        · rintro ⟨_, h, rfl⟩
          cases h with
          | @cons _ d' _ ds h h' =>
            have : some d = some d' := hc.symm.trans ((hd _ _).2 h)
            cases this
            exact ⟨ds, h', by rw [List.reverse_cons, carry]⟩
  rw [main, DigitsText]
  constructor
  · rintro ⟨ds, h, rfl⟩
    exact ⟨hcs, ds.reverse, List.forall₂_reverse_iff.2 h, by simp [Nat.ofDigits_append]⟩
  · rintro ⟨-, ds, h, rfl⟩
    exact ⟨ds.reverse, by rw [← List.forall₂_reverse_iff, List.reverse_reverse]; exact h, by simp [Nat.ofDigits_append]⟩

end Sys2Proof.Machine
end

