-- ==== Sys2Proof/Laws/Decode.lean ====
section
/-! SUPPORT. Byte strings as numbers, and the opcode map both ways. -/

namespace Sys2Proof

@[simp] theorem length_leBytes (n v : Nat) : (leBytes n v).length = n := by
  induction n generalizing v with
  | zero => rfl
  | succ n ih => simp [leBytes, ih]

/-- Reading back what was written gives the low bytes of the number (20_memory.md R54). -/
theorem leNat_leBytes (n v : Nat) : leNat (leBytes n v) = v % 256 ^ n := by
  induction n generalizing v with
  | zero => simp [leBytes, leNat, Nat.mod_one]
  | succ n ih =>
    rw [leBytes, leNat, ih, BitVec.toNat_ofNat, show (2 : Nat) ^ 8 = 256 from rfl, Nat.pow_succ', Nat.mod_mul]

/-- Writing back what was read gives the bytes (20_memory.md R54). -/
theorem leBytes_leNat (bs : List Byte) : leBytes bs.length (leNat bs) = bs := by
  induction bs with
  | nil => rfl
  | cons b bs ih =>
    have hb : b.toNat < 256 := b.isLt
    have h1 : (b.toNat + 256 * leNat bs) / 256 = leNat bs := by omega
    have h2 : BitVec.ofNat 8 (b.toNat + 256 * leNat bs) = b := by
      apply BitVec.eq_of_toNat_eq
      rw [BitVec.toNat_ofNat]
      omega
    simp [leBytes, leNat, h1, h2, ih]

theorem leNat_lt (bs : List Byte) : leNat bs < 256 ^ bs.length := by
  induction bs with
  | nil => simp [leNat]
  | cons b bs ih =>
    have hb : b.toNat < 256 := b.isLt
    simp only [leNat, List.length_cons, Nat.pow_succ]
    omega

@[simp] theorem opcodeOf_byte (op : Opcode) : opcodeOf op.byte = some op := by cases op <;> rfl

/-- A byte that selects a command is its opcode byte (30_encoding.md R73). -/
theorem byte_of_opcodeOf {b : Byte} {op : Opcode} (h : opcodeOf b = some op) : b = op.byte := by
  have all : ∀ b : Byte, ∀ op, opcodeOf b = some op → b = op.byte := by decide +kernel
  exact all b op h

@[simp] theorem opcode_instrOf (op : Opcode) (w : Nat) : (instrOf op w).opcode = op := by cases op <;> rfl

theorem format_length_pos (f : Format) : 0 < f.length := by cases f <;> decide

@[simp] theorem length_encode (i : Instr) : (encode i).length = i.opcode.format.length := length_leBytes _ _

/-- A field is the bits it was made from. -/
theorem toNat_fieldOf (w lo n : Nat) : (fieldOf w lo n).toNat = w / 2 ^ lo % 2 ^ n := by
  rw [fieldOf, BitVec.toNat_ofNat, Nat.shiftRight_eq_div_pow]

end Sys2Proof
end

