-- ==== Sys2Proof/Laws/Float.lean ====
section
/-! SUPPORT. The one rounding of the arithmetic (00_scope.md R10): it is to nearest with ties to even, it never falls, and
it leaves a representable value as it is. Patterns and their parts. -/

namespace Sys2Proof.Machine

/-! ### Patterns -/

@[simp] theorem packF64_signOf_magOf (x : F64) : packF64 (signOf x) (magOf x) = x := by
  apply BitVec.eq_of_toNat_eq
  have := x.isLt
  by_cases h : 2 ^ 63 ≤ x.toNat
  · simp only [packF64, signOf, magOf, BitVec.toNat_ofNat, h, decide_true, if_true]
    omega
  · simp only [packF64, signOf, magOf, BitVec.toNat_ofNat, h, decide_false, Bool.false_eq_true, if_false]
    omega

theorem oneUnits_eq : oneUnits = 2 ^ 1074 := by unfold oneUnits; rfl

theorem oneUnits_pos : 0 < oneUnits := by rw [oneUnits_eq]; exact Nat.two_pow_pos 1074

theorem magOf_lt (x : F64) : magOf x < 2 ^ 63 := Nat.mod_lt _ (by decide)

theorem magOf_packF64 {mag : Nat} (neg : Bool) (h : mag < 2 ^ 63) : magOf (packF64 neg mag) = mag := by
  cases neg <;> simp only [magOf, packF64, BitVec.toNat_ofNat, Bool.false_eq_true, if_false, if_true] <;> omega

theorem signOf_packF64 {mag : Nat} (neg : Bool) (h : mag < 2 ^ 63) : signOf (packF64 neg mag) = neg := by
  cases neg <;> simp only [signOf, packF64, BitVec.toNat_ofNat, Bool.false_eq_true, if_false, if_true,
    decide_eq_false_iff_not, decide_eq_true_eq] <;> omega

theorem roundMag_le_infMag (num den : Nat) : roundMag num den ≤ infMag := Nat.min_le_right _ _

theorem roundMag_lt (num den : Nat) : roundMag num den < 2 ^ 63 :=
  Nat.lt_of_le_of_lt (roundMag_le_infMag num den) (by decide)

@[simp] theorem magOf_packF64_roundMag (neg : Bool) (num den : Nat) :
    magOf (packF64 neg (roundMag num den)) = roundMag num den := magOf_packF64 neg (roundMag_lt num den)

@[simp] theorem signOf_packF64_roundMag (neg : Bool) (num den : Nat) :
    signOf (packF64 neg (roundMag num den)) = neg := signOf_packF64 neg (roundMag_lt num den)

/-! ### Magnitudes -/

/-- The magnitude of `k` units in the last place, where the last place is `2^S`. -/
theorem unitsOfMag_grid {S k : Nat} (hk : k ≤ 2 ^ 53) (h : S = 0 ∨ 2 ^ 52 ≤ k) :
    unitsOfMag (S * 2 ^ 52 + k) = k * 2 ^ S := by
  have pos : 0 < 2 ^ 52 := by decide
  rcases Nat.lt_or_ge k (2 ^ 52) with hlt | hge
  · have hS : S = 0 := by omega
    subst hS
    rw [unitsOfMag, if_pos (by omega)]
    omega
  · obtain ⟨j, rfl⟩ := Nat.exists_eq_add_of_le hge
    have hdiv : (S * 2 ^ 52 + (2 ^ 52 + j)) / 2 ^ 52 = S + 1 + j / 2 ^ 52 := by omega
    have hmod : (S * 2 ^ 52 + (2 ^ 52 + j)) % 2 ^ 52 = j % 2 ^ 52 := by omega
    rw [unitsOfMag, hdiv, hmod, if_neg (by omega)]
    rcases Nat.lt_or_ge j (2 ^ 52) with hj | hj
    · rw [Nat.div_eq_of_lt hj, Nat.mod_eq_of_lt hj]
      rfl
    · have : j = 2 ^ 52 := by omega
      subst this
      rw [Nat.div_self pos, Nat.mod_self, Nat.add_zero, show S + 1 + 1 - 1 = S + 1 by omega, Nat.pow_succ]
      ring

/-- Every magnitude is a number of units in its own last place. -/
theorem exists_grid (m : Nat) : ∃ S k, m = S * 2 ^ 52 + k ∧ k < 2 ^ 53 ∧ (S = 0 ∨ 2 ^ 52 ≤ k) := by
  rcases Nat.lt_or_ge m (2 ^ 53) with h | h
  · exact ⟨0, m, by omega, h, .inl rfl⟩
  · exact ⟨m / 2 ^ 52 - 1, m % 2 ^ 52 + 2 ^ 52, by omega, by omega, .inr (by omega)⟩

/-- Magnitudes rise with their patterns. -/
theorem unitsOfMag_strictMono : StrictMono unitsOfMag := by
  refine strictMono_nat_of_lt_succ fun m => ?_
  obtain ⟨S, k, rfl, hk, h⟩ := exists_grid m
  rw [Nat.add_assoc, unitsOfMag_grid hk.le h, unitsOfMag_grid (by omega) (by omega)]
  exact Nat.mul_lt_mul_of_pos_right (Nat.lt_succ_self k) (Nat.two_pow_pos S)

@[simp] theorem unitsOfMag_zero : unitsOfMag 0 = 0 := by simp [unitsOfMag]

/-! ### Rounding to a natural -/

/-- It is the whole part or the next. -/
theorem divRoundEven_eq (num den : Nat) : divRoundEven num den = num / den ∨ divRoundEven num den = num / den + 1 := by
  unfold divRoundEven
  split <;> simp

/-- It is within half, and even at exactly half. -/
theorem divRoundEven_half {num den : Nat} (hd : 0 < den) :
    2 * |(divRoundEven num den : Int) * den - num| ≤ den ∧
      (2 * |(divRoundEven num den : Int) * den - num| = den → divRoundEven num den % 2 = 0) := by
  have hnum := Nat.div_add_mod num den
  have hr := Nat.mod_lt num hd
  set q := num / den
  set r := num % den
  have hz : (num : Int) = den * q + r := by exact_mod_cast hnum.symm
  have hr' : (r : Int) < den := by exact_mod_cast hr
  have hr0 : (0 : Int) ≤ r := by positivity
  unfold divRoundEven
  split
  · next h =>
    have e : (((q + 1 : Nat) : Int) * den - num) = den - r := by push_cast; rw [hz]; ring
    rw [e, abs_of_nonneg (by omega)]
    constructor
    · rcases h with h | h <;> omega
    · intro _
      rcases h with h | ⟨_, h⟩ <;> omega
  · next h =>
    have e : ((q : Int) * den - num) = -r := by rw [hz]; ring
    rw [e, abs_neg, abs_of_nonneg hr0]
    push Not at h
    constructor
    · omega
    · intro h2
      have := h.2 (by omega)
      omega

/-- No natural is nearer, and where another is equally near this one is even. -/
theorem divRoundEven_nearest {num den : Nat} (hd : 0 < den) (n : Nat) :
    |(divRoundEven num den : Int) * den - num| ≤ |(n : Int) * den - num| ∧
      (|(divRoundEven num den : Int) * den - num| = |(n : Int) * den - num| → n ≠ divRoundEven num den →
        divRoundEven num den % 2 = 0) := by
  obtain ⟨hh, he⟩ := divRoundEven_half (num := num) hd
  set k := divRoundEven num den
  by_cases hn : n = k
  · subst hn
    exact ⟨le_rfl, fun _ h => absurd rfl h⟩
  · have apart : (den : Int) ≤ |(n : Int) * den - k * den| := by
      rw [← sub_mul, abs_mul, abs_of_pos (show (0 : Int) < den by exact_mod_cast hd)]
      have : 1 ≤ |(n : Int) - k| := Int.one_le_abs (by omega)
      nlinarith [show (0 : Int) < den by exact_mod_cast hd]
    have tri : |(n : Int) * den - k * den| ≤ |(n : Int) * den - num| + |(k : Int) * den - num| := by
      have := abs_sub_le ((n : Int) * den) num (k * den)
      rwa [abs_sub_comm (num : Int) (k * den)] at this
    refine ⟨by omega, fun heq _ => he (by omega)⟩

/-- It never falls as the ratio rises. -/
theorem divRoundEven_mono {num den num' den' : Nat} (hd : 0 < den) (hd' : 0 < den')
    (h : num * den' ≤ num' * den) : divRoundEven num den ≤ divRoundEven num' den' := by
  have hq : num / den ≤ num' / den' := by
    rw [Nat.le_div_iff_mul_le hd']
    have h1 : num / den * den' * den ≤ num' * den := by
      calc num / den * den' * den = num / den * den * den' := by ring
        _ ≤ num * den' := Nat.mul_le_mul_right _ (Nat.div_mul_le_self num den)
        _ ≤ num' * den := h
    exact Nat.le_of_mul_le_mul_right h1 hd
  rcases Nat.lt_or_ge (num / den) (num' / den') with hlt | hge
  · rcases divRoundEven_eq num den with e | e <;> rcases divRoundEven_eq num' den' with e' | e' <;> omega
  · have hqq : num / den = num' / den' := by omega
    have h1 := Nat.div_add_mod num den
    have h2 := Nat.div_add_mod num' den'
    have hrr : num % den * den' ≤ num' % den' * den := by
      rw [← h1, ← h2, hqq] at h
      have e1 : (den * (num' / den') + num % den) * den' = num' / den' * den * den' + num % den * den' := by ring
      have e2 : (den' * (num' / den') + num' % den') * den = num' / den' * den * den' + num' % den' * den := by ring
      omega
    unfold divRoundEven
    rw [← hqq]
    split
    · next hup =>
      rw [if_pos]
      rcases hup with hup | ⟨hup, hodd⟩
      · refine .inl ?_
        by_contra hc
        have : 2 * (num' % den') * den ≤ den' * den := Nat.mul_le_mul_right _ (by omega)
        have : den * den' < 2 * (num % den) * den' := Nat.mul_lt_mul_of_pos_right hup hd'
        nlinarith
      · rcases Nat.lt_or_ge den' (2 * (num' % den')) with hc | hc
        · exact .inl hc
        · refine .inr ⟨?_, hodd⟩
          by_contra hne
          have : 2 * (num' % den') * den < den' * den := Nat.mul_lt_mul_of_pos_right (by omega) hd
          nlinarith
    · split <;> omega

/-- A whole ratio is itself. -/
theorem divRoundEven_mul {k den : Nat} (hd : 0 < den) : divRoundEven (k * den) den = k := by
  unfold divRoundEven
  rw [if_neg (by rw [Nat.mul_mod_left]; omega), Nat.mul_div_cancel _ hd]

/-! ### Rounding to a binary64 magnitude -/

/-- The whole part fits in 53 bits of its unit in the last place, and fills them outside the subnormal range. -/
theorem ulpShift_spec (q : Nat) :
    q / 2 ^ ulpShift q < 2 ^ 53 ∧ (ulpShift q = 0 ∨ 2 ^ 52 ≤ q / 2 ^ ulpShift q) := by
  unfold ulpShift
  rcases Nat.lt_or_ge q (2 ^ 53) with h | h
  · have : q.log2 < 53 := by
      rcases Nat.eq_zero_or_pos q with rfl | hq
      · decide
      · exact (Nat.log2_lt (by omega)).2 h
    rw [show q.log2 - 52 = 0 by omega, Nat.pow_zero, Nat.div_one]
    exact ⟨h, .inl rfl⟩
  · have hq : q ≠ 0 := by omega
    have h53 : 53 ≤ q.log2 := (Nat.le_log2 hq).2 h
    have lo : 2 ^ q.log2 ≤ q := Nat.log2_self_le hq
    have hi : q < 2 ^ (q.log2 + 1) := Nat.lt_log2_self
    refine ⟨?_, .inr ?_⟩
    · rw [Nat.div_lt_iff_lt_mul (Nat.two_pow_pos _), ← Nat.pow_add]
      rwa [show 53 + (q.log2 - 52) = q.log2 + 1 by omega]
    · rw [Nat.le_div_iff_mul_le (Nat.two_pow_pos _), ← Nat.pow_add]
      rwa [show 52 + (q.log2 - 52) = q.log2 by omega]

/-- The rounded significand, and the magnitude it stands for. -/
theorem roundMag_grid {num den : Nat} :
    ∃ S k, k = divRoundEven num (den * 2 ^ S) ∧ k ≤ 2 ^ 53 ∧ (S = 0 ∨ 2 ^ 52 ≤ k) ∧
      (S = 0 ∨ 2 ^ 52 ≤ num / (den * 2 ^ S)) ∧ num / (den * 2 ^ S) < 2 ^ 53 ∧ S = ulpShift (num / den) ∧
      roundMag num den = min (S * 2 ^ 52 + k) infMag := by
  obtain ⟨hlt, hge⟩ := ulpShift_spec (num / den)
  rw [Nat.div_div_eq_div_mul] at hlt hge
  refine ⟨ulpShift (num / den), _, rfl, ?_, ?_, hge, hlt, rfl, rfl⟩
  · rcases divRoundEven_eq num (den * 2 ^ ulpShift (num / den)) with e | e <;> omega
  · rcases divRoundEven_eq num (den * 2 ^ ulpShift (num / den)) with e | e <;> omega

/-- ROUND TO NEAREST, TIES TO EVEN (00_scope.md R10): where the result is finite, no magnitude is nearer to `num / den`,
and where another is equally near the result's last bit is 0. -/
theorem roundMag_nearest {num den : Nat} (hd : 0 < den) (hfin : roundMag num den < infMag) (m : Nat) :
    |(unitsOfMag (roundMag num den) : Int) * den - num| ≤ |(unitsOfMag m : Int) * den - num| ∧
      (|(unitsOfMag (roundMag num den) : Int) * den - num| = |(unitsOfMag m : Int) * den - num| →
        m ≠ roundMag num den → roundMag num den % 2 = 0) := by
  obtain ⟨S, k, hk, hk53, hgrid, hbase, _, _, hr⟩ := roundMag_grid (num := num) (den := den)
  have hr' : roundMag num den = S * 2 ^ 52 + k := by omega
  have hD : 0 < den * 2 ^ S := Nat.mul_pos hd (Nat.two_pow_pos S)
  have hu : unitsOfMag (roundMag num den) = k * 2 ^ S := by rw [hr', unitsOfMag_grid hk53 hgrid]
  have heven : k % 2 = 0 → roundMag num den % 2 = 0 := by intro h; omega
  have hleft : (unitsOfMag (roundMag num den) : Int) * den - num = (k : Int) * ((den * 2 ^ S : Nat) : Int) - num := by
    rw [hu]; push_cast; ring
  obtain ⟨S', k', rfl, hk', hgrid'⟩ := exists_grid m
  have hm : unitsOfMag (S' * 2 ^ 52 + k') = k' * 2 ^ S' := unitsOfMag_grid hk'.le hgrid'
  rcases Nat.lt_or_ge S' S with hSS | hSS
  · -- a finer grid lies wholly below
    have hbase' : 2 ^ 52 ≤ num / (den * 2 ^ S) := by omega
    have hnear := divRoundEven_nearest (num := num) hD (2 ^ 52)
    rw [← hk] at hnear
    have hfloor : 2 ^ 52 * (den * 2 ^ S) ≤ num :=
      le_trans (Nat.mul_le_mul_right _ hbase') (Nat.div_mul_le_self num _)
    have hbelow : k' * 2 ^ S' < 2 ^ 52 * 2 ^ S := by
      calc k' * 2 ^ S' < 2 ^ 53 * 2 ^ S' := Nat.mul_lt_mul_of_pos_right hk' (Nat.two_pow_pos _)
        _ = 2 ^ 52 * 2 ^ (S' + 1) := by rw [Nat.pow_succ]; ring
        _ ≤ 2 ^ 52 * 2 ^ S := Nat.mul_le_mul_left _ (Nat.pow_le_pow_right (by decide) hSS)
    have hb : (unitsOfMag (S' * 2 ^ 52 + k') : Int) * den < ((2 ^ 52 : Nat) : Int) * ((den * 2 ^ S : Nat) : Int) := by
      rw [hm]
      have := Nat.mul_lt_mul_of_pos_right hbelow hd
      have e : 2 ^ 52 * 2 ^ S * den = 2 ^ 52 * (den * 2 ^ S) := by ring
      rw [e] at this
      exact_mod_cast this
    have hf : ((2 ^ 52 : Nat) : Int) * ((den * 2 ^ S : Nat) : Int) ≤ num := by exact_mod_cast hfloor
    have habs1 : |((2 ^ 52 : Nat) : Int) * ((den * 2 ^ S : Nat) : Int) - num| =
        num - ((2 ^ 52 : Nat) : Int) * ((den * 2 ^ S : Nat) : Int) := by rw [abs_of_nonpos (by omega)]; ring
    have habs2 : |(unitsOfMag (S' * 2 ^ 52 + k') : Int) * den - num| =
        num - (unitsOfMag (S' * 2 ^ 52 + k') : Int) * den := by rw [abs_of_nonpos (by omega)]; ring
    rw [hleft, habs2]
    rw [habs1] at hnear
    exact ⟨by omega, fun h => by omega⟩
  · -- a grid at least as coarse is a part of this one
    obtain ⟨d, rfl⟩ := Nat.exists_eq_add_of_le hSS
    have hnear := divRoundEven_nearest (num := num) hD (k' * 2 ^ d)
    rw [← hk] at hnear
    have hright : (unitsOfMag ((S + d) * 2 ^ 52 + k') : Int) * den - num =
        ((k' * 2 ^ d : Nat) : Int) * ((den * 2 ^ S : Nat) : Int) - num := by
      rw [hm]; push_cast; ring
    rw [hleft, hright]
    refine ⟨hnear.1, fun h hne => heven (hnear.2 h fun e => hne ?_)⟩
    apply unitsOfMag_strictMono.injective
    rw [hm, hu, ← e, Nat.pow_add]
    ring

/-- It never falls as the ratio rises. -/
theorem roundMag_mono {num den num' den' : Nat} (hd : 0 < den) (hd' : 0 < den') (h : num * den' ≤ num' * den) :
    roundMag num den ≤ roundMag num' den' := by
  obtain ⟨S, k, hk, hk53, hgrid, hbase, hlt, hS, hr⟩ := roundMag_grid (num := num) (den := den)
  obtain ⟨S', k', hk', hk53', hgrid', hbase', hlt', hS', hr'⟩ := roundMag_grid (num := num') (den := den')
  have hq : num / den ≤ num' / den' := by
    rw [Nat.le_div_iff_mul_le hd']
    have h1 : num / den * den' * den ≤ num' * den := by
      calc num / den * den' * den = num / den * den * den' := by ring
        _ ≤ num * den' := Nat.mul_le_mul_right _ (Nat.div_mul_le_self num den)
        _ ≤ num' * den := h
    exact Nat.le_of_mul_le_mul_right h1 hd
  have hlog : (num / den).log2 ≤ (num' / den').log2 := by
    rcases Nat.eq_zero_or_pos (num / den) with h0 | h0
    · rw [h0]; simp
    · exact (Nat.le_log2 (by omega)).2 (le_trans (Nat.log2_self_le (by omega)) hq)
  have hSS : S ≤ S' := by rw [hS, hS']; unfold ulpShift; omega
  rw [hr, hr']
  refine min_le_min ?_ le_rfl
  rcases Nat.lt_or_ge S S' with hlt2 | hge
  · have hfull : 2 ^ 52 ≤ k' := hgrid'.resolve_left (by omega)
    calc S * 2 ^ 52 + k ≤ S * 2 ^ 52 + 2 ^ 53 := Nat.add_le_add_left hk53 _
      _ = (S + 1) * 2 ^ 52 + 2 ^ 52 := by ring
      _ ≤ S' * 2 ^ 52 + k' := Nat.add_le_add (Nat.mul_le_mul_right _ hlt2) hfull
  · have : S = S' := by omega
    subst this
    have : k ≤ k' := by
      rw [hk, hk']
      refine divRoundEven_mono (Nat.mul_pos hd (Nat.two_pow_pos S)) (Nat.mul_pos hd' (Nat.two_pow_pos S)) ?_
      calc num * (den' * 2 ^ S) = num * den' * 2 ^ S := by ring
        _ ≤ num' * den * 2 ^ S := Nat.mul_le_mul_right _ h
        _ = num' * (den * 2 ^ S) := by ring
    omega

/-- A representable magnitude is itself. -/
theorem roundMag_exact {m den : Nat} (hd : 0 < den) (hm : m ≤ infMag) : roundMag (unitsOfMag m * den) den = m := by
  obtain ⟨S, k, rfl, hk, h⟩ := exists_grid m
  rw [unitsOfMag_grid hk.le h]
  have hS : ulpShift (k * 2 ^ S) = S := by
    unfold ulpShift
    rcases Nat.lt_or_ge k (2 ^ 52) with hlt | hge
    · have h0 : S = 0 := by omega
      subst h0
      rw [Nat.pow_zero, Nat.mul_one]
      rcases Nat.eq_zero_or_pos k with rfl | hk0
      · decide
      · have := (Nat.log2_lt (by omega : k ≠ 0)).2 hlt
        omega
    · have hne : k * 2 ^ S ≠ 0 := Nat.mul_ne_zero (by omega) (Nat.two_pow_pos S).ne'
      have h1 : 52 + S ≤ (k * 2 ^ S).log2 := (Nat.le_log2 hne).2 (by
        rw [Nat.pow_add]; exact Nat.mul_le_mul_right _ hge)
      have h2 : (k * 2 ^ S).log2 < 53 + S := (Nat.log2_lt hne).2 (by
        rw [Nat.pow_add]; exact Nat.mul_lt_mul_of_pos_right hk (Nat.two_pow_pos S))
      omega
  unfold roundMag
  rw [Nat.mul_div_cancel _ hd, hS, show k * 2 ^ S * den = k * (den * 2 ^ S) by ring,
    divRoundEven_mul (Nat.mul_pos hd (Nat.two_pow_pos S))]
  exact Nat.min_eq_left hm

end Sys2Proof.Machine
end

