-- ==== Sys2Proof/Laws/State.lean ====
section
/-! SUPPORT. One lemma per field per named update of the state, so that no proof unfolds a record update. -/

namespace Sys2Proof.Machine

@[simp] theorem raiseFault_sampleRate (c : Cause) (s : State) : (raiseFault c s).sampleRate = s.sampleRate := rfl
@[simp] theorem raiseFault_cpuFreq (c : Cause) (s : State) : (raiseFault c s).cpuFreq = s.cpuFreq := rfl
@[simp] theorem raiseFault_channels (c : Cause) (s : State) : (raiseFault c s).channels = s.channels := rfl
@[simp] theorem raiseFault_runState (c : Cause) (s : State) : (raiseFault c s).runState = .faulted := rfl
@[simp] theorem raiseFault_cause (c : Cause) (s : State) : (raiseFault c s).cause = c := rfl
@[simp] theorem raiseFault_prev (c : Cause) (s : State) : (raiseFault c s).prev = s.prev := rfl
@[simp] theorem raiseFault_lastzo (c : Cause) (s : State) : (raiseFault c s).lastzo = s.lastzo := rfl
@[simp] theorem raiseFault_lastev (c : Cause) (s : State) : (raiseFault c s).lastev = s.lastev := rfl
@[simp] theorem raiseFault_sampleCount (c : Cause) (s : State) : (raiseFault c s).sampleCount = s.sampleCount := rfl
@[simp] theorem raiseFault_crossCount (c : Cause) (s : State) : (raiseFault c s).crossCount = s.crossCount := rfl
@[simp] theorem raiseFault_pulseCount (c : Cause) (s : State) : (raiseFault c s).pulseCount = s.pulseCount := rfl
@[simp] theorem raiseFault_crossOut (c : Cause) (s : State) : (raiseFault c s).crossOut = s.crossOut := rfl
@[simp] theorem raiseFault_pulseOut (c : Cause) (s : State) : (raiseFault c s).pulseOut = s.pulseOut := rfl
@[simp] theorem raiseFault_respOut (c : Cause) (s : State) : (raiseFault c s).respOut = s.respOut := rfl
@[simp] theorem raiseFault_cmdIn (c : Cause) (s : State) : (raiseFault c s).cmdIn = s.cmdIn := rfl
@[simp] theorem raiseFault_position (c : Cause) (s : State) : (raiseFault c s).position = s.position := rfl

@[simp] theorem performReset_sampleRate (s : State) : (performReset s).sampleRate = State.reset.sampleRate := rfl
@[simp] theorem performReset_cpuFreq (s : State) : (performReset s).cpuFreq = State.reset.cpuFreq := rfl
@[simp] theorem performReset_channels (s : State) : (performReset s).channels = State.reset.channels := rfl
@[simp] theorem performReset_runState (s : State) : (performReset s).runState = State.reset.runState := rfl
@[simp] theorem performReset_cause (s : State) : (performReset s).cause = State.reset.cause := rfl
@[simp] theorem performReset_prev (s : State) : (performReset s).prev = State.reset.prev := rfl
@[simp] theorem performReset_lastzo (s : State) : (performReset s).lastzo = State.reset.lastzo := rfl
@[simp] theorem performReset_lastev (s : State) : (performReset s).lastev = State.reset.lastev := rfl
@[simp] theorem performReset_sampleCount (s : State) : (performReset s).sampleCount = State.reset.sampleCount := rfl
@[simp] theorem performReset_crossCount (s : State) : (performReset s).crossCount = State.reset.crossCount := rfl
@[simp] theorem performReset_pulseCount (s : State) : (performReset s).pulseCount = State.reset.pulseCount := rfl
@[simp] theorem performReset_crossOut (s : State) : (performReset s).crossOut = State.reset.crossOut := rfl
@[simp] theorem performReset_pulseOut (s : State) : (performReset s).pulseOut = State.reset.pulseOut := rfl
@[simp] theorem performReset_respOut (s : State) : (performReset s).respOut = State.reset.respOut := rfl
@[simp] theorem performReset_cmdIn (s : State) : (performReset s).cmdIn = s.cmdIn := rfl
@[simp] theorem performReset_position (s : State) : (performReset s).position = s.position := rfl

@[simp] theorem emitCross_sampleRate (e : F64) (s : State) : (emitCross e s).sampleRate = s.sampleRate := rfl
@[simp] theorem emitCross_cpuFreq (e : F64) (s : State) : (emitCross e s).cpuFreq = s.cpuFreq := rfl
@[simp] theorem emitCross_channels (e : F64) (s : State) : (emitCross e s).channels = s.channels := rfl
@[simp] theorem emitCross_runState (e : F64) (s : State) : (emitCross e s).runState = s.runState := rfl
@[simp] theorem emitCross_cause (e : F64) (s : State) : (emitCross e s).cause = s.cause := rfl
@[simp] theorem emitCross_prev (e : F64) (s : State) : (emitCross e s).prev = s.prev := rfl
@[simp] theorem emitCross_lastzo (e : F64) (s : State) : (emitCross e s).lastzo = s.lastzo := rfl
@[simp] theorem emitCross_lastev (e : F64) (s : State) : (emitCross e s).lastev = s.lastev := rfl
@[simp] theorem emitCross_sampleCount (e : F64) (s : State) : (emitCross e s).sampleCount = s.sampleCount := rfl
@[simp] theorem emitCross_crossCount (e : F64) (s : State) : (emitCross e s).crossCount = s.crossCount + 1 := rfl
@[simp] theorem emitCross_pulseCount (e : F64) (s : State) : (emitCross e s).pulseCount = s.pulseCount := rfl
@[simp] theorem emitCross_crossOut (e : F64) (s : State) : (emitCross e s).crossOut = s.crossOut ++ [e] := rfl
@[simp] theorem emitCross_pulseOut (e : F64) (s : State) : (emitCross e s).pulseOut = s.pulseOut := rfl
@[simp] theorem emitCross_respOut (e : F64) (s : State) : (emitCross e s).respOut = s.respOut := rfl
@[simp] theorem emitCross_cmdIn (e : F64) (s : State) : (emitCross e s).cmdIn = s.cmdIn := rfl
@[simp] theorem emitCross_position (e : F64) (s : State) : (emitCross e s).position = s.position := rfl

@[simp] theorem emitPulse_sampleRate (b : Byte) (s : State) : (emitPulse b s).sampleRate = s.sampleRate := rfl
@[simp] theorem emitPulse_cpuFreq (b : Byte) (s : State) : (emitPulse b s).cpuFreq = s.cpuFreq := rfl
@[simp] theorem emitPulse_channels (b : Byte) (s : State) : (emitPulse b s).channels = s.channels := rfl
@[simp] theorem emitPulse_runState (b : Byte) (s : State) : (emitPulse b s).runState = s.runState := rfl
@[simp] theorem emitPulse_cause (b : Byte) (s : State) : (emitPulse b s).cause = s.cause := rfl
@[simp] theorem emitPulse_prev (b : Byte) (s : State) : (emitPulse b s).prev = s.prev := rfl
@[simp] theorem emitPulse_lastzo (b : Byte) (s : State) : (emitPulse b s).lastzo = s.lastzo := rfl
@[simp] theorem emitPulse_lastev (b : Byte) (s : State) : (emitPulse b s).lastev = s.lastev := rfl
@[simp] theorem emitPulse_sampleCount (b : Byte) (s : State) : (emitPulse b s).sampleCount = s.sampleCount := rfl
@[simp] theorem emitPulse_crossCount (b : Byte) (s : State) : (emitPulse b s).crossCount = s.crossCount := rfl
@[simp] theorem emitPulse_pulseCount (b : Byte) (s : State) : (emitPulse b s).pulseCount = s.pulseCount + 1 := rfl
@[simp] theorem emitPulse_crossOut (b : Byte) (s : State) : (emitPulse b s).crossOut = s.crossOut := rfl
@[simp] theorem emitPulse_pulseOut (b : Byte) (s : State) : (emitPulse b s).pulseOut = s.pulseOut ++ [b] := rfl
@[simp] theorem emitPulse_respOut (b : Byte) (s : State) : (emitPulse b s).respOut = s.respOut := rfl
@[simp] theorem emitPulse_cmdIn (b : Byte) (s : State) : (emitPulse b s).cmdIn = s.cmdIn := rfl
@[simp] theorem emitPulse_position (b : Byte) (s : State) : (emitPulse b s).position = s.position := rfl

@[simp] theorem emitResp_sampleRate (v : Word64) (s : State) : (emitResp v s).sampleRate = s.sampleRate := rfl
@[simp] theorem emitResp_cpuFreq (v : Word64) (s : State) : (emitResp v s).cpuFreq = s.cpuFreq := rfl
@[simp] theorem emitResp_channels (v : Word64) (s : State) : (emitResp v s).channels = s.channels := rfl
@[simp] theorem emitResp_runState (v : Word64) (s : State) : (emitResp v s).runState = s.runState := rfl
@[simp] theorem emitResp_cause (v : Word64) (s : State) : (emitResp v s).cause = s.cause := rfl
@[simp] theorem emitResp_prev (v : Word64) (s : State) : (emitResp v s).prev = s.prev := rfl
@[simp] theorem emitResp_lastzo (v : Word64) (s : State) : (emitResp v s).lastzo = s.lastzo := rfl
@[simp] theorem emitResp_lastev (v : Word64) (s : State) : (emitResp v s).lastev = s.lastev := rfl
@[simp] theorem emitResp_sampleCount (v : Word64) (s : State) : (emitResp v s).sampleCount = s.sampleCount := rfl
@[simp] theorem emitResp_crossCount (v : Word64) (s : State) : (emitResp v s).crossCount = s.crossCount := rfl
@[simp] theorem emitResp_pulseCount (v : Word64) (s : State) : (emitResp v s).pulseCount = s.pulseCount := rfl
@[simp] theorem emitResp_crossOut (v : Word64) (s : State) : (emitResp v s).crossOut = s.crossOut := rfl
@[simp] theorem emitResp_pulseOut (v : Word64) (s : State) : (emitResp v s).pulseOut = s.pulseOut := rfl
@[simp] theorem emitResp_respOut (v : Word64) (s : State) : (emitResp v s).respOut = s.respOut ++ [v] := rfl
@[simp] theorem emitResp_cmdIn (v : Word64) (s : State) : (emitResp v s).cmdIn = s.cmdIn := rfl
@[simp] theorem emitResp_position (v : Word64) (s : State) : (emitResp v s).position = s.position := rfl

@[simp] theorem takeCommand_sampleRate (rest : List Byte) (s : State) : (takeCommand rest s).sampleRate = s.sampleRate := rfl
@[simp] theorem takeCommand_cpuFreq (rest : List Byte) (s : State) : (takeCommand rest s).cpuFreq = s.cpuFreq := rfl
@[simp] theorem takeCommand_channels (rest : List Byte) (s : State) : (takeCommand rest s).channels = s.channels := rfl
@[simp] theorem takeCommand_runState (rest : List Byte) (s : State) : (takeCommand rest s).runState = s.runState := rfl
@[simp] theorem takeCommand_cause (rest : List Byte) (s : State) : (takeCommand rest s).cause = s.cause := rfl
@[simp] theorem takeCommand_prev (rest : List Byte) (s : State) : (takeCommand rest s).prev = s.prev := rfl
@[simp] theorem takeCommand_lastzo (rest : List Byte) (s : State) : (takeCommand rest s).lastzo = s.lastzo := rfl
@[simp] theorem takeCommand_lastev (rest : List Byte) (s : State) : (takeCommand rest s).lastev = s.lastev := rfl
@[simp] theorem takeCommand_sampleCount (rest : List Byte) (s : State) : (takeCommand rest s).sampleCount = s.sampleCount := rfl
@[simp] theorem takeCommand_crossCount (rest : List Byte) (s : State) : (takeCommand rest s).crossCount = s.crossCount := rfl
@[simp] theorem takeCommand_pulseCount (rest : List Byte) (s : State) : (takeCommand rest s).pulseCount = s.pulseCount := rfl
@[simp] theorem takeCommand_crossOut (rest : List Byte) (s : State) : (takeCommand rest s).crossOut = s.crossOut := rfl
@[simp] theorem takeCommand_pulseOut (rest : List Byte) (s : State) : (takeCommand rest s).pulseOut = s.pulseOut := rfl
@[simp] theorem takeCommand_respOut (rest : List Byte) (s : State) : (takeCommand rest s).respOut = s.respOut := rfl
@[simp] theorem takeCommand_cmdIn (rest : List Byte) (s : State) : (takeCommand rest s).cmdIn = rest := rfl
@[simp] theorem takeCommand_position (rest : List Byte) (s : State) : (takeCommand rest s).position = s.position + 1 := rfl

@[simp] theorem quantStep_sampleRate (e : F64) (s : State) : (quantStep e s).sampleRate = s.sampleRate := rfl
@[simp] theorem quantStep_cpuFreq (e : F64) (s : State) : (quantStep e s).cpuFreq = s.cpuFreq := rfl
@[simp] theorem quantStep_channels (e : F64) (s : State) : (quantStep e s).channels = s.channels := rfl
@[simp] theorem quantStep_runState (e : F64) (s : State) : (quantStep e s).runState = s.runState := rfl
@[simp] theorem quantStep_cause (e : F64) (s : State) : (quantStep e s).cause = s.cause := rfl
@[simp] theorem quantStep_prev (e : F64) (s : State) : (quantStep e s).prev = s.prev := rfl
@[simp] theorem quantStep_lastzo (e : F64) (s : State) : (quantStep e s).lastzo = s.lastzo := rfl
@[simp] theorem quantStep_lastev (e : F64) (s : State) : (quantStep e s).lastev = some e := rfl
@[simp] theorem quantStep_sampleCount (e : F64) (s : State) : (quantStep e s).sampleCount = s.sampleCount := rfl
@[simp] theorem quantStep_crossCount (e : F64) (s : State) : (quantStep e s).crossCount = s.crossCount := rfl
@[simp] theorem quantStep_pulseCount (e : F64) (s : State) : (quantStep e s).pulseCount = s.pulseCount + 1 := rfl
@[simp] theorem quantStep_crossOut (e : F64) (s : State) : (quantStep e s).crossOut = s.crossOut := rfl
@[simp] theorem quantStep_pulseOut (e : F64) (s : State) : (quantStep e s).pulseOut = s.pulseOut ++ [pulseByte s.cpuFreq e s.lastev] := rfl
@[simp] theorem quantStep_respOut (e : F64) (s : State) : (quantStep e s).respOut = s.respOut := rfl
@[simp] theorem quantStep_cmdIn (e : F64) (s : State) : (quantStep e s).cmdIn = s.cmdIn := rfl
@[simp] theorem quantStep_position (e : F64) (s : State) : (quantStep e s).position = s.position := rfl

end Sys2Proof.Machine
end

