-- ==== Sys2Proof/Laws/Ops.lean ====
section
/-! SUPPORT. What the shared operations can do, said once: checks, faults, the three units. -/

namespace Sys2Proof.Machine

@[simp] theorem unlessFaulted_of_faulted {effect : State → State} {s : State} (h : s.runState = .faulted) :
    unlessFaulted effect s = s := by simp [unlessFaulted, h]

@[simp] theorem unlessFaulted_of_not {effect : State → State} {s : State} (h : s.runState ≠ .faulted) :
    unlessFaulted effect s = effect s := by simp [unlessFaulted, h]

/-- Every check passes exactly when none of them fails. -/
theorem firstFailing_eq_none {checks : List (Bool × Cause)} :
    firstFailing checks = none ↔ ∀ c ∈ checks, c.1 = false := by
  induction checks with
  | nil => simp [firstFailing]
  | cons c cs ih => cases h : c.1 <;> simp [firstFailing, h, ih]

/-- The cause reported is the cause of one of the checks. -/
theorem firstFailing_mem {checks : List (Bool × Cause)} {c : Cause} (h : firstFailing checks = some c) :
    (true, c) ∈ checks := by
  induction checks with
  | nil => simp [firstFailing] at h
  | cons d ds ih =>
    obtain ⟨b, k⟩ := d
    cases b
    · exact List.mem_cons_of_mem _ (ih (by simpa [firstFailing] using h))
    · simp only [firstFailing, if_true, Option.some.injEq] at h
      simp [h]

/-- All that a checked command can do: raise the cause of its first failing check, or have its effect. -/
theorem checked_cases (checks : List (Bool × Cause)) (effect : State → State) (s : State) :
    (∃ c, firstFailing checks = some c ∧ checked checks effect s = raiseFault c s) ∨
      ((∀ c ∈ checks, c.1 = false) ∧ checked checks effect s = effect s) := by
  cases h : firstFailing checks with
  | none => exact .inr ⟨firstFailing_eq_none.1 h, by simp [checked, h]⟩
  | some c => exact .inl ⟨c, rfl, by simp [checked, h]⟩

/-- All that a command under 40_control_ops.md R100 can do: be ignored in FAULTED, fault, or have its effect. -/
theorem unlessFaulted_checked_cases (checks : List (Bool × Cause)) (effect : State → State) (s : State) :
    (s.runState = .faulted ∧ unlessFaulted (checked checks effect) s = s) ∨
    (s.runState ≠ .faulted ∧ ∃ c, (true, c) ∈ checks ∧ unlessFaulted (checked checks effect) s = raiseFault c s) ∨
    (s.runState ≠ .faulted ∧ (∀ c ∈ checks, c.1 = false) ∧ unlessFaulted (checked checks effect) s = effect s) := by
  by_cases h : s.runState = .faulted
  · exact .inl ⟨h, unlessFaulted_of_faulted h⟩
  · rw [unlessFaulted_of_not h]
    rcases checked_cases checks effect s with ⟨c, hc, he⟩ | ⟨hn, he⟩
    · exact .inr (.inl ⟨h, c, firstFailing_mem hc, he⟩)
    · exact .inr (.inr ⟨h, hn, he⟩)

/-- All that the detector writes (42_zero_crossing_detector.md R147): PREV, and LASTZO when there was a PREV. -/
theorem detectWrite_eq (a : F64) (s : State) :
    detectWrite a s = { s with prev := some a, lastzo := (detectWrite a s).lastzo } := by
  cases h : s.prev <;> simp [detectWrite, h]

@[simp] theorem detectWrite_lastzo_none {a : F64} {s : State} (h : s.prev = none) :
    (detectWrite a s).lastzo = s.lastzo := by simp [detectWrite, h]

@[simp] theorem detectWrite_lastzo_some {a p : F64} {s : State} (h : s.prev = some p) :
    (detectWrite a s).lastzo = heldOffset p a s.lastzo := by simp [detectWrite, h]

/-- All that an accepted sample can do (44_sample_ops.md R181): the scan's writes alone, or those and one event with its
Pulse Byte. -/
theorem sampleStep_cases (a : F64) (t : Word64) (s : State) :
    (detectEvent a t s = none ∧
      sampleStep a t s = { s with
        runState := .running
        sampleCount := s.sampleCount + 1
        prev := some a
        lastzo := (detectWrite a s).lastzo }) ∨
    ∃ e, detectEvent a t s = some e ∧
      sampleStep a t s = { s with
        runState := .running
        sampleCount := s.sampleCount + 1
        prev := some a
        lastzo := (detectWrite a s).lastzo
        lastev := some e
        crossOut := s.crossOut ++ [e]
        crossCount := s.crossCount + 1
        pulseOut := s.pulseOut ++ [pulseByte s.cpuFreq e s.lastev]
        pulseCount := s.pulseCount + 1 } := by
  cases h : detectEvent a t s with
  | none =>
    refine .inl ⟨rfl, ?_⟩
    cases hp : s.prev <;> simp [sampleStep, emitEvent, h, detectWrite, hp]
  | some e =>
    refine .inr ⟨e, rfl, ?_⟩
    cases hp : s.prev <;> simp [sampleStep, emitEvent, h, detectWrite, hp, quantStep, emitPulse, emitCross]

end Sys2Proof.Machine
end

