-- ==== Sys2Proof/Laws/Overflow.lean ====
section
/-! SUPPORT. Where the one rounding of the arithmetic answers an infinity (00_scope.md R10). -/

namespace Sys2Proof.Machine

theorem overflowUnits_eq : overflowUnits = (2 ^ 54 - 1) * 2 ^ 970 * oneUnits := by unfold overflowUnits; rfl

/-- Halfway past the largest finite magnitude, twice over: 2^54 − 1 (18014398509481983) units of
its last place. -/
theorem two_mul_overflowUnits : 2 * overflowUnits = 18014398509481983 * 2 ^ 2045 := by
  rw [overflowUnits_eq, oneUnits_eq]
  decide +kernel

/-- A magnitude from halfway past the largest finite one on rounds to an infinity. -/
theorem roundMag_of_overflow {num den : Nat} (hd : 0 < den) (h : overflowUnits * den ≤ num) :
    roundMag num den = infMag := by
  have top : roundMag overflowUnits 1 = infMag := by
    rw [overflowUnits_eq, oneUnits_eq]
    decide +kernel
  refine Nat.le_antisymm (roundMag_le_infMag _ _) ?_
  rw [← top]
  exact roundMag_mono (by decide) hd (by omega)

/-- Below `2^54 − 1` halves of the unit `2^E`, the rounded significand `k` stands at the place `E` or a lower one, and at
`E` it keeps 53 bits. -/
theorem significand_below {num den E S k ov : Nat} (hd : 0 < den) (hov : 2 * ov = 18014398509481983 * 2 ^ E)
    (h : num < ov * den) (hS : S = ulpShift (num / den)) (hk : k = divRoundEven num (den * 2 ^ S)) (hk53 : k ≤ 2 ^ 53)
    (hlt : num / (den * 2 ^ S) < 2 ^ 53) : S < E ∨ (S = E ∧ k < 2 ^ 53) := by
  have hSE : S ≤ E := by
    have hle : ov ≤ 2 ^ 53 * 2 ^ E := by linarith
    clear hov hk hlt
    have hq : num / den < 2 ^ (53 + E) := by
      rw [Nat.div_lt_iff_lt_mul hd, Nat.pow_add]
      exact Nat.lt_of_lt_of_le h (Nat.mul_le_mul_right den hle)
    rw [hS, ulpShift]
    by_cases hz : num / den = 0
    · simp [hz]
    · have := (Nat.log2_lt hz).2 hq
      omega
  rcases Nat.lt_or_eq_of_le hSE with hs | rfl
  · exact .inl hs
  · refine .inr ⟨rfl, Nat.lt_of_le_of_ne hk53 fun he => ?_⟩
    have htwo : 2 * (ov * den) = 18014398509481983 * (den * 2 ^ S) := by
      rw [← Nat.mul_assoc, hov]; ring
    have hdm := Nat.div_add_mod num (den * 2 ^ S)
    rw [he, divRoundEven] at hk
    clear hov hS
    generalize den * 2 ^ S = D at *
    have hq : num / D = 9007199254740991 ∧ D ≤ 2 * (num % D) := by
      clear htwo hdm h
      split at hk <;> omega
    rw [hq.1] at hdm
    have := hq.2
    linarith

/-- A magnitude below halfway past the largest finite one rounds to a finite one. -/
theorem roundMag_lt_infMag {num den : Nat} (hd : 0 < den) (h : num < overflowUnits * den) :
    roundMag num den < infMag := by
  obtain ⟨S, k, hk, hk53, _, _, hlt, hS, hr⟩ := roundMag_grid (num := num) (den := den)
  have hbelow := significand_below hd two_mul_overflowUnits h hS hk hk53 hlt
  have hinf : infMag = 2047 * 2 ^ 52 := by decide
  clear hk hlt hS h
  omega

/-- The one rounding overflows exactly from halfway past the largest finite magnitude on. -/
theorem roundMag_lt_infMag_iff {num den : Nat} (hd : 0 < den) :
    roundMag num den < infMag ↔ num < overflowUnits * den := by
  refine ⟨fun h => ?_, roundMag_lt_infMag hd⟩
  by_contra hc
  rw [roundMag_of_overflow hd (by omega)] at h
  exact Nat.lt_irrefl _ h

end Sys2Proof.Machine
end

