-- ==== Sys2Proof/Laws/PerInstr.lean ====
section
/-! SUPPORT. Families of facts about each command as syntax, one lemma per constructor. -/

namespace Sys2Proof.Laws.EncodedLength

/-- A command's encoding begins with its opcode byte and is exactly as long as its opcode's format says
(30_encoding.md R71, R73, R77). -/
def Statement (i : Instr) : Prop :=
  (encode i).head? = some i.opcode.byte ∧ (encode i).length = i.opcode.format.length

/-- The first byte that `encode` writes is the opcode byte: every operand field lies above bit 7 (30_encoding.md R72). -/
theorem head_encode (i : Instr) (n : Nat) (h : i.operandBits = n * 2 ^ 8) : (encode i).head? = some i.opcode.byte := by
  obtain ⟨k, hk⟩ : ∃ k, i.opcode.format.length = k + 1 := ⟨_, (Nat.succ_pred_eq_of_pos (format_length_pos _)).symm⟩
  rw [encode, hk, leBytes, List.head?_cons, h]
  congr 1
  apply BitVec.eq_of_toNat_eq
  have := i.opcode.byte.isLt
  rw [BitVec.toNat_ofNat]
  omega

theorem reset : Statement .reset := ⟨head_encode _ 0 rfl, length_encode _⟩

theorem setRate (rate : Word32) : Statement (.setRate rate) := ⟨head_encode _ _ rfl, length_encode _⟩

theorem setChannels (ch : Byte) : Statement (.setChannels ch) := ⟨head_encode _ _ rfl, length_encode _⟩

theorem setCpufreq (freq : F64) : Statement (.setCpufreq freq) := ⟨head_encode _ _ rfl, length_encode _⟩

theorem sampleMono (a : F64) : Statement (.sampleMono a) := ⟨head_encode _ _ rfl, length_encode _⟩

theorem sampleStereo (a0 a1 : F64) : Statement (.sampleStereo a0 a1) :=
  ⟨head_encode _ (a0.toNat + a1.toNat * 2 ^ 64) (by simp only [Instr.operandBits]; omega), length_encode _⟩

theorem endStream : Statement .endStream := ⟨head_encode _ 0 rfl, length_encode _⟩

theorem readReg (idx : Byte) : Statement (.readReg idx) := ⟨head_encode _ _ rfl, length_encode _⟩

end Sys2Proof.Laws.EncodedLength
end

