-- ==== Sys2Proof/Laws/Run.lean ====
section
/-! SUPPORT. How the host's run of several steps unfolds by one. -/

namespace Sys2Proof.Machine

/-- A run of one more step begins with that step, on any machine. -/
theorem run_succ_of_next (M : Host.Core) (k : Nat) (s t : M.State) (h : M.step s = .next t) :
    M.run (k + 1) s = M.run k t := by
  rw [Host.Core.run, h]

/-- A run of one more step begins with that step, on this machine. -/
theorem core_run_succ (k : Nat) (s t : State) (h : step s = .next t) :
    Host.Core.run Sys2Proof.core (k + 1) s = Host.Core.run Sys2Proof.core k t :=
  run_succ_of_next Sys2Proof.core k s t h

end Sys2Proof.Machine
end

