-- ==== Sys2Proof/Laws/Transport.lean ====
section
/-! SUPPORT. What the byte form of the output streams does under the emits. -/

namespace Sys2Proof.Machine

@[simp] theorem length_wordBytes (v : Word64) : (wordBytes v).length = 8 := length_leBytes _ _

/-- The bytes of a word read back to it (20_memory.md R54). -/
@[simp] theorem leNat_wordBytes (v : Word64) : leNat (wordBytes v) = v.toNat := by
  rw [wordBytes, leNat_leBytes]
  exact Nat.mod_eq_of_lt v.isLt

/-- An emitted response is eight more bytes at the end of RESP_OUT's. -/
@[simp] theorem respOutBytes_emitResp (v : Word64) (s : State) :
    (emitResp v s).respOutBytes = s.respOutBytes ++ wordBytes v := by
  simp [State.respOutBytes, emitResp, List.flatMap_append]

/-- An emitted event is eight more bytes at the end of CROSS_OUT's. -/
@[simp] theorem crossOutBytes_emitCross (e : F64) (s : State) :
    (emitCross e s).crossOutBytes = s.crossOutBytes ++ wordBytes e := by
  simp [State.crossOutBytes, emitCross, List.flatMap_append]

end Sys2Proof.Machine
end

