-- ==== Sys2Proof/Tests/Slice0.lean ====
section
/-! SUPPORT. The model's own tests, with expected values from the tables of the spec, and for each statement with
hypotheses a witness that they can be met. Patterns of decimals were converted by hand from the spec's tables. -/

open Sys2Proof Sys2Proof.Machine

namespace Sys2Proof.Tests.Slice0

/-! ### Helpers -/

/-- The reset state with a different STATUS.STATE. -/
def inState (r : RunState) : State := { State.reset with runState := r }

/-- A block configured for `ch` channels at `sr`, with the frequency 8000000.0, for which the scale factor is 1.0. -/
def ready (ch : Byte) (sr : Word32) : State :=
  { State.reset with channels := ch, sampleRate := sr, cpuFreq := 0x415E848000000000 }

/-- A running block that has accepted `n` samples. -/
def scanning (ch : Byte) (sr : Word32) (n : Word64) (prev lastzo : Option F64) : State :=
  { ready ch sr with runState := .running, sampleCount := n, prev := prev, lastzo := lastzo }

/-- −1.0. -/
def minusOne : F64 := 0xBFF0000000000000

/-- 1.0. -/
def one : F64 := 0x3FF0000000000000

/-- 0.5. -/
def half : F64 := 0x3FE0000000000000

/-- A quiet NaN. -/
def aNaN : F64 := 0x7FF8000000000000

/-- Scenario A after its fourth sample (95_test_vectors.md, program P1). -/
def scenarioA : State :=
  { State.reset with
    channels := 1, sampleRate := 4, runState := .running, sampleCount := 4, prev := some one, lastzo := some half,
    lastev := some 0x4126E36000000000, crossCount := 1, pulseCount := 1, crossOut := [0x4126E36000000000],
    pulseOut := [0] }

/-- The sample matrix of Scenario A. -/
def rowsA : List SampleRow := [.mono minusOne, .mono one, .mono minusOne, .mono one]

/-- Whether a step or a command answers exactly this next state. -/
def answers (o : Host.Outcome State Fault Refusal) (t : State) : Bool :=
  match o with
  | .next u => decide (u = t)
  | _ => false

theorem next_of_answers {o : Host.Outcome State Fault Refusal} {t : State} (h : answers o t = true) : o = .next t := by
  cases o with
  | next u => rw [of_decide_eq_true h]
  | fault r => cases h
  | refused r => cases h

/-! ### Well-formedness: an ill-formed line for each check, and the largest operand that passes -/

theorem test_setRate_too_large : (AsmCommand.setRate 4294967296).wellFormed = false := by decide
theorem test_setRate_largest : (AsmCommand.setRate 4294967295).wellFormed = true := by decide
theorem test_setChannels_too_large : (AsmCommand.setChannels 256).wellFormed = false := by decide
theorem test_readReg_too_large : (AsmCommand.readReg (.index 256)).wellFormed = false := by decide
theorem test_config_channels_too_large : (AsmCommand.config 256 4).wellFormed = false := by decide
theorem test_config_rate_too_large : (AsmCommand.config 1 4294967296).wellFormed = false := by decide
theorem test_configFreq_channels_too_large : (AsmCommand.configFreq 256 4 .nan).wellFormed = false := by decide
theorem test_configFreq_rate_too_large : (AsmCommand.configFreq 1 4294967296 .nan).wellFormed = false := by decide
theorem test_samples_empty : (AsmCommand.samples []).wellFormed = false := by decide
theorem test_streamMono_rate_too_large : (AsmCommand.streamMono 4294967296 []).wellFormed = false := by decide
theorem test_ill_formed_line_not_encoded : assemble [.reset, .setChannels 256] = none := by decide

/-! ### Decoding: words written out from 30_encoding.md R73 and 95_test_vectors.md 2.1 -/

theorem test_decode_reset : decodeNext [0x01] = some (.command .reset []) := by decide
theorem test_decode_setRate : decodeNext [0x02, 0x40, 0x42, 0x0F, 0x00] = some (.command (.setRate 1000000) []) := by
  decide
theorem test_decode_setChannels : decodeNext [0x03, 0x03] = some (.command (.setChannels 3) []) := by decide
theorem test_decode_setCpufreq : decodeNext [0x04, 0x00, 0x00, 0x00, 0x00, 0x40, 0x11, 0x2E, 0x41] =
    some (.command (.setCpufreq 0x412E114000000000) []) := by decide
theorem test_decode_sampleMono : decodeNext [0x10, 0x2B, 0x87, 0x16, 0xD9, 0xCE, 0xF7, 0xEF, 0xBF] =
    some (.command (.sampleMono 0xBFEFF7CED916872B) []) := by decide
theorem test_decode_sampleStereo : decodeNext
    [0x11, 0x00, 0x00, 0x00, 0x00, 0x00, 0x00, 0x10, 0xC0, 0x00, 0x00, 0x00, 0x00, 0x00, 0x00, 0x00, 0x40, 0x20] =
    some (.command (.sampleStereo 0xC010000000000000 0x4000000000000000) [0x20]) := by decide
theorem test_decode_end : decodeNext [0x20] = some (.command .endStream []) := by decide
theorem test_decode_readReg : decodeNext [0x30, 0xC8] = some (.command (.readReg 200) []) := by decide

theorem test_decode_after_illegal : decodeAll [0x00, 0x30, 0x03] =
    [.invalid .illegalOpcode [0x30, 0x03], .command (.readReg 3) []] := by decide
theorem test_decode_truncated : decodeNext [0x02, 0x44, 0xAC] = some (.invalid .truncatedCommand []) := by decide
theorem test_illegal_opcodes :
    [0x05, 0x0F, 0x12, 0x1F, 0x21, 0x2F, 0x31, 0xFF].all (fun b => (opcodeOf (BitVec.ofNat 8 b)).isNone) = true := by
  decide

/-- Every byte of a table word in its place: SET_RATE 44100 is `02 44 AC 00 00`. -/
theorem test_table_word : decodeTableWord 40 0x0000AC4402 = some (.setRate 44100) := by decide
/-- A table word of 8 bits has operands of zeros. -/
theorem test_table_word_short : decodeTableWord 8 0x11 = some (.sampleStereo 0 0) := by decide
theorem test_table_word_illegal : decodeTableWord 8 0x31 = none := by decide
/-- The word placed is the command the next step performs, and the step takes exactly it. -/
theorem test_withFetchWord : step (State.reset.withFetchWord 40 0x0000AC4402) =
    .next { State.reset with sampleRate := 44100, position := 1 } :=
  next_of_answers (by decide)

/-! ### The assembler (30_encoding.md R78 to R80; 95_test_vectors.md) -/

theorem test_assemble :
    assembleText ["sample -1.0".toList] = some [0x10, 0x00, 0x00, 0x00, 0x00, 0x00, 0x00, 0xF0, 0xBF] ∧
    assembleText ["config 2, 44100".toList, "status".toList] =
      some [0x03, 0x02, 0x02, 0x44, 0xAC, 0x00, 0x00, 0x30, 0x03] ∧
    assembleText ["stream_mono 4, []".toList] = some [0x01, 0x03, 0x01, 0x02, 0x04, 0x00, 0x00, 0x00, 0x20] := by
  decide +kernel
/-- A decimal, a `uint` and a NaN; a power of ten has one significant digit: 1e-6, and 1e23, which is next to digits of 9
(30_encoding.md R78). -/
theorem test_disassemble : showInstr (.sampleMono 0x3FB999999999999A) = "sample 1e-1".toList ∧
    showInstr (.sampleMono millionth) = "sample 1e-6".toList ∧
    showInstr (.sampleMono 0x44B52D02C7E14AF6) = "sample 1e23".toList ∧
    showInstr (.setRate 44100) = "set_rate 44100".toList ∧
    showInstr (.setCpufreq aNaN) = "set_cpufreq 0d7ff8000000000000".toList := by decide +kernel

/-! ### Byte order -/

/-- RESP_OUT's 0x903 and CROSS_OUT's −1.0 as bytes, least significant first (20_memory.md R54). -/
theorem test_stream_bytes :
    ({ State.reset with respOut := [0x903], crossOut := [minusOne] } : State).respOutBytes = [0x03, 0x09, 0, 0, 0, 0, 0, 0] ∧
    ({ State.reset with respOut := [0x903], crossOut := [minusOne] } : State).crossOutBytes =
      [0, 0, 0, 0, 0, 0, 0xF0, 0xBF] := by decide

/-! ### Arithmetic -/

/-- Halfway past the largest finite value lies half a unit of its last place beyond it. -/
theorem test_overflowUnits : 2 * overflowUnits + unitsOf 0x7FEFFFFFFFFFFFFE = 3 * unitsOf 0x7FEFFFFFFFFFFFFF := by
  decide +kernel

/-- 95_test_vectors.md 2.3: the sum 2^53 + 1 rounds to 2^53, a tie, before the halving; the sum of two of the largest
finite values overflows; opposite channels cancel to +0.0. -/
theorem test_downmix : downmix (.stereo 0x4340000000000000 one) = 0x4330000000000000 ∧
    isFinite (downmix (.stereo 0x7FEFFFFFFFFFFFFF 0x7FEFFFFFFFFFFFFF)) = false ∧
    downmix (.stereo 0x4000000000000000 0xC000000000000000) = 0 := by decide +kernel
/-- 41_sample_downmixer.md R126: not the exact quotient 2010000. 95_test_vectors.md 2.3: the largest index accepted at the
largest rate; the last index below 2^64 microseconds at rate 1, and the first at it. -/
theorem test_timestamp : timestamp 88641 44100 = 2009999 ∧
    timestamp 9007199254740991 4294967295 = 2097152000488 ∧ timestampOverflows 18446744073709 1 = false ∧
    timestamp 18446744073709 1 = 18446744073709000704 ∧ timestampOverflows 18446744073710 1 = true := by decide +kernel
/-- 95_test_vectors.md 2.4: the pair −1.0, 2.0 has the offset 0.3333333333333333 and qualifies; −0.0 and 0.0 are equal, so
they have no offset; −0.0 is nonnegative. By 42_zero_crossing_detector.md R142 (log entry 10), a qualifying pair has an
offset that underflows to +0.0. -/
theorem test_offset : crossingOffset minusOne 0x4000000000000000 = some 0x3FD5555555555555 ∧
    qualifies minusOne 0x4000000000000000 = true ∧ crossingOffset 0x8000000000000000 0 = none ∧
    qualifies minusOne 0x8000000000000000 = true ∧ qualifies 0x8000000000000000 one = false ∧
    crossingOffset 0x8000000000000001 0x7E37E43C8800759C = some 0 ∧
    isFinite (fsub 0x8000000000000001 0x7E37E43C8800759C) = true := by decide +kernel
/-- 95_test_vectors.md 1.7: the scale factor at the default frequency and at 8000000.0. By 43_pulse_quantizer.md R161 (log
entry 10), the largest subnormal frequency has one above +0.0. -/
theorem test_scale_factor : scaleFactor Config.cpuFreqDefault = 0x3FBF8726D04E618C ∧
    scaleFactor 0x415E848000000000 = one ∧ fgt (scaleFactor 0x000FFFFFFFFFFFFF) posZero = true := by decide +kernel
/-- 43_pulse_quantizer.md R165: 8.0 is below one unit, 2070.544675046283 scales to 255.0, the next value above it, and
−5.0 gives 0. -/
theorem test_pulse_bytes : quantize Config.cpuFreqDefault 0x4020000000000000 = 0 ∧
    quantize Config.cpuFreqDefault 0x40A02D16DFA5CD77 = 255 ∧
    quantize Config.cpuFreqDefault 0x40A02D16DFA5CD78 = 0 ∧
    quantize Config.cpuFreqDefault 0xC014000000000000 = 0 := by decide +kernel

/-! ### One step of each command (95_test_vectors.md 2.2, 2.6 and the programs) -/

theorem test_reset_from_faulted :
    step { scenarioA with runState := .faulted, cause := .arityMismatch, cmdIn := [0x01] } =
      .next { State.reset with position := 1 } :=
  next_of_answers (by decide)
theorem test_setRate_zero : exec (.setRate 0) State.reset =
    .next { State.reset with runState := .faulted, cause := .badRate } :=
  next_of_answers (by decide)

theorem test_setRate_locked : exec (.setRate 8) scenarioA =
    .next { scenarioA with runState := .faulted, cause := .configLocked } :=
  next_of_answers (by decide)

theorem test_setChannels_three : exec (.setChannels 3) State.reset =
    .next { State.reset with runState := .faulted, cause := .badChannels } :=
  next_of_answers (by decide)

theorem test_setCpufreq_minus_zero : exec (.setCpufreq 0x8000000000000000) State.reset =
    .next { State.reset with runState := .faulted, cause := .badCpufreq } :=
  next_of_answers (by decide)

theorem test_setCpufreq_subnormal : exec (.setCpufreq 1) State.reset = .next { State.reset with cpuFreq := 1 } :=
  next_of_answers (by decide)

theorem test_end_unconfigured : exec .endStream State.reset = .next (inState .ended) :=
  next_of_answers (by decide)

theorem test_end_twice : exec .endStream (inState .ended) =
    .next { State.reset with runState := .faulted, cause := .afterEnd } :=
  next_of_answers (by decide)

theorem test_readReg_status : exec (.readReg 3) { State.reset with runState := .faulted, cause := .arityMismatch } =
    .next { State.reset with runState := .faulted, cause := .arityMismatch, respOut := [0x903] } :=
  next_of_answers (by decide)
theorem test_readReg_seven : exec (.readReg 7) State.reset =
    .next { State.reset with runState := .faulted, cause := .badRegister } :=
  next_of_answers (by decide)

/-- Program P1's last sample emits 750000.0 and the byte 0. -/
theorem test_sampleMono_event :
    exec (.sampleMono one)
      { scenarioA with
        sampleCount := 3, prev := some minusOne, lastev := none, crossCount := 0, pulseCount := 0, crossOut := [],
        pulseOut := [] } = .next scenarioA :=
  next_of_answers (by decide +kernel)

/-- Value before timestamp (95_test_vectors.md 2.6). -/
theorem test_sampleMono_check_order :
    exec (.sampleMono aNaN) (scanning 1 1 18446744073710 (some one) none) =
      .next { scanning 1 1 18446744073710 (some one) none with runState := .faulted, cause := .nonfiniteSample } :=
  next_of_answers (by decide +kernel)

/-- Program P11's last sample: the mean 2.0 after −1.0 emits 2.8333333333333335. -/
theorem test_sampleStereo_event :
    exec (.sampleStereo 0x4018000000000000 0xC000000000000000) (scanning 2 1000000 3 (some minusOne) (some half)) =
      .next { scanning 2 1000000 4 (some 0x4000000000000000) (some 0x3FD5555555555555) with
        lastev := some 0x4006AAAAAAAAAAAB, crossCount := 1, pulseCount := 1, crossOut := [0x4006AAAAAAAAAAAB],
        pulseOut := [0] } :=
  next_of_answers (by decide +kernel)
theorem test_sampleStereo_arity : exec (.sampleStereo one one) (ready 1 4) =
    .next { ready 1 4 with runState := .faulted, cause := .arityMismatch } :=
  next_of_answers (by decide)
/-- An illegal opcode faults in RUNNING and is ignored in FAULTED (40_control_ops.md R107). -/
theorem test_invalid_faults : step { scenarioA with cmdIn := [0x00, 0x30] } =
    .next { scenarioA with cmdIn := [0x30], position := 1, runState := .faulted, cause := .illegalOpcode } :=
  next_of_answers (by decide)

/-- 95_test_vectors.md 1.2: the TAP file of an empty stream. -/
theorem test_tap_empty : tapFile (inState .ended) = some [0x43, 0x36, 0x34, 0x2D, 0x54, 0x41, 0x50, 0x45, 0x2D, 0x52,
    0x41, 0x57, 0x00, 0x00, 0x00, 0x00, 0x00, 0x00, 0x00, 0x00] := by decide

/-! ### Witnesses: the hypotheses of each statement can be met -/

theorem witness_DecodeOfEncodeIsTheCommand : (Instr.sampleStereo 0 0xFFFFFFFFFFFFFFFF).wellFormed = true := by decide
theorem witness_DecodedBytesAreTheEncoding :
    decodeNext [0x30, 0x06, 0x20] = some (.command (.readReg 6) [0x20]) := by decide
theorem witness_DecoderIsTotalOnByteStrings : ([0x10, 0x00] : List Byte) ≠ [] := by decide
/-- The byte at each end of each range of illegal opcodes, and a legal byte beside each. -/
theorem witness_IllegalOpcodeUsesOneByte :
    ([0x00, 0x05, 0x0F, 0x12, 0x1F, 0x21, 0x2F, 0x31, 0xFF] : List Byte).all
      (fun b => decide (decodeNext [b, 0x01] = some (.invalid .illegalOpcode [0x01]))) = true ∧
    ([0x01, 0x04, 0x10, 0x11, 0x20, 0x30] : List Byte).all
      (fun b => decide (decodeNext [b, 0x01] ≠ some (.invalid .illegalOpcode [0x01]))) = true := by decide
theorem witness_CutOffCommandIsTruncated : 0 < 16 ∧ 16 < (encode (.sampleStereo 0 0)).length := by decide
theorem witness_AssembledLinesDecode :
    (∀ c ∈ [AsmCommand.setChannels 255, .setRate 4294967295], c.wellFormed = true) ∧
    (∃ c ∈ [AsmCommand.reset, .setChannels 256], c.wellFormed = false) ∧
    assemble [.reset] = some [0x01] ∧ assemble [.status] = some [0x30, 0x03] ∧
    assemble [.config 256 4] = none ∧ 255 < 256 ∧ 4294967295 < 4294967296 := by decide
theorem witness_StepRunsTheDecodedCommand :
    decodeNext ({ State.reset with cmdIn := [0x20, 0x01] } : State).cmdIn = some (.command .endStream [0x01]) ∧
      Instr.endStream.wellFormed = true := by decide
theorem witness_StepPerformsInvalidVerdicts :
    decodeNext ({ inState .ended with cmdIn := [0x00] } : State).cmdIn = some (.invalid .illegalOpcode []) ∧
    (inState .ended).runState ≠ .faulted ∧
    decodeNext ({ inState .faulted with cmdIn := [0x30] } : State).cmdIn = some (.invalid .truncatedCommand []) ∧
    (inState .faulted).runState = .faulted := by decide
theorem witness_EveryStepCompletes : State.reset.cmdIn = [] ∧ ({ State.reset with cmdIn := [0x00] } : State).cmdIn ≠ [] := by
  decide
theorem witness_SetRateWritesTheRateInIdle :
    (State.reset.runState = .idle ∧ (1 : Word32) ≠ 0 ∧ (0xFFFFFFFF : Word32) ≠ 0) ∧
    (scenarioA.runState = .running ∨ scenarioA.runState = .ended) ∧
    ((inState .ended).runState = .running ∨ (inState .ended).runState = .ended) ∧
    (inState .faulted).runState = .faulted := by decide
theorem witness_SetChannelsWritesOneOrTwoInIdle :
    State.reset.runState = .idle ∧ ((1 : Byte) = 1 ∨ (1 : Byte) = 2) ∧ ((2 : Byte) = 1 ∨ (2 : Byte) = 2) ∧
    ((0 : Byte) ≠ 1 ∧ (0 : Byte) ≠ 2) ∧ ((3 : Byte) ≠ 1 ∧ (3 : Byte) ≠ 2) ∧
    (scenarioA.runState = .running ∨ scenarioA.runState = .ended) ∧ (inState .faulted).runState = .faulted := by decide
theorem witness_SetCpufreqWritesPositiveFiniteInIdle :
    State.reset.runState = .idle ∧
    (0 < (0x0000000000000001 : F64).toNat ∧ (0x0000000000000001 : F64).toNat < 0x7FF0000000000000) ∧
    (0 < (0x7FEFFFFFFFFFFFFF : F64).toNat ∧ (0x7FEFFFFFFFFFFFFF : F64).toNat < 0x7FF0000000000000) ∧
    ((0 : F64).toNat = 0 ∨ 0x7FF0000000000000 ≤ (0 : F64).toNat) ∧
    ((0x7FF0000000000000 : F64).toNat = 0 ∨ 0x7FF0000000000000 ≤ (0x7FF0000000000000 : F64).toNat) ∧
    (scenarioA.runState = .running ∨ scenarioA.runState = .ended) ∧ (inState .faulted).runState = .faulted := by decide
theorem witness_EndClosesTheStream :
    (State.reset.runState = .idle ∨ State.reset.runState = .running) ∧
    (({ scenarioA with pulseCount := 4294967295 } : State).runState = .idle ∨
      ({ scenarioA with pulseCount := 4294967295 } : State).runState = .running) ∧
    ({ scenarioA with pulseCount := 4294967295 } : State).pulseCount.toNat ≤ 2 ^ 32 - 1 ∧
    2 ^ 32 - 1 < ({ scenarioA with pulseCount := 4294967296 } : State).pulseCount.toNat ∧
    (inState .ended).runState = .ended ∧ (inState .faulted).runState = .faulted := by decide
theorem witness_ReadRegEmitsTheRegister :
    (6 : Byte) < 7 ∧ (6 : Byte) < 255 ∧ ¬ (6 : Byte) < 6 ∧ scenarioA.runState ≠ .faulted ∧
      (inState .faulted).runState = .faulted := by decide
theorem witness_ConfiguringTwiceIsConfiguringOnce :
    IsSetCommand (.setRate 4) ∧ exec (.setRate 4) State.reset = .next { State.reset with sampleRate := 4 } :=
  ⟨.inl ⟨4, rfl⟩, next_of_answers (by decide)⟩
theorem witness_FaultedIgnoresAllButResetAndReads :
    (inState .faulted).runState = .faulted ∧ (6 : Byte) ≤ 6 ∧ Instr.readReg 7 ≠ .reset ∧
      (∀ idx : Byte, Instr.readReg 7 = .readReg idx → 6 < idx) ∧ Instr.endStream ≠ .reset ∧
      (∀ idx : Byte, Instr.endStream = .readReg idx → 6 < idx) :=
  ⟨rfl, by decide, by decide, by rintro idx ⟨⟩; decide, by decide, by rintro idx ⟨⟩⟩
theorem witness_FaultsWriteStatusAlone :
    scenarioA.runState ≠ .faulted ∧
      exec (.setRate 8) scenarioA = .next { scenarioA with runState := .faulted, cause := .configLocked } ∧
      ({ scenarioA with runState := .faulted, cause := .configLocked } : State).runState = .faulted :=
  ⟨by decide, next_of_answers (by decide), rfl⟩
theorem witness_FirstCauseSticksUntilReset :
    (inState .faulted).runState = .faulted ∧
    step { inState .faulted with cmdIn := [0x20] } = .next { inState .faulted with position := 1 } ∧
    ∀ rest, decodeNext ({ inState .faulted with cmdIn := [0x20] } : State).cmdIn ≠ some (.command .reset rest) := by
  refine ⟨rfl, next_of_answers (by decide), fun rest h => ?_⟩
  have hd : decodeNext ({ inState .faulted with cmdIn := [0x20] } : State).cmdIn = some (.command .endStream []) := by decide
  rw [hd] at h
  cases h
/-- A command for each row of the transition table, from IDLE, RUNNING and FAULTED. -/
theorem witness_StateMovesOnlyAsTabled :
    exec .reset (inState .faulted) = .next State.reset ∧
    exec .endStream (inState .faulted) = .next (inState .faulted) ∧
    exec (.readReg 6) State.reset = .next { State.reset with respOut := [0] } ∧
    exec (.readReg 7) State.reset = .next { State.reset with runState := .faulted, cause := .badRegister } ∧
    exec (.setChannels 2) State.reset = .next { State.reset with channels := 2 } ∧
    exec (.sampleMono one) (ready 1 4) = .next (scanning 1 4 1 (some one) none) ∧
    exec .endStream State.reset = .next (inState .ended) :=
  ⟨next_of_answers (by decide), next_of_answers (by decide), next_of_answers (by decide),
    next_of_answers (by decide), next_of_answers (by decide), next_of_answers (by decide +kernel),
    next_of_answers (by decide)⟩
/-- For each check of a sample, a state and a row that fail it and pass the ones before it. -/
theorem witness_SampleReportsItsFirstFailingCheck :
    (inState .ended).runState = .ended ∧
    (State.reset.runState ≠ .ended ∧ (State.reset.sampleRate = 0 ∨ State.reset.channels = 0)) ∧
    (¬ ((ready 2 4).sampleRate = 0 ∨ (ready 2 4).channels = 0) ∧ (ready 2 4).channels ≠ arityOf (.mono aNaN)) ∧
    ((ready 1 4).channels = arityOf (.mono aNaN) ∧ rowIsFinite (.mono aNaN) = false) ∧
    (rowIsFinite (.stereo 0x7FEFFFFFFFFFFFFF 0x7FEFFFFFFFFFFFFF) = true ∧
      isFinite (downmix (.stereo 0x7FEFFFFFFFFFFFFF 0x7FEFFFFFFFFFFFFF)) = false) ∧
    (isFinite (downmix (.mono one)) = true ∧
      2 ^ 53 ≤ (scanning 1 0xFFFFFFFF 9007199254740992 (some one) none).sampleCount.toNat) ∧
    (¬ 2 ^ 53 ≤ (scanning 1 1 18446744073710 (some one) none).sampleCount.toNat ∧
      flt (fmul (fdiv (f64OfNat 18446744073710) (f64OfNat 1)) million) twoTo64 = false) ∧
    flt (fmul (fdiv (f64OfNat 18446744073709) (f64OfNat 1)) million) twoTo64 = true := by decide +kernel
theorem witness_ConfigurationChangesOnlyInIdle :
    exec (.readReg 0) scenarioA = .next { scenarioA with respOut := [4] } ∧ Instr.readReg 0 ≠ .reset ∧
      scenarioA.runState ≠ .idle :=
  ⟨next_of_answers (by decide), by decide, by decide⟩
theorem witness_StreamsOnlyGrowUntilReset :
    exec (.readReg 6) scenarioA = .next { scenarioA with respOut := [1] } ∧ Instr.readReg 6 ≠ .reset :=
  ⟨next_of_answers (by decide), by decide⟩
theorem witness_EventAndPulseComeTogether :
    exec .endStream scenarioA = .next { scenarioA with runState := .ended } ∧ Instr.endStream ≠ .reset :=
  ⟨next_of_answers (by decide), by decide⟩

/-- The mono sample 1.0 is admitted. -/
theorem accepts_mono (sr : Word32) (n : Word64) (prev lastzo : Option F64) (h0 : sr ≠ 0) (h1 : n.toNat < 2 ^ 53)
    (h2 : flt (fmul (fdiv (f64OfNat n.toNat) (f64OfNat sr.toNat)) million) twoTo64 = true) :
    AcceptsSample (.sampleMono one) one (scanning 1 sr n prev lastzo) :=
  ⟨.inr rfl, h0, .inl ⟨rfl, rfl⟩, by decide, h1, h2⟩

/-- A first sample of each arity, the stereo one with the largest channel values that still have a mean. -/
theorem witness_FirstSampleLoadsPrev :
    (AcceptsSample (.sampleMono one) one (ready 1 4) ∧ (ready 1 4).prev = none) ∧
    (AcceptsSample (.sampleStereo 0x7FEFFFFFFFFFFFFF 0) 0x7FDFFFFFFFFFFFFF (ready 2 4) ∧ (ready 2 4).prev = none) :=
  ⟨⟨⟨.inl rfl, by decide, .inl ⟨rfl, rfl⟩, by decide, by decide, by decide +kernel⟩, rfl⟩,
    ⟨.inl rfl, by decide,
      .inr ⟨_, _, rfl, rfl, by decide, by decide, by decide +kernel⟩, by decide, by decide, by decide +kernel⟩, rfl⟩
/-- Each reason to emit nothing: PREV is −0.0, so not below zero; the amplitude is below zero; no offset is held. -/
theorem witness_SampleWithoutEventUpdatesTheScan :
    (AcceptsSample (.sampleMono one) one (scanning 1 4 3 (some 0x8000000000000000) (some half)) ∧
      flt 0x8000000000000000 posZero = false) ∧
    (AcceptsSample (.sampleStereo 0xC000000000000000 0) minusOne (scanning 2 4 3 (some one) (some half)) ∧
      fge minusOne posZero = false) ∧
    (AcceptsSample (.sampleMono one) one (scanning 1 4 1 (some minusOne) none) ∧
      (scanning 1 4 1 (some minusOne) none).lastzo = none) :=
  ⟨⟨accepts_mono _ _ _ _ (by decide) (by decide) (by decide +kernel), by decide⟩,
    ⟨⟨.inr rfl, by decide, .inr ⟨_, _, rfl, rfl, by decide, by decide, by decide +kernel⟩, by decide, by decide,
      by decide +kernel⟩, by decide⟩,
    ⟨accepts_mono _ _ _ _ (by decide) (by decide) (by decide +kernel), rfl⟩⟩
/-- A crossing of each arity: from −1.0 to 1.0, and to −0.0, the smallest amplitude that counts as nonnegative. -/
theorem witness_CrossingSampleEmitsEventAndPulse :
    (AcceptsSample (.sampleMono one) one (scanning 1 4 3 (some minusOne) (some half)) ∧
      flt minusOne posZero = true ∧ fge one posZero = true) ∧
    (AcceptsSample (.sampleStereo 0x8000000000000000 0x8000000000000000) 0x8000000000000000
        (scanning 2 4 3 (some minusOne) (some half)) ∧
      flt minusOne posZero = true ∧ fge 0x8000000000000000 posZero = true) :=
  ⟨⟨accepts_mono _ _ _ _ (by decide) (by decide) (by decide +kernel), by decide, by decide⟩,
    ⟨⟨.inr rfl, by decide, .inr ⟨_, _, rfl, rfl, by decide, by decide, by decide +kernel⟩, by decide, by decide,
      by decide +kernel⟩, by decide, by decide⟩⟩
/-- Durations on each side of the byte's ends, at the scale factor 1.0: 255.00000000000003, 255.0, 0.0 and the negative
value next to zero; and the largest duration at the largest frequency, whose scaled value is an infinity. -/
theorem witness_PulseByteIsTheTruncatedDuration :
    let scaled (d : F64) := fmul d (scaleFactor 0x415E848000000000)
    (isFinite 0x415E848000000000 = true ∧ fgt 0x415E848000000000 posZero = true) ∧
    ([0x406FE00000000001, 0x406FE00000000000, 0, 0x8000000000000001] : List F64).all (fun d => isFinite d) = true ∧
    fgt (scaled 0x406FE00000000001) maxScaled = true ∧ flt (scaled 0x8000000000000001) posZero = true ∧
    (fgt (scaled 0x406FE00000000000) maxScaled = false ∧ flt (scaled 0x406FE00000000000) posZero = false) ∧
    (fgt (scaled 0) maxScaled = false ∧ flt (scaled 0) posZero = false) ∧
    (isFinite 0x7FEFFFFFFFFFFFFF = true ∧ fgt 0x7FEFFFFFFFFFFFFF posZero = true ∧
      isInf (fmul 0x7FEFFFFFFFFFFFFF (scaleFactor 0x7FEFFFFFFFFFFFFF)) = true) := by decide +kernel

/-- The invariant of Scenario A's state, after its fourth sample or after a fifth of −1.0, whatever of RUNNING and ENDED it
is in, and whatever is presented. -/
theorem inv_scenarioA (r : RunState) (bytes : List Byte) (p : F64) (n : Word64) (hr : r = .running ∨ r = .ended)
    (hp : (p = one ∧ n = 4) ∨ (p = minusOne ∧ n = 5)) :
    ({ scenarioA with runState := r, cmdIn := bytes, prev := some p, sampleCount := n } : State).Inv where
  cause_iff_faulted := by rcases hr with rfl | rfl <;> simp [scenarioA, State.reset]
  channels_legal := .inr (.inl rfl)
  cpuFreq_legal := by show isFinite Config.cpuFreqDefault = true ∧ fgt Config.cpuFreqDefault posZero = true; decide
  idle_unsampled := by rcases hr with rfl | rfl <;> rintro ⟨⟩
  running_sampled := by intro _; rcases hp with ⟨-, rfl⟩ | ⟨-, rfl⟩ <;> simp
  sampled_configured := by intro _; show (4 : Word32) ≠ 0 ∧ (1 : Byte) ≠ 0; decide
  sampleCount_le := by rcases hp with ⟨-, rfl⟩ | ⟨-, rfl⟩ <;> simp
  prev_isSome_iff := by rcases hp with ⟨-, rfl⟩ | ⟨-, rfl⟩ <;> simp
  prev_finite := by rintro q ⟨⟩; rcases hp with ⟨rfl, -⟩ | ⟨rfl, -⟩ <;> decide
  lastzo_sampled := by intro _; rcases hp with ⟨-, rfl⟩ | ⟨-, rfl⟩ <;> simp
  lastzo_finite := by rintro l ⟨⟩; decide +kernel
  crossOut_finite := by
    intro e h
    rw [List.mem_singleton.1 h]
    decide +kernel
  lastev_eq := rfl
  crossCount_eq := rfl
  pulseCount_eq := rfl
  pulse_eq_cross := rfl
  unheld_uncrossed := by rintro ⟨⟩
  crossCount_bound := by
    show 2 * (1 : Word64).toNat ≤ n.toNat - 1
    rcases hp with ⟨-, rfl⟩ | ⟨-, rfl⟩ <;> simp
  crossCount_before := by
    rintro q ⟨⟩ h _
    show 2 * (1 : Word64).toNat + 2 ≤ n.toNat
    rcases hp with ⟨rfl, -⟩ | ⟨-, rfl⟩
    · exact absurd h (by decide)
    · simp
  ended_payload := by intro _; show (1 : Word64).toNat ≤ _; decide
  pulses_eq := rfl

theorem witness_EveryStepKeepsTheInvariant :
    ({ scenarioA with runState := .running, cmdIn := [0x30, 0x06] } : State).Inv ∧
      step { scenarioA with runState := .running, cmdIn := [0x30, 0x06] } =
        .next { scenarioA with respOut := [1], position := 1 } :=
  ⟨inv_scenarioA .running _ one 4 (.inl rfl) (.inl ⟨rfl, rfl⟩), next_of_answers (by decide)⟩
/-- A sixth sample of Scenario A emits 1250000.0 after the event 750000.0. -/
theorem witness_OffsetsEventsAndDurationsAreFinite :
    let s : State := { scenarioA with runState := .running, cmdIn := [], prev := some minusOne, sampleCount := 5 }
    s.Inv ∧ s.lastzo = some half ∧ s.lastev = some 0x4126E36000000000 ∧ 0x4126E36000000000 ∈ s.crossOut ∧
      ∃ t, exec (.sampleMono one) s = .next t ∧ t.crossOut = s.crossOut ++ [0x413312D000000000] :=
  ⟨inv_scenarioA .running [] minusOne 5 (.inl rfl) (.inr ⟨rfl, rfl⟩), rfl, rfl, List.mem_singleton.2 rfl, _, rfl,
    by decide +kernel⟩
theorem witness_StreamPrefixHoldsTheReferenceValues :
    pipelineDefined rowsA 1 4 = true ∧
    (∀ f, some (Config.cpuFreqDefault : F64) = some f → isFinite f = true ∧ fgt f posZero = true) ∧
    (∀ f, (none : Option F64) = some f → isFinite f = true ∧ fgt f posZero = true) ∧
    0 < rowsA.length ∧ 3 < rowsA.length :=
  ⟨by decide +kernel, by rintro f ⟨⟩; decide, by rintro f ⟨⟩, by decide, by decide⟩
theorem witness_StreamComputesTheReferencePipeline :
    pipelineDefined rowsA 1 4 = true ∧ pipelineDefined [] 2 1 = true ∧
    (∀ f, some (0x415E848000000000 : F64) = some f → isFinite f = true ∧ fgt f posZero = true) ∧
    (pipeline rowsA 4 Config.cpuFreqDefault).2.length ≤ 2 ^ 32 - 1 :=
  ⟨by decide +kernel, by decide +kernel, by rintro f ⟨⟩; decide, by decide +kernel⟩
theorem witness_ComparisonsOrderTheExactValues :
    isFinite 0x8000000000000000 = true ∧ isFinite 0x7FEFFFFFFFFFFFFF = true ∧
    isNaN 0x7FEFFFFFFFFFFFFF = false ∧ isNaN 0x7FF0000000000000 = false ∧ isNaN 0xFFF0000000000000 = false := by decide
theorem witness_NanOperandsGiveNanAndCompareFalse :
    (isNaN aNaN = true ∨ isNaN one = true) ∧ (isNaN one = true ∨ isNaN 0x7FF0000000000001 = true) := by decide
/-- Operands whose exact result is below the overflow bound for every operation, and operands whose result is at or above
it: the largest finite value added to and subtracted from itself with a sign, multiplied by 2.0, divided by 0.5. -/
theorem witness_OperationsRoundToNearestTiesToEven :
    isFinite one = true ∧ isFinite 0x3FB999999999999A = true ∧ isFinite 0x0000000000000001 = true ∧
    (exactOf one + exactOf 0x3FB999999999999A).natAbs < overflowUnits ∧
    (exactOf one - exactOf 0x3FB999999999999A).natAbs < overflowUnits ∧
    (exactOf one * exactOf 0x3FB999999999999A).natAbs < overflowUnits * oneUnits ∧
    exactOf 0x3FB999999999999A ≠ 0 ∧
    (exactOf one * oneUnits).natAbs < overflowUnits * (exactOf 0x3FB999999999999A).natAbs ∧
    isFinite 0x7FEFFFFFFFFFFFFF = true ∧ isFinite 0xFFEFFFFFFFFFFFFF = true ∧
    overflowUnits ≤ (exactOf 0x7FEFFFFFFFFFFFFF + exactOf 0x7FEFFFFFFFFFFFFF).natAbs ∧
    overflowUnits ≤ (exactOf 0x7FEFFFFFFFFFFFFF - exactOf 0xFFEFFFFFFFFFFFFF).natAbs ∧
    overflowUnits * oneUnits ≤ (exactOf 0x7FEFFFFFFFFFFFFF * exactOf two).natAbs ∧
    exactOf half ≠ 0 ∧
    overflowUnits * (exactOf half).natAbs ≤ (exactOf 0x7FEFFFFFFFFFFFFF * oneUnits).natAbs := by decide +kernel
theorem witness_TimestampsNeverFall :
    (1 : Word32) ≠ 0 ∧ (0 : Nat) ≤ 18446744073709 ∧ (18446744073709 : Nat) < 2 ^ 53 ∧
      timestampOverflows 18446744073709 1 = false := by decide +kernel
theorem witness_TimestampsConvertExactly :
    (0xFFFFFFFF : Word32) ≠ 0 ∧ (9007199254740991 : Nat) < 2 ^ 53 ∧
      timestampOverflows 9007199254740991 0xFFFFFFFF = false := by decide +kernel
theorem witness_QualifyingOffsetIsFromZeroToOne :
    isFinite minusOne = true ∧ isFinite 0x8000000000000000 = true ∧ qualifies minusOne 0x8000000000000000 = true := by
  decide
/-- 95_test_vectors.md 2.4: the pair 1.0, 1.0000000000000002 has the offset −2^52. -/
theorem witness_DefinedOffsetIsFinite :
    isFinite one = true ∧ isFinite 0x3FF0000000000001 = true ∧
      crossingOffset one 0x3FF0000000000001 = some 0xC330000000000000 := by decide +kernel
theorem witness_TapHeaderReadsBack :
    ({ scenarioA with runState := .ended, cmdIn := [] } : State).Inv ∧
      ({ scenarioA with runState := .ended, cmdIn := [] } : State).runState = .ended :=
  ⟨inv_scenarioA .ended [] one 4 (.inr rfl) (.inl ⟨rfl, rfl⟩), rfl⟩

theorem witness_MultiByteValuesAreLittleEndian : (0 : Nat) < 8 ∧ (7 : Nat) < 8 := by decide
/-- A literal below the overflow bound, and one at it: 0.1, and 10^309. -/
theorem witness_AssembledFloatsAreTheirValues :
    isFinite one = true ∧ 1 * 10 ^ (-1 : Int).toNat * oneUnits < overflowUnits * 10 ^ (- -1 : Int).toNat ∧
    overflowUnits * 10 ^ (-309 : Int).toNat ≤ 1 * 10 ^ (309 : Int).toNat * oneUnits := by decide +kernel
/-- Of 0.1: 1e-1, and with an exponent one lower 10e-1 reads back too, with no fewer digits. -/
theorem witness_DisassemblyPrintsTheShortestDecimal :
    isNaN aNaN = true ∧ isInf 0x7FF0000000000000 = true ∧ isFinite 0x3FB999999999999A = true ∧
    asmValue (.decimal false 10 (-2)) = 0x3FB999999999999A ∧ 10 < 10 ^ 2 := by decide +kernel
/-- A mnemonic and operands joined by commas, with no other blank. -/
def lineOf (name : String) (ops : List (List Char)) : List Char := name.toList ++ ' ' :: [','].intercalate ops

theorem operation (name : String) (ops : List (List Char)) : OperationText (lineOf name ops) name ops :=
  ⟨_, ⟨0, rfl⟩, ops, List.forall₂_same.2 fun _ _ => ⟨0, 0, by simp⟩, rfl⟩

theorem text_255 : UintText ['2', '5', '5'] 255 := .inl ⟨List.cons_ne_nil _ _, [5, 5, 2], by decide, rfl⟩
theorem text_256 : UintText ['0', 'x', '1', '0', '0'] 256 :=
  .inr ⟨_, rfl, List.cons_ne_nil _ _, [0, 0, 1], by decide, rfl⟩
theorem text_largest_rate : UintText ['0', 'x', 'f', 'f', 'f', 'f', 'F', 'F', 'F', 'F'] 4294967295 :=
  .inr ⟨_, rfl, List.cons_ne_nil _ _, [15, 15, 15, 15, 15, 15, 15, 15], by decide, rfl⟩
theorem text_rate_too_large : UintText ['4', '2', '9', '4', '9', '6', '7', '2', '9', '6'] 4294967296 :=
  .inl ⟨List.cons_ne_nil _ _, [6, 9, 2, 7, 6, 9, 4, 9, 2, 4], by decide, rfl⟩
/-- A literal with a sign, a fraction and a signed exponent. -/
theorem text_decimal : FloatText ['-', '1', '2', '.', '5', 'e', '-', '1'] (.decimal true 125 (-2)) :=
  ⟨_, rfl, ['1', '2'], ['5'], ['e', '-', '1'], -1, List.cons_ne_nil _ _, ⟨List.cons_ne_nil _ _, [5, 2, 1], by decide, rfl⟩,
    .inr ⟨['1'], 1, ⟨List.cons_ne_nil _ _, [1], by decide, rfl⟩, .inr ⟨rfl, rfl⟩⟩, rfl, .inr ⟨List.cons_ne_nil _ _, rfl⟩⟩

/-- A line for each clause, its numbers at the ends of their ranges. -/
theorem witness_AssembledTextDecodes :
    LineText "reset".toList .reset ∧ LineText "end".toList .endStream ∧ LineText "status".toList .status ∧
    (∃ line, LineText line (.setRate (4294967295 : Word32).toNat)) ∧ (∃ line, LineText line (.setRate 4294967296)) ∧
    (∃ line, LineText line (.setChannels (255 : Byte).toNat)) ∧ (∃ line, LineText line (.setChannels 256)) ∧
    (∃ line, LineText line (.setCpufreq (.decimal true 125 (-2)))) ∧ (∃ line, LineText line (.sample .nan)) ∧
    (∃ line, LineText line (.sample2 (.inf false) (.inf true))) ∧
    (∃ line, LineText line (.readReg (.index (255 : Byte).toNat))) ∧
    (∃ line, LineText line (.readReg (.name .pulseCount))) ∧
    (∃ line, LineText line (.config (255 : Byte).toNat (4294967295 : Word32).toNat)) ∧
    (∃ line, LineText line (.configFreq (255 : Byte).toNat (4294967295 : Word32).toNat .nan)) ∧
    (∃ line, LineText line (.samples [.nan])) ∧ (∃ line, LineText line (.streamMono (255 : Word32).toNat [])) :=
  ⟨⟨0, 0, by simp⟩, ⟨0, 0, by simp⟩, ⟨0, 0, by simp⟩, ⟨_, _, operation _ _, text_largest_rate⟩,
    ⟨_, _, operation _ _, text_rate_too_large⟩, ⟨_, _, operation _ _, text_255⟩, ⟨_, _, operation _ _, text_256⟩,
    ⟨_, _, operation _ _, text_decimal⟩, ⟨_, _, operation _ _, rfl⟩, ⟨_, _, _, operation _ _, rfl, rfl⟩,
    ⟨_, _, operation _ _, text_255⟩, ⟨_, _, operation _ _, rfl⟩, ⟨_, _, _, operation _ _, text_255, text_largest_rate⟩,
    ⟨_, _, _, _, operation _ _, text_255, text_largest_rate, rfl⟩,
    ⟨_, _, ⟨0, rfl⟩, by simp, ["nan".toList], ⟨_, .cons ⟨0, 0, rfl⟩ .nil, rfl⟩, .cons rfl .nil⟩,
    ⟨_, _, _, _, [' '], ⟨0, rfl⟩, ⟨0, 0, rfl⟩, text_255, ⟨1, 0, rfl⟩, .inl ⟨rfl, 1, 0, rfl⟩⟩⟩

/-- A line without a mnemonic reads as nothing. -/
theorem witness_AssembledTextDecodes_refused (c : AsmCommand) : ¬ LineText [] c := by
  cases c <;> simp [LineText, OperationText, MnemonicText, Padded]
theorem witness_AssembledTextDecodes_joins : assembleText ["reset".toList] = some [0x01] ∧
    assembleText ["end".toList] = some [0x20] ∧ assembleText ["set_channels 256".toList] = none := by decide +kernel
/-- Operands for each clause: a zero and a nonzero value, sums that are exactly zero, and an infinity of each sign. -/
theorem witness_SpecialOperandsFollowTheStandard :
    isFinite one = true ∧ isFinite 0x8000000000000000 = true ∧ exactOf one ≠ 0 ∧ exactOf 0x8000000000000000 = 0 ∧
    exactOf one + exactOf minusOne = 0 ∧ exactOf one - exactOf one = 0 ∧ (true = true) ∧ true ≠ false := by
  decide +kernel

end Sys2Proof.Tests.Slice0
end

section
/-! PROOFS. The arithmetic of 00_scope.md R10 (log entry 7): what each operation answers on finite, infinite and NaN
operands, and that its one rounding is to nearest. Signed magnitudes carry the sign through every case. -/

namespace Sys2Proof.Machine

/-! ### Signed magnitudes -/

/-- The integer of a sign and a magnitude: `exactOf` and `orderKey` are of this form. -/
def withSign (neg : Bool) (n : Nat) : Int := if neg then -(n : Int) else (n : Int)

theorem exactOf_eq_withSign (x : F64) : exactOf x = withSign (signOf x) (unitsOf x) := rfl

theorem orderKey_eq_withSign (x : F64) : orderKey x = withSign (signOf x) (magOf x) := rfl

@[simp] theorem withSign_false (n : Nat) : withSign false n = n := rfl

@[simp] theorem withSign_true (n : Nat) : withSign true n = -(n : Int) := rfl

@[simp] theorem withSign_zero (neg : Bool) : withSign neg 0 = 0 := by cases neg <;> rfl

@[simp] theorem abs_withSign (neg : Bool) (n : Nat) : |withSign neg n| = n := by cases neg <;> simp

@[simp] theorem withSign_eq_zero (neg : Bool) (n : Nat) : withSign neg n = 0 ↔ n = 0 := by
  rw [← abs_eq_zero, abs_withSign, Int.natCast_eq_zero]

theorem withSign_decide_neg_natAbs (z : Int) : withSign (decide (z < 0)) z.natAbs = z := by
  by_cases h : z < 0 <;> simp only [h, decide_true, decide_false, withSign_true, withSign_false] <;> omega

theorem neg_withSign (neg : Bool) (n : Nat) : -withSign neg n = withSign (!neg) n := by cases neg <;> simp

/-- Signs multiply as in R10: the product of a signed pair is negative where the signs differ. -/
theorem withSign_mul (p q : Bool) (m n : Nat) : withSign p m * withSign q n = withSign (p != q) (m * n) := by
  cases p <;> cases q <;> simp

/-- An agreement of signs is taken over to the other side. -/
theorem withSign_bne_eq_iff (p q : Bool) (m n : Nat) : withSign (p != q) m = n ↔ withSign p m = withSign q n := by
  cases p <;> cases q <;> simp [neg_eq_iff_eq_neg]

/-- A distance between signed magnitudes does not depend on a sign that all of them share. -/
theorem abs_withSign_mul_sub (p s t : Bool) (m d n : Nat) :
    |withSign p m * withSign t d - withSign (s != t) n| = |withSign (p != s) m * d - n| := by
  have factor : withSign p m * withSign t d - withSign (s != t) n =
      withSign (s != t) 1 * (withSign (p != s) m * d - n) := by
    cases p <;> cases s <;> cases t <;> simp <;> ring
  rw [factor, abs_mul, abs_withSign, Nat.cast_one, one_mul]

/-- A scale of magnitudes that rises from 0 keeps the order of signed magnitudes. -/
theorem withSign_lt_withSign_iff {f : Nat → Nat} (hf : StrictMono f) (h0 : f 0 = 0) (p q : Bool) (m n : Nat) :
    withSign p (f m) < withSign q (f n) ↔ withSign p m < withSign q n := by
  have pos (k : Nat) : 0 < f k ↔ 0 < k := by simpa [h0] using hf.lt_iff_lt (a := 0) (b := k)
  have hmn := hf.lt_iff_lt (a := m) (b := n)
  have hnm := hf.lt_iff_lt (a := n) (b := m)
  have hm := pos m
  have hn := pos n
  cases p <;> cases q <;> simp only [withSign_true, withSign_false] <;> omega

/-! ### Patterns and their classes -/

@[simp] theorem signOf_negF64 (x : F64) : signOf (negF64 x) = !signOf x := signOf_packF64 _ (magOf_lt x)

@[simp] theorem magOf_negF64 (x : F64) : magOf (negF64 x) = magOf x := magOf_packF64 _ (magOf_lt x)

@[simp] theorem isNaN_negF64 (x : F64) : isNaN (negF64 x) = isNaN x := by simp [isNaN]

@[simp] theorem isFinite_negF64 (x : F64) : isFinite (negF64 x) = isFinite x := by simp [isFinite]

@[simp] theorem exactOf_negF64 (x : F64) : exactOf (negF64 x) = -exactOf x := by
  simp [exactOf_eq_withSign, neg_withSign, unitsOf]

theorem negF64_packF64 {mag : Nat} (neg : Bool) (h : mag < 2 ^ 63) : negF64 (packF64 neg mag) = packF64 (!neg) mag := by
  rw [negF64, signOf_packF64 _ h, magOf_packF64 _ h]

theorem isNaN_of_isFinite {x : F64} (h : isFinite x = true) : isNaN x = false := by
  simp only [isFinite, isNaN, decide_eq_true_eq, decide_eq_false_iff_not] at *
  omega

theorem isInf_of_isFinite {x : F64} (h : isFinite x = true) : isInf x = false := by
  simp only [isFinite, isInf, decide_eq_true_eq, decide_eq_false_iff_not] at *
  omega

theorem unitsOf_eq_zero (x : F64) : unitsOf x = 0 ↔ magOf x = 0 := by
  rw [unitsOf, ← unitsOfMag_zero, unitsOfMag_strictMono.injective.eq_iff, unitsOfMag_zero]

theorem exactOf_eq_zero (x : F64) : exactOf x = 0 ↔ magOf x = 0 := by
  rw [exactOf_eq_withSign, withSign_eq_zero, unitsOf_eq_zero]

/-- The NaN an operation answers is a NaN, whatever its free sign and payload (log entry 3). -/
@[simp] theorem isNaN_nanResult (op : Config.FloatOp) (a b : F64) : isNaN (nanResult op a b) = true := by
  have hp := (Config.nanPayload op a b).isLt
  rw [isNaN, nanResult, magOf_packF64 _ (by omega), infMag, decide_eq_true_eq]
  omega

/-- The infinity of a sign. -/
def infOf (neg : Bool) : F64 := packF64 neg infMag

@[simp] theorem packF64_infMag (neg : Bool) : packF64 neg infMag = infOf neg := rfl

theorem infOf_eq (neg : Bool) : infOf neg = if neg then 0xFFF0000000000000 else 0x7FF0000000000000 := by
  cases neg <;> rfl

theorem packF64_zero_eq (neg : Bool) :
    packF64 neg 0 = if neg then 0x8000000000000000 else 0x0000000000000000 := by
  cases neg <;> rfl

@[simp] theorem signOf_infOf (neg : Bool) : signOf (infOf neg) = neg := signOf_packF64 _ (by decide)

@[simp] theorem magOf_infOf (neg : Bool) : magOf (infOf neg) = infMag := magOf_packF64 _ (by decide)

@[simp] theorem isNaN_infOf (neg : Bool) : isNaN (infOf neg) = false := by simp [isNaN]

@[simp] theorem isInf_infOf (neg : Bool) : isInf (infOf neg) = true := by simp [isInf]

@[simp] theorem negF64_infOf (neg : Bool) : negF64 (infOf neg) = infOf (!neg) := negF64_packF64 _ (by decide)

/-! ### NaN operands -/

theorem isNaN_addFor_of_nan (op : Config.FloatOp) {a b : F64} (h : isNaN a = true ∨ isNaN b = true) :
    isNaN (addFor op a b) = true := by
  rw [addFor, if_pos (by simpa using h), isNaN_nanResult]

theorem isNaN_fmul_of_nan {a b : F64} (h : isNaN a = true ∨ isNaN b = true) : isNaN (fmul a b) = true := by
  rw [fmul, if_pos (by simpa using h), isNaN_nanResult]

theorem isNaN_fdiv_of_nan {a b : F64} (h : isNaN a = true ∨ isNaN b = true) : isNaN (fdiv a b) = true := by
  rw [fdiv, if_pos (by simpa using h), isNaN_nanResult]

/-- No comparison holds on a NaN: each begins with this test. -/
theorem notNaN_and_eq_false {a b : F64} (h : isNaN a = true ∨ isNaN b = true) : (!isNaN a && !isNaN b) = false := by
  rcases h with h | h <;> simp [h]

/-- Settles O42: each operation and each comparison tests for NaN before anything else. -/
theorem nanOperandsGiveNanAndCompareFalse : Obligations.NanOperandsGiveNanAndCompareFalse := by
  intro a b h
  have h' : isNaN a = true ∨ isNaN (negF64 b) = true := by rwa [isNaN_negF64]
  refine ⟨isNaN_addFor_of_nan _ h, isNaN_addFor_of_nan _ h', isNaN_fmul_of_nan h, isNaN_fdiv_of_nan h, ?_, ?_, ?_, ?_⟩
  · rw [feq, notNaN_and_eq_false h, Bool.false_and]
  · rw [flt, notNaN_and_eq_false h, Bool.false_and]
  · rw [fgt, flt, notNaN_and_eq_false h.symm, Bool.false_and]
  · rw [fge, notNaN_and_eq_false h, Bool.false_and]

/-! ### Comparisons -/

section
variable {a b : F64} (ha : isNaN a = false) (hb : isNaN b = false)
include ha hb

theorem feq_iff : feq a b = true ↔ orderKey a = orderKey b := by simp [feq, ha, hb]

theorem flt_iff : flt a b = true ↔ orderKey a < orderKey b := by simp [flt, ha, hb]

theorem fgt_iff : fgt a b = true ↔ orderKey b < orderKey a := by simp [fgt, flt, ha, hb]

theorem fge_iff : fge a b = true ↔ orderKey b ≤ orderKey a := by simp [fge, ha, hb]

end

theorem orderKey_lt_iff (a b : F64) : orderKey a < orderKey b ↔ exactOf a < exactOf b :=
  (withSign_lt_withSign_iff unitsOfMag_strictMono unitsOfMag_zero (signOf a) (signOf b) (magOf a) (magOf b)).symm

theorem orderKey_le_iff (a b : F64) : orderKey a ≤ orderKey b ↔ exactOf a ≤ exactOf b := by
  rw [← not_lt, orderKey_lt_iff, not_lt]

theorem orderKey_eq_iff (a b : F64) : orderKey a = orderKey b ↔ exactOf a = exactOf b := by
  rw [le_antisymm_iff, orderKey_le_iff, orderKey_le_iff, ← le_antisymm_iff]

theorem orderKey_infOf (neg : Bool) : orderKey (infOf neg) = withSign neg infMag := by
  rw [orderKey_eq_withSign, signOf_infOf, magOf_infOf]

/-- Every value but NaN lies from −inf to +inf. -/
theorem abs_orderKey_le {x : F64} (h : isNaN x = false) : |orderKey x| ≤ infMag := by
  rw [orderKey_eq_withSign, abs_withSign]
  simpa [isNaN] using h

/-- The place of an infinity is its alone. -/
theorem orderKey_eq_infOf_iff (x : F64) (neg : Bool) : orderKey x = orderKey (infOf neg) ↔ x = infOf neg := by
  refine ⟨fun h => ?_, fun h => by rw [h]⟩
  rw [orderKey_infOf, orderKey_eq_withSign] at h
  have hmag : magOf x = infMag := by simpa using congrArg abs h
  have hsign : signOf x = neg := by
    rw [hmag] at h
    revert h
    cases signOf x <;> cases neg <;> decide
  rw [← packF64_signOf_magOf x, hmag, hsign, packF64_infMag]

/-- Settles O41: the order of the keys is that of the exact values, with each infinity's key at its end. -/
theorem comparisonsOrderTheExactValues : Obligations.ComparisonsOrderTheExactValues := by
  refine ⟨fun a b ha hb => ?_, fun x hx => ?_⟩
  · have ha' := isNaN_of_isFinite ha
    have hb' := isNaN_of_isFinite hb
    exact ⟨(feq_iff ha' hb').trans (orderKey_eq_iff a b), (flt_iff ha' hb').trans (orderKey_lt_iff a b),
      (fgt_iff ha' hb').trans (orderKey_lt_iff b a), (fge_iff ha' hb').trans (orderKey_le_iff b a)⟩
  · intro posInf negInf
    have hp : posInf = infOf false := (infOf_eq false).symm
    have hn : negInf = infOf true := (infOf_eq true).symm
    clear_value posInf negInf
    subst hp hn
    have isPos := orderKey_eq_infOf_iff x false
    have isNeg := orderKey_eq_infOf_iff x true
    rw [orderKey_infOf, withSign_false] at isPos
    rw [orderKey_infOf, withSign_true] at isNeg
    obtain ⟨hlow, hhigh⟩ := abs_le.1 (abs_orderKey_le hx)
    simp only [← Bool.not_eq_true, feq_iff hx (isNaN_infOf _), feq_iff (isNaN_infOf _) hx, flt_iff hx (isNaN_infOf _),
      flt_iff (isNaN_infOf _) hx, fgt_iff hx (isNaN_infOf _), fgt_iff (isNaN_infOf _) hx, fge_iff hx (isNaN_infOf _),
      fge_iff (isNaN_infOf _) hx, orderKey_infOf, withSign_false, withSign_true, ← isPos, ← isNeg, ne_eq, true_and]
    omega

/-! ### Finite operands -/

@[simp] theorem roundMag_zero {den : Nat} : roundMag 0 den = 0 := by
  simp [roundMag, ulpShift, divRoundEven]

/-- A sum of finite values is their exact sum rounded once, under a sign that is the exact sum's unless that is zero. -/
theorem addFor_of_finite (op : Config.FloatOp) {a b : F64} (ha : isFinite a = true) (hb : isFinite b = true) :
    ∃ neg, addFor op a b = packF64 neg (roundMag (exactOf a + exactOf b).natAbs 1) ∧
      exactOf a + exactOf b = withSign neg (exactOf a + exactOf b).natAbs := by
  rw [addFor]
  simp only [isNaN_of_isFinite ha, isNaN_of_isFinite hb, isInf_of_isFinite ha, isInf_of_isFinite hb, Bool.or_self,
    Bool.false_eq_true, if_false]
  split
  · next h => exact ⟨signOf a && signOf b, by simp [h], by simp [h]⟩
  · exact ⟨_, rfl, (withSign_decide_neg_natAbs _).symm⟩

/-- An exact sum of zero is +0.0 unless both addends are negative. -/
theorem addFor_of_exact_zero (op : Config.FloatOp) {a b : F64} (ha : isFinite a = true) (hb : isFinite b = true)
    (h : exactOf a + exactOf b = 0) : addFor op a b = packF64 (signOf a && signOf b) 0 := by
  simp [addFor, isNaN_of_isFinite ha, isNaN_of_isFinite hb, isInf_of_isFinite ha, isInf_of_isFinite hb, h]

theorem fmul_of_finite {a b : F64} (ha : isFinite a = true) (hb : isFinite b = true) :
    fmul a b = packF64 (signOf a != signOf b) (roundMag (unitsOf a * unitsOf b) oneUnits) := by
  simp [fmul, isNaN_of_isFinite ha, isNaN_of_isFinite hb, isInf_of_isFinite ha, isInf_of_isFinite hb]

theorem fdiv_of_finite {a b : F64} (ha : isFinite a = true) (hb : isFinite b = true) (h : magOf b ≠ 0) :
    fdiv a b = packF64 (signOf a != signOf b) (roundMag (unitsOf a * oneUnits) (unitsOf b)) := by
  simp [fdiv, isNaN_of_isFinite ha, isNaN_of_isFinite hb, isInf_of_isFinite ha, isInf_of_isFinite hb, h]

theorem fdiv_zero {a b : F64} (ha : isFinite a = true) (hb : isFinite b = true) (h : magOf b = 0) :
    fdiv a b = if magOf a = 0 then nanResult .div a b else infOf (signOf a != signOf b) := by
  simp [fdiv, isNaN_of_isFinite ha, isNaN_of_isFinite hb, isInf_of_isFinite ha, isInf_of_isFinite hb, h]

/-! ### The one rounding -/

/-- What O43 asks of a result `r` for the exact result `exact / scale`, against another value `c`. -/
def RoundsTo (r c : F64) (exact scale : Int) : Prop :=
  (|exact| < overflowUnits * |scale| →
    isFinite r = true ∧ |exactOf r * scale - exact| ≤ |exactOf c * scale - exact| ∧
    (|exactOf r * scale - exact| = |exactOf c * scale - exact| → exactOf c ≠ exactOf r → magOf r % 2 = 0)) ∧
  (overflowUnits * |scale| ≤ |exact| →
    r = if 0 < exact * scale then 0x7FF0000000000000 else 0xFFF0000000000000)

theorem overflowUnits_pos : 0 < overflowUnits := by
  rw [overflowUnits_eq]
  have := oneUnits_pos
  positivity

/-- No signed magnitude is nearer than the rounded one: one of the other sign is no nearer than zero is. -/
theorem roundMag_nearest_withSign {num den : Nat} (hd : 0 < den) (hfin : roundMag num den < infMag) (q : Bool) (m : Nat) :
    |(unitsOfMag (roundMag num den) : Int) * den - num| ≤ |withSign q (unitsOfMag m) * den - num| ∧
      (|(unitsOfMag (roundMag num den) : Int) * den - num| = |withSign q (unitsOfMag m) * den - num| →
        withSign q (unitsOfMag m) ≠ unitsOfMag (roundMag num den) → roundMag num den % 2 = 0) := by
  cases q with
  | false =>
    obtain ⟨hle, heven⟩ := roundMag_nearest hd hfin m
    exact ⟨hle, fun heq hne => heven heq fun h => hne (by rw [h, withSign_false])⟩
  | true =>
    obtain ⟨hle, heven⟩ := roundMag_nearest hd hfin 0
    rw [unitsOfMag_zero, Nat.cast_zero, zero_mul, zero_sub, abs_neg, Nat.abs_cast] at hle heven
    have far : |withSign true (unitsOfMag m) * den - num| = (unitsOfMag m * den : Nat) + num := by
      rw [withSign_true, show -(unitsOfMag m : Int) * den - num = -((unitsOfMag m * den : Nat) + num) by push_cast; ring,
        abs_neg, abs_of_nonneg (by omega)]
    rw [far]
    refine ⟨by omega, fun heq hne => heven (by omega) fun h => hne ?_⟩
    have hm : unitsOfMag m = 0 := by
      have : unitsOfMag m * den = 0 := by omega
      exact (Nat.mul_eq_zero.1 this).resolve_right (by omega)
    rw [← h, hm, unitsOfMag_zero, withSign_zero, Nat.cast_zero]

/-- A rounded magnitude under a sign rounds the exact result of that sign, whatever sign the scale has. -/
theorem roundsTo_packF64_roundMag (c : F64) (neg t : Bool) (num : Nat) {den : Nat} (hd : 0 < den) :
    RoundsTo (packF64 neg (roundMag num den)) c (withSign (neg != t) num) (withSign t den) := by
  have hexact : exactOf (packF64 neg (roundMag num den)) = withSign neg (unitsOfMag (roundMag num den)) := by
    simp [exactOf_eq_withSign, unitsOf]
  unfold RoundsTo
  rw [abs_withSign, abs_withSign, withSign_mul, hexact, exactOf_eq_withSign c, abs_withSign_mul_sub,
    abs_withSign_mul_sub, bne_self_eq_false, withSign_false, magOf_packF64_roundMag]
  refine ⟨fun h => ?_, fun h => ?_⟩
  · have hfin : roundMag num den < infMag := roundMag_lt_infMag hd (by exact_mod_cast h)
    obtain ⟨hle, heven⟩ := roundMag_nearest_withSign hd hfin (signOf c != neg) (magOf c)
    refine ⟨by simpa [isFinite] using hfin, hle, fun heq hne => heven heq fun h =>
      hne ((withSign_bne_eq_iff _ _ _ _).1 h)⟩
  · have h : overflowUnits * den ≤ num := by exact_mod_cast h
    have hpos : 0 < num * den := Nat.mul_pos (Nat.lt_of_lt_of_le (Nat.mul_pos overflowUnits_pos hd) h) hd
    have hneg : ((neg != t) != t) = neg := by cases neg <;> cases t <;> rfl
    rw [roundMag_of_overflow hd h, packF64_infMag, infOf_eq, hneg]
    cases neg with
    | false => rw [withSign_false, if_neg Bool.false_ne_true, if_pos (Int.natCast_pos.2 hpos)]
    | true => rw [withSign_true, if_pos rfl, if_neg (by omega)]

theorem roundsTo_addFor (op : Config.FloatOp) {a b : F64} (c : F64) (ha : isFinite a = true) (hb : isFinite b = true) :
    RoundsTo (addFor op a b) c (exactOf a + exactOf b) 1 := by
  obtain ⟨neg, hr, hsum⟩ := addFor_of_finite op ha hb
  have := roundsTo_packF64_roundMag c neg false (exactOf a + exactOf b).natAbs Nat.one_pos
  rwa [Bool.bne_false, ← hsum, ← hr] at this

theorem roundsTo_fmul {a b : F64} (c : F64) (ha : isFinite a = true) (hb : isFinite b = true) :
    RoundsTo (fmul a b) c (exactOf a * exactOf b) oneUnits := by
  have := roundsTo_packF64_roundMag c (signOf a != signOf b) false (unitsOf a * unitsOf b) oneUnits_pos
  rwa [Bool.bne_false, ← withSign_mul, ← fmul_of_finite ha hb] at this

theorem roundsTo_fdiv {a b : F64} (c : F64) (ha : isFinite a = true) (hb : isFinite b = true) (h0 : exactOf b ≠ 0) :
    RoundsTo (fdiv a b) c (exactOf a * oneUnits) (exactOf b) := by
  have hmag : magOf b ≠ 0 := fun h => h0 ((exactOf_eq_zero b).2 h)
  have hpos : 0 < unitsOf b := Nat.pos_of_ne_zero fun h => hmag ((unitsOf_eq_zero b).1 h)
  have hsign : ((signOf a != signOf b) != signOf b) = (signOf a != false) := by
    cases signOf a <;> cases signOf b <;> rfl
  have := roundsTo_packF64_roundMag c (signOf a != signOf b) (signOf b) (unitsOf a * oneUnits) hpos
  rwa [hsign, ← withSign_mul, ← fdiv_of_finite ha hb hmag] at this

/-- Settles O43: each operation is one rounding of its exact result. -/
theorem operationsRoundToNearestTiesToEven : Obligations.OperationsRoundToNearestTiesToEven := by
  intro a b c ha hb _
  have hsub : RoundsTo (fsub a b) c (exactOf a - exactOf b) 1 := by
    have := roundsTo_addFor .sub c ha (b := negF64 b) (by rwa [isFinite_negF64])
    rwa [exactOf_negF64, ← sub_eq_add_neg] at this
  exact ⟨roundsTo_addFor .add c ha hb, hsub, roundsTo_fmul c ha hb, roundsTo_fdiv c ha hb⟩

/-! ### Infinite operands -/

section
variable (op : Config.FloatOp) {a : F64} (p q : Bool)

theorem addFor_infOf_right (ha : isFinite a = true) : addFor op a (infOf p) = infOf p := by
  simp [addFor, isNaN_of_isFinite ha, isInf_of_isFinite ha]

theorem addFor_infOf_left (ha : isFinite a = true) : addFor op (infOf p) a = infOf p := by
  simp [addFor, isNaN_of_isFinite ha, isInf_of_isFinite ha]

theorem addFor_infOf_infOf :
    addFor op (infOf p) (infOf q) = if p = q then infOf p else nanResult op (infOf p) (infOf q) := by
  cases p <;> cases q <;> simp [addFor]

theorem fmul_infOf_right (ha : isFinite a = true) :
    fmul a (infOf p) = if magOf a = 0 then nanResult .mul a (infOf p) else infOf (signOf a != p) := by
  have : infMag ≠ 0 := by decide
  simp [fmul, isNaN_of_isFinite ha, this]

theorem fmul_infOf_left (ha : isFinite a = true) :
    fmul (infOf p) a = if magOf a = 0 then nanResult .mul (infOf p) a else infOf (p != signOf a) := by
  have : infMag ≠ 0 := by decide
  simp [fmul, isNaN_of_isFinite ha, this]

theorem fmul_infOf_infOf : fmul (infOf p) (infOf q) = infOf (p != q) := by
  have : infMag ≠ 0 := by decide
  simp [fmul, this]

theorem fdiv_infOf_right (ha : isFinite a = true) : fdiv a (infOf p) = packF64 (signOf a != p) 0 := by
  simp [fdiv, isNaN_of_isFinite ha, isInf_of_isFinite ha]

theorem fdiv_infOf_left (ha : isFinite a = true) : fdiv (infOf p) a = infOf (p != signOf a) := by
  simp [fdiv, isNaN_of_isFinite ha, isInf_of_isFinite ha]

theorem fdiv_infOf_infOf : fdiv (infOf p) (infOf q) = nanResult .div (infOf p) (infOf q) := by simp [fdiv]

end

/-! ### Special operands -/

/-- O53 on two finite operands: signs of products and quotients, division by zero, exact zeros. -/
theorem special_of_finite {a b : F64} (ha : isFinite a = true) (hb : isFinite b = true) :
    signOf (fmul a b) = (signOf a != signOf b) ∧
    (exactOf b ≠ 0 → signOf (fdiv a b) = (signOf a != signOf b)) ∧
    (exactOf b = 0 → exactOf a ≠ 0 → fdiv a b = infOf (signOf a != signOf b)) ∧
    (exactOf b = 0 → exactOf a = 0 → isNaN (fdiv a b) = true) ∧
    (exactOf a + exactOf b = 0 → fadd a b = packF64 (signOf a && signOf b) 0) ∧
    (exactOf a - exactOf b = 0 → fsub a b = packF64 (signOf a && !signOf b) 0) := by
  simp only [ne_eq, exactOf_eq_zero]
  refine ⟨?_, fun h => ?_, fun hb0 ha0 => ?_, fun hb0 ha0 => ?_, addFor_of_exact_zero _ ha hb, fun h => ?_⟩
  · rw [fmul_of_finite ha hb, signOf_packF64_roundMag]
  · rw [fdiv_of_finite ha hb h, signOf_packF64_roundMag]
  · rw [fdiv_zero ha hb hb0, if_neg ha0]
  · rw [fdiv_zero ha hb hb0, if_pos ha0, isNaN_nanResult]
  · rw [fsub, addFor_of_exact_zero _ ha (by rwa [isFinite_negF64]) (by rw [exactOf_negF64]; omega), signOf_negF64]

/-- O53 on a finite operand and an infinity, in both orders. -/
theorem special_of_finite_infOf {a : F64} (p : Bool) (ha : isFinite a = true) :
    fadd a (infOf p) = infOf p ∧ fadd (infOf p) a = infOf p ∧ fsub a (infOf p) = infOf (!p) ∧
    fsub (infOf p) a = infOf p ∧
    (exactOf a ≠ 0 → fmul a (infOf p) = infOf (signOf a != p) ∧ fmul (infOf p) a = infOf (p != signOf a)) ∧
    (exactOf a = 0 → isNaN (fmul a (infOf p)) = true ∧ isNaN (fmul (infOf p) a) = true) ∧
    fdiv a (infOf p) = packF64 (signOf a != p) 0 ∧ fdiv (infOf p) a = infOf (p != signOf a) := by
  simp only [ne_eq, exactOf_eq_zero, fmul_infOf_right p ha, fmul_infOf_left p ha]
  refine ⟨addFor_infOf_right _ p ha, addFor_infOf_left _ p ha, ?_, addFor_infOf_left _ p (by rwa [isFinite_negF64]),
    fun h => ?_, fun h => ?_, fdiv_infOf_right p ha, fdiv_infOf_left p ha⟩
  · rw [fsub, negF64_infOf, addFor_infOf_right _ _ ha]
  · exact ⟨if_neg h, if_neg h⟩
  · rw [if_pos h, if_pos h]
    exact ⟨isNaN_nanResult _ _ _, isNaN_nanResult _ _ _⟩

/-- O53 on two infinities. -/
theorem special_of_infOf_infOf (p q : Bool) :
    (p = q → fadd (infOf p) (infOf q) = infOf p ∧ isNaN (fsub (infOf p) (infOf q)) = true) ∧
    (p ≠ q → isNaN (fadd (infOf p) (infOf q)) = true ∧ fsub (infOf p) (infOf q) = infOf p) ∧
    fmul (infOf p) (infOf q) = infOf (p != q) ∧ isNaN (fdiv (infOf p) (infOf q)) = true := by
  rw [fadd, fsub, negF64_infOf, addFor_infOf_infOf, addFor_infOf_infOf, fmul_infOf_infOf, fdiv_infOf_infOf]
  refine ⟨?_, fun h => ?_, rfl, isNaN_nanResult _ _ _⟩
  · rintro rfl
    rw [if_pos rfl, if_neg (by simp)]
    exact ⟨rfl, isNaN_nanResult _ _ _⟩
  · rw [if_neg h, if_pos (Bool.eq_not.2 h)]
    exact ⟨isNaN_nanResult _ _ _, rfl⟩

/-- Settles O53, by the classes of the two operands. -/
theorem specialOperandsFollowTheStandard : Obligations.SpecialOperandsFollowTheStandard := by
  unfold Obligations.SpecialOperandsFollowTheStandard
  simp only [← infOf_eq, ← packF64_zero_eq]
  exact ⟨fun _ _ => special_of_finite, fun _ p => special_of_finite_infOf p, special_of_infOf_infOf⟩

end Sys2Proof.Machine
end

section
/-! PROOFS. What one step does with the verdict the decoder gives (00_scope.md R14). -/

namespace Sys2Proof.Machine

theorem step_of_command {s : State} {i : Instr} {rest : List Byte} (h : decodeNext s.cmdIn = some (.command i rest)) :
    step s = exec i (takeCommand rest s) := by
  rw [step, h]

/-- Settles O10: the arm of `step` for a command, with `takeCommand` written out. -/
theorem stepRunsTheDecodedCommand : Obligations.StepRunsTheDecodedCommand := by
  intro s i rest h _
  rw [step_of_command h, takeCommand]

end Sys2Proof.Machine
end

section
/-! PROOFS. How large a result can be: the one rounding never passes a representable magnitude (00_scope.md R10). From it
come the bounds of offsets (42_zero_crossing_detector.md R148 items 1 and 2) and of Crossing Events (R145). -/

namespace Sys2Proof.Machine

/-! ### Bounds through the rounding -/

/-- A finite value whose magnitude is at most `n` units of 2^-1074. -/
def AtMost (n : Nat) (x : F64) : Prop := isFinite x = true ∧ unitsOf x ≤ n

theorem roundMag_le {m num den : Nat} (hd : 0 < den) (hm : m ≤ infMag) (h : num ≤ unitsOfMag m * den) :
    roundMag num den ≤ m :=
  (roundMag_mono hd hd (Nat.mul_le_mul_right den h)).trans_eq (roundMag_exact hd hm)

theorem le_roundMag {m num den : Nat} (hd : 0 < den) (hm : m ≤ infMag) (h : unitsOfMag m * den ≤ num) :
    m ≤ roundMag num den :=
  (roundMag_exact hd hm).symm.trans_le (roundMag_mono hd hd (Nat.mul_le_mul_right den h))

theorem atMost_packF64_roundMag {m num den : Nat} (neg : Bool) (hm : m < infMag) (h : roundMag num den ≤ m) :
    AtMost (unitsOfMag m) (packF64 neg (roundMag num den)) := by
  simp only [AtMost, isFinite, unitsOf, magOf_packF64_roundMag, decide_eq_true_eq]
  exact ⟨h.trans_lt hm, unitsOfMag_strictMono.monotone h⟩

theorem natAbs_exactOf (x : F64) : (exactOf x).natAbs = unitsOf x := by
  rw [← Int.natCast_inj, Int.natCast_natAbs, exactOf_eq_withSign, abs_withSign]

/-- A sum is at most what the sum of the bounds rounds to. -/
theorem atMost_addFor (op : Config.FloatOp) {a b : F64} {m n r : Nat} (ha : AtMost m a) (hb : AtMost n b)
    (hr : r < infMag) (h : roundMag (m + n) 1 ≤ r) : AtMost (unitsOfMag r) (addFor op a b) := by
  obtain ⟨neg, he, -⟩ := addFor_of_finite op ha.1 hb.1
  have hsum : (exactOf a + exactOf b).natAbs ≤ m + n := by
    have hle := Int.natAbs_add_le (exactOf a) (exactOf b)
    rw [natAbs_exactOf, natAbs_exactOf] at hle
    exact hle.trans (Nat.add_le_add ha.2 hb.2)
  rw [he]
  exact atMost_packF64_roundMag neg hr ((roundMag_mono Nat.one_pos Nat.one_pos (by omega)).trans h)

theorem atMost_negF64 {n : Nat} {x : F64} (h : AtMost n x) : AtMost n (negF64 x) := by
  simpa [AtMost, unitsOf] using h

theorem atMost_fdiv {a b : F64} {r : Nat} (ha : isFinite a = true) (hb : isFinite b = true) (hpos : 0 < unitsOf b)
    (hr : r < infMag) (h : unitsOf a * oneUnits ≤ unitsOfMag r * unitsOf b) : AtMost (unitsOfMag r) (fdiv a b) := by
  rw [fdiv_of_finite ha hb fun h0 => hpos.ne' ((unitsOf_eq_zero b).2 h0)]
  exact atMost_packF64_roundMag _ hr (roundMag_le hpos hr.le h)

/-- A difference that reaches a representable magnitude still reaches it when rounded, or overflows. -/
theorem fsub_reaches {a b : F64} {m : Nat} (ha : isFinite a = true) (hb : isFinite b = true)
    (h : unitsOfMag m ≤ (exactOf a - exactOf b).natAbs) :
    (∃ neg, fsub a b = infOf neg) ∨ (isFinite (fsub a b) = true ∧ unitsOfMag m ≤ unitsOf (fsub a b)) := by
  obtain ⟨neg, he, -⟩ := addFor_of_finite .sub ha (b := negF64 b) (by rwa [isFinite_negF64])
  rw [exactOf_negF64, ← sub_eq_add_neg] at he
  rw [fsub, he]
  have hreach : min m infMag ≤ roundMag (exactOf a - exactOf b).natAbs 1 := by
    refine le_roundMag Nat.one_pos (Nat.min_le_right _ _) ?_
    rw [Nat.mul_one]
    exact (unitsOfMag_strictMono.monotone (Nat.min_le_left _ _)).trans h
  rcases (roundMag_le_infMag (exactOf a - exactOf b).natAbs 1).eq_or_lt with hinf | hfin
  · exact .inl ⟨neg, by rw [hinf, packF64_infMag]⟩
  · refine .inr ⟨by simpa [isFinite] using hfin, ?_⟩
    rw [unitsOf, magOf_packF64_roundMag]
    exact unitsOfMag_strictMono.monotone (by omega)

/-! ### Offsets -/

/-- The offset of a pair whose amplitudes lie at least a representable magnitude apart: where their difference overflows,
it is a zero. -/
theorem atMost_offset {p a : F64} {m r : Nat} (hp : isFinite p = true) (ha : isFinite a = true) (hm : 0 < m)
    (hr : r < infMag) (hgap : unitsOfMag m ≤ (exactOf p - exactOf a).natAbs)
    (h : unitsOf p * oneUnits ≤ unitsOfMag r * unitsOfMag m) : AtMost (unitsOfMag r) (fdiv p (fsub p a)) := by
  rcases fsub_reaches hp ha hgap with ⟨neg, hinf⟩ | ⟨hfin, hreach⟩
  · rw [hinf, fdiv_infOf_right _ hp]
    simp [AtMost, isFinite, unitsOf, magOf_packF64, infMag]
  · have hpos : 0 < unitsOfMag m := unitsOfMag_zero ▸ unitsOfMag_strictMono hm
    exact atMost_fdiv hp hfin (hpos.trans_le hreach) hr (h.trans (Nat.mul_le_mul_left _ hreach))

theorem exists_unitsOfMag_eq_two_pow (j : Nat) : ∃ m, 0 < m ∧ unitsOfMag m = 2 ^ j := by
  rcases Nat.le_total j 52 with hj | hj
  · have hle : 2 ^ j ≤ 2 ^ 53 := Nat.pow_le_pow_right (by decide) (by omega)
    exact ⟨0 * 2 ^ 52 + 2 ^ j, by simp, by rw [unitsOfMag_grid hle (.inl rfl), Nat.pow_zero, Nat.mul_one]⟩
  · obtain ⟨S, rfl⟩ := Nat.exists_eq_add_of_le hj
    exact ⟨S * 2 ^ 52 + 2 ^ 52, by omega, by rw [unitsOfMag_grid (by decide) (.inr le_rfl), Nat.pow_add]⟩

/-- Different values lie so far apart that the first is at most 2^53 times the power of two below their distance: a value
has 53 significant bits, and the last of them bounds the distance. -/
theorem exists_two_pow_le_gap {p a : F64} (hne : exactOf p ≠ exactOf a) :
    ∃ j, 2 ^ j ≤ (exactOf p - exactOf a).natAbs ∧ unitsOf p ≤ 2 ^ 53 * 2 ^ j := by
  obtain ⟨S, k, hpm, hk, hS⟩ := exists_grid (magOf p)
  obtain ⟨S', k', ham, hk', hS'⟩ := exists_grid (magOf a)
  have hp : unitsOf p = k * 2 ^ S := by rw [unitsOf, hpm, unitsOfMag_grid hk.le hS]
  have ha : unitsOf a = k' * 2 ^ S' := by rw [unitsOf, ham, unitsOfMag_grid hk'.le hS']
  rcases Nat.lt_or_ge S' S with hlt | hge
  · -- the second has finer units: it lies wholly below the first's binade, or at the end of the one below
    obtain ⟨T, rfl⟩ := Nat.exists_eq_add_of_lt hlt
    have htri : unitsOf p ≤ unitsOf a + (exactOf p - exactOf a).natAbs := by
      rw [← natAbs_exactOf p, ← natAbs_exactOf a]
      omega
    have hbelow : k' * 2 ^ S' ≤ (2 ^ 53 - 1) * 2 ^ (S' + T) :=
      Nat.mul_le_mul (by omega) (Nat.pow_le_pow_right (by decide) (by omega))
    have hk52 : 2 ^ 52 ≤ k := hS.resolve_left (by omega)
    rw [Nat.pow_succ, ← Nat.mul_assoc] at hp
    generalize hX : 2 ^ (S' + T) = X at *
    rcases hk52.eq_or_lt with rfl | hk52
    · exact ⟨S' + T, by omega, by omega⟩
    · have hlow : (2 ^ 52 + 1) * X ≤ k * X := Nat.mul_le_mul_right X hk52
      have hhigh : k * X ≤ 2 ^ 53 * X := Nat.mul_le_mul_right X hk.le
      have hX2 : 2 ^ (S' + T + 1) = X * 2 := by rw [Nat.pow_succ, hX]
      exact ⟨S' + T + 1, by omega, by omega⟩
  · -- both are whole numbers of the first's units
    refine ⟨S, ?_, hp ▸ Nat.mul_le_mul_right _ hk.le⟩
    have dvd_of_units {x : F64} (h : 2 ^ S ∣ unitsOf x) : ((2 ^ S : Nat) : Int) ∣ exactOf x := by
      rwa [← Int.natAbs_dvd_natAbs, natAbs_exactOf]
    have hdvd : ((2 ^ S : Nat) : Int) ∣ exactOf p - exactOf a :=
      dvd_sub (dvd_of_units (hp ▸ Dvd.intro_left _ rfl))
        (dvd_of_units (ha ▸ (Nat.pow_dvd_pow 2 hge).trans (Dvd.intro_left _ rfl)))
    exact Nat.le_of_dvd (by omega) (Int.natCast_dvd.1 hdvd)

/-- The pattern of 2^53. -/
theorem unitsOfMag_twoTo53 : unitsOfMag 0x4340000000000000 = 2 ^ 53 * oneUnits := by
  rw [oneUnits_eq]
  decide +kernel

/-- The pattern of 1.0. -/
theorem unitsOfMag_one : unitsOfMag 0x3FF0000000000000 = oneUnits := by
  rw [oneUnits_eq]
  decide +kernel

/-- The pattern of 2^64. -/
theorem unitsOfMag_twoTo64 : unitsOfMag 0x43F0000000000000 = 2 ^ 64 * oneUnits := by
  rw [oneUnits_eq]
  decide +kernel

/-- The pattern of 2^64 + 2^53. -/
theorem unitsOfMag_largestEvent : unitsOfMag 0x43F0020000000000 = (2 ^ 64 + 2 ^ 53) * oneUnits := by
  rw [oneUnits_eq]
  decide +kernel

section
variable {p a zo : F64} (hp : isFinite p = true) (ha : isFinite a = true)
include hp ha

/-- A pair has an offset exactly where its amplitudes differ (42_zero_crossing_detector.md R142). -/
theorem crossingOffset_eq_some :
    crossingOffset p a = some zo ↔ exactOf p ≠ exactOf a ∧ zo = fdiv p (fsub p a) := by
  have hfeq : feq p a = true ↔ exactOf p = exactOf a :=
    (feq_iff (isNaN_of_isFinite hp) (isNaN_of_isFinite ha)).trans (orderKey_eq_iff p a)
  by_cases h : exactOf p = exactOf a <;> simp [crossingOffset, hfeq, h, eq_comm]

/-- A qualifying pair goes from below zero to zero or above (42_zero_crossing_detector.md R143). -/
theorem qualifies_iff : qualifies p a = true ↔ exactOf p < 0 ∧ 0 ≤ exactOf a := by
  have hz : isNaN posZero = false := by decide
  have h0 : exactOf posZero = 0 := by decide
  rw [qualifies, Bool.and_eq_true, flt_iff (isNaN_of_isFinite hp) hz, fge_iff (isNaN_of_isFinite ha) hz,
    orderKey_lt_iff, orderKey_le_iff, h0]

/-- A defined offset is finite and at most 2^53 (42_zero_crossing_detector.md R148 item 1). -/
theorem atMost_crossingOffset (h : crossingOffset p a = some zo) : AtMost (2 ^ 53 * oneUnits) zo := by
  obtain ⟨hne, rfl⟩ := (crossingOffset_eq_some hp ha).1 h
  obtain ⟨j, hgap, hle⟩ := exists_two_pow_le_gap hne
  obtain ⟨m, hm, hmj⟩ := exists_unitsOfMag_eq_two_pow j
  rw [← unitsOfMag_twoTo53]
  refine atMost_offset hp ha hm (by decide) (hmj ▸ hgap) ?_
  calc unitsOf p * oneUnits ≤ 2 ^ 53 * 2 ^ j * oneUnits := Nat.mul_le_mul_right _ hle
    _ = unitsOfMag 0x4340000000000000 * unitsOfMag m := by rw [hmj, unitsOfMag_twoTo53]; ring

/-- The offset of a qualifying pair is at most 1.0: the amplitudes lie further apart than the first lies from zero
(42_zero_crossing_detector.md R148 item 2). -/
theorem atMost_crossingOffset_of_qualifies (hq : qualifies p a = true) (h : crossingOffset p a = some zo) :
    AtMost oneUnits zo := by
  obtain ⟨-, rfl⟩ := (crossingOffset_eq_some hp ha).1 h
  obtain ⟨hneg, hpos⟩ := (qualifies_iff hp ha).1 hq
  have hm : magOf p ≠ 0 := fun h0 => hneg.ne ((exactOf_eq_zero p).2 h0)
  have hgap : unitsOfMag (magOf p) ≤ (exactOf p - exactOf a).natAbs := by
    rw [← unitsOf, ← natAbs_exactOf]
    omega
  have hle : unitsOf p * oneUnits ≤ unitsOfMag 0x3FF0000000000000 * unitsOfMag (magOf p) := by
    rw [unitsOfMag_one, Nat.mul_comm, ← unitsOf]
  rw [← unitsOfMag_one]
  exact atMost_offset hp ha (Nat.pos_of_ne_zero hm) (by decide) hgap hle

end

/-! ### Events -/

theorem atMost_f64OfNat_word (t : Word64) : AtMost (2 ^ 64 * oneUnits) (f64OfNat t.toNat) := by
  rw [← unitsOfMag_twoTo64]
  refine atMost_packF64_roundMag _ (by decide) (roundMag_le Nat.one_pos (by decide) ?_)
  rw [unitsOfMag_twoTo64, Nat.mul_one]
  exact Nat.mul_le_mul_right _ t.isLt.le

/-- A Crossing Event is a timestamp with an offset up to 1, which rounds to 2^64 at most, less an offset up to 2^53
(42_zero_crossing_detector.md R145). -/
theorem atMost_candidate {zo l : F64} (t : Word64) (hzo : AtMost oneUnits zo) (hl : AtMost (2 ^ 53 * oneUnits) l) :
    AtMost ((2 ^ 64 + 2 ^ 53) * oneUnits) (candidate t zo l) := by
  have hsum : AtMost (2 ^ 64 * oneUnits) (fadd (f64OfNat t.toNat) zo) := by
    rw [← unitsOfMag_twoTo64]
    refine atMost_addFor .add (atMost_f64OfNat_word t) hzo (by decide) ?_
    rw [oneUnits_eq]
    decide +kernel
  rw [← unitsOfMag_largestEvent]
  refine atMost_addFor .sub hsum (atMost_negF64 hl) (by decide) (roundMag_le Nat.one_pos (by decide) ?_)
  rw [unitsOfMag_largestEvent, Nat.mul_one, Nat.add_mul]

end Sys2Proof.Machine
end

section
/-! PROOFS. All that a command can do, said once (40_control_ops.md R100; 60_exceptions.md R204): what holds of every
answer of `exec` is shown by the cases of `Performs`. -/

namespace Sys2Proof.Machine

/-- What performing a command in `s` can answer, with the conditions it needs: RESET always, nothing else in FAULTED but a
register's word (60_exceptions.md R205), a fault that writes STATUS alone (R203), or the command's own effect. -/
inductive Performs (s : State) : Instr → State → Prop
  | reset : Performs s .reset (performReset s)
  | ignored {i : Instr} : i ≠ .reset → s.runState = .faulted → Performs s i s
  | faulted {i : Instr} {c : Cause} : i ≠ .reset → s.runState ≠ .faulted → c ≠ .noFault → Performs s i (raiseFault c s)
  | setRate {rate : Word32} : s.runState = .idle → rate ≠ 0 → Performs s (.setRate rate) { s with sampleRate := rate }
  | setChannels {ch : Byte} : s.runState = .idle → ch = 1 ∨ ch = 2 →
      Performs s (.setChannels ch) { s with channels := ch }
  | setCpufreq {freq : F64} : s.runState = .idle → isFinite freq = true → fgt freq posZero = true →
      Performs s (.setCpufreq freq) { s with cpuFreq := freq }
  | sample {i : Instr} {a : F64} : AcceptsSample i a s →
      Performs s i (sampleStep a (timestamp s.sampleCount.toNat s.sampleRate) s)
  | endStream : s.runState = .idle ∨ s.runState = .running → s.pulseCount.toNat ≤ 2 ^ 32 - 1 →
      Performs s .endStream { s with runState := .ended }
  | readReg {idx : Byte} {r : Register} : registerOf idx = some r →
      Performs s (.readReg idx) (emitResp (readRegister r s) s)

/-- A command with checks performs as `Performs` says, where its effect does when every check passes. -/
theorem performs_unlessFaulted_checked {s : State} {i : Instr} {checks : List (Bool × Cause)} {effect : State → State}
    (hi : i ≠ .reset) (hc : ∀ c ∈ checks, c.2 ≠ .noFault)
    (he : s.runState ≠ .faulted → (∀ c ∈ checks, c.1 = false) → Performs s i (effect s)) :
    Performs s i (unlessFaulted (checked checks effect) s) := by
  rcases unlessFaulted_checked_cases checks effect s with ⟨hf, h⟩ | ⟨hf, c, hmem, h⟩ | ⟨hf, hpass, h⟩
  · rw [h]
    exact .ignored hi hf
  · rw [h]
    exact .faulted hi hf (hc _ hmem)
  · rw [h]
    exact he hf hpass

/-- A row of the configured arity with finite values is carried by its command (44_sample_ops.md R182, R183). -/
theorem carriesSample_sampleCommand {row : SampleRow} {s : State} (ha : s.channels = arityOf row)
    (hf : rowIsFinite row = true) : CarriesSample (sampleCommand row) (downmix row) s := by
  cases row with
  | mono v0 => exact .inl ⟨rfl, ha⟩
  | stereo v0 v1 =>
    obtain ⟨h0, h1⟩ := Bool.and_eq_true_iff.1 hf
    exact .inr ⟨v0, v1, rfl, ha, h0, h1, rfl⟩

/-- A sample that passes every check of 44_sample_ops.md R180 is admitted. -/
theorem acceptsSample_of_checks {row : SampleRow} {s : State} (hs : s.runState ≠ .faulted)
    (h : ∀ c ∈ sampleChecks row s, c.1 = false) : AcceptsSample (sampleCommand row) (downmix row) s := by
  simp only [sampleChecks, List.forall_mem_cons, decide_eq_false_iff_not, not_or, not_not, Bool.not_eq_false',
    timestampOverflows, timestampReal] at h
  obtain ⟨hended, ⟨hrate, -⟩, harity, hrow, hfin, hcount, htime, -⟩ := h
  refine ⟨?_, hrate, carriesSample_sampleCommand harity hrow, hfin, Nat.lt_of_not_le hcount, htime⟩
  cases hr : s.runState <;> simp_all

theorem performs_performSample (row : SampleRow) (s : State) :
    Performs s (sampleCommand row) (performSample row s) := by
  exact performs_unlessFaulted_checked (by cases row <;> nofun) (by simp [sampleChecks]) fun hs h =>
    .sample (acceptsSample_of_checks hs h)

theorem performs_of_readReg {idx : Byte} {s t : State} (h : exec (.readReg idx) s = .next t) :
    Performs s (.readReg idx) t := by
  rw [exec, execReadReg] at h
  cases hr : registerOf idx with
  | some r =>
    rw [hr] at h
    obtain rfl := Host.Outcome.next.inj h
    exact .readReg hr
  | none =>
    rw [hr] at h
    obtain rfl := Host.Outcome.next.inj h
    by_cases hf : s.runState = .faulted
    · rw [unlessFaulted_of_faulted hf]
      exact .ignored nofun hf
    · rw [unlessFaulted_of_not hf]
      exact .faulted nofun hf nofun

/-- Every answer of a command is one that `Performs` names. -/
theorem performs_of_exec {i : Instr} {s t : State} (h : exec i s = .next t) : Performs s i t := by
  cases i with
  | reset =>
    obtain rfl := Host.Outcome.next.inj h
    exact .reset
  | setRate rate =>
    obtain rfl := Host.Outcome.next.inj h
    refine performs_unlessFaulted_checked nofun (by simp) fun _ hpass => ?_
    obtain ⟨hidle, hrate⟩ : s.runState = .idle ∧ rate ≠ 0 := by simpa using hpass
    exact .setRate hidle hrate
  | setChannels ch =>
    obtain rfl := Host.Outcome.next.inj h
    refine performs_unlessFaulted_checked nofun (by simp) fun _ hpass => ?_
    obtain ⟨hidle, hch⟩ : s.runState = .idle ∧ (ch ≠ 1 → ch = 2) := by simpa using hpass
    exact .setChannels hidle (or_iff_not_imp_left.2 hch)
  | setCpufreq freq =>
    obtain rfl := Host.Outcome.next.inj h
    refine performs_unlessFaulted_checked nofun (by simp) fun _ hpass => ?_
    obtain ⟨hidle, hfin, hpos⟩ : s.runState = .idle ∧ isFinite freq = true ∧ fgt freq posZero = true := by
      simpa using hpass
    exact .setCpufreq hidle hfin hpos
  | sampleMono a =>
    obtain rfl := Host.Outcome.next.inj h
    exact performs_performSample (.mono a) s
  | sampleStereo a0 a1 =>
    obtain rfl := Host.Outcome.next.inj h
    exact performs_performSample (.stereo a0 a1) s
  | endStream =>
    obtain rfl := Host.Outcome.next.inj h
    refine performs_unlessFaulted_checked nofun (by simp) fun hf hpass => ?_
    obtain ⟨hopen, hlen⟩ : s.runState ≠ .ended ∧ s.pulseCount.toNat ≤ Config.maxPulses := by simpa using hpass
    exact .endStream (by cases hr : s.runState <;> simp_all) hlen
  | readReg idx => exact performs_of_readReg h

/-- An accepted sample leaves the configuration as it is (44_sample_ops.md R181). -/
theorem sampleStep_configuration (a : F64) (t : Word64) (s : State) :
    (sampleStep a t s).sampleRate = s.sampleRate ∧ (sampleStep a t s).cpuFreq = s.cpuFreq ∧
      (sampleStep a t s).channels = s.channels := by
  rcases sampleStep_cases a t s with ⟨-, he⟩ | ⟨e, -, he⟩ <;> simp [he]

/-- Settles O30: SET commands write in IDLE alone, and no other command but RESET writes the configuration. -/
theorem configurationChangesOnlyInIdle : Obligations.ConfigurationChangesOnlyInIdle := by
  intro i s t h hi hidle
  have hp := performs_of_exec h
  clear h
  cases hp with
  | reset => exact absurd rfl hi
  | setRate h _ | setChannels h _ | setCpufreq h _ _ => exact absurd h hidle
  | ignored | faulted | endStream | readReg => exact ⟨rfl, rfl, rfl⟩
  | sample _ => exact sampleStep_configuration _ _ s

end Sys2Proof.Machine
end

section
/-! PROOFS. STATUS as READ_REG shows it (10_state.md R26; 60_exceptions.md R201), and the values of reset (R35). -/

namespace Sys2Proof.Machine

/-- Settles O14, value by value from the definition of reset. -/
theorem resetStateIsTheTable : Obligations.ResetStateIsTheTable :=
  ⟨rfl, rfl, rfl, rfl, rfl, rfl, rfl, rfl, rfl, rfl, rfl, rfl, rfl, rfl⟩

/-- Settles O23, code by code. -/
theorem statusCodesAreTheTables : Obligations.StatusCodesAreTheTables := ⟨rfl, rfl⟩

/-- The fields of a word laid out as STATUS is, for any two codes: their bits do not overlap. -/
theorem extractLsb'_status (c : Byte) (r : BitVec 2) :
    ((c ++ (0 : BitVec 6) ++ r).setWidth 64).extractLsb' 0 2 = r ∧
    ((c ++ (0 : BitVec 6) ++ r).setWidth 64).extractLsb' 2 6 = 0 ∧
    ((c ++ (0 : BitVec 6) ++ r).setWidth 64).extractLsb' 8 8 = c ∧
    ((c ++ (0 : BitVec 6) ++ r).setWidth 64).extractLsb' 16 48 = 0 := by
  have hr := r.isLt
  have hc := c.isLt
  have hval : ((c ++ (0 : BitVec 6) ++ r).setWidth 64).toNat = c.toNat * 2 ^ 8 + r.toNat := by
    rw [BitVec.toNat_setWidth, BitVec.toNat_append, BitVec.toNat_append, show (0 : BitVec 6).toNat = 0 from rfl,
      Nat.or_zero, ← Nat.shiftLeft_add_eq_or_of_lt hr, Nat.shiftLeft_eq, Nat.shiftLeft_eq]
    omega
  have field (lo n : Nat) : (((c ++ (0 : BitVec 6) ++ r).setWidth 64).extractLsb' lo n).toNat =
      (c.toNat * 2 ^ 8 + r.toNat) / 2 ^ lo % 2 ^ n := by
    rw [BitVec.extractLsb'_toNat, hval, Nat.shiftRight_eq_div_pow]
  refine ⟨?_, ?_, ?_, ?_⟩ <;> apply BitVec.eq_of_toNat_eq <;> rw [field]
  · omega
  · show _ = 0
    omega
  · omega
  · show _ = 0
    omega

/-- Settles O22: READ_REG 3 reads the STATUS word, whose fields are the codes it is made of. -/
theorem statusWordHasItsFields : Obligations.StatusWordHasItsFields :=
  fun s => ⟨statusWord s, rfl, extractLsb'_status s.cause.code s.runState.code⟩

end Sys2Proof.Machine
end

section
/-! PROOFS. The invariant of the states a run reaches (10_state.md R24 to R33): reset meets it, and every step keeps it. -/

namespace Sys2Proof.Machine

/-! ### What the scan's functions answer -/

/-- The held offset is the pair's own where it is defined, the older one otherwise (42_zero_crossing_detector.md R147). -/
theorem heldOffset_eq_or (p a : F64) (lastzo : Option F64) :
    heldOffset p a lastzo = (crossingOffset p a).or lastzo := by
  cases h : crossingOffset p a <;> simp [heldOffset, h]

/-- A pair emits its candidate exactly where it qualifies and an offset is held (42_zero_crossing_detector.md R146). -/
theorem crossingEvent_eq_some {p a e : F64} {t : Word64} {lastzo : Option F64} :
    crossingEvent p a t lastzo = some e ↔
      qualifies p a = true ∧ ∃ zo l, crossingOffset p a = some zo ∧ lastzo = some l ∧ e = candidate t zo l := by
  cases hq : qualifies p a <;> cases hzo : crossingOffset p a <;> cases lastzo <;>
    simp [crossingEvent, hq, hzo, eq_comm]

theorem detectEvent_eq_some {a e : F64} {t : Word64} {s : State} :
    detectEvent a t s = some e ↔ ∃ p, s.prev = some p ∧ crossingEvent p a t s.lastzo = some e := by
  cases h : s.prev <;> simp [detectEvent, h]

/-- The Pulse Byte of one more event reads the last event before it (43_pulse_quantizer.md R163, R164). -/
theorem pulseBytesFrom_append_singleton (freq prev e : F64) (es : List F64) :
    pulseBytesFrom freq prev (es ++ [e]) =
      pulseBytesFrom freq prev es ++ [quantize freq (fsub e ((prev :: es).getLast (by simp)))] := by
  induction es generalizing prev with
  | nil => rfl
  | cons d ds ih => simp [pulseBytesFrom, ih]

/-- One event more is one Pulse Byte more, as QuantStep computes it (43_pulse_quantizer.md R163, R164). -/
theorem pulseBytes_append_singleton (freq e : F64) (es : List F64) :
    pulseBytes freq (es ++ [e]) = pulseBytes freq es ++ [pulseByte freq e es.getLast?] := by
  cases es with
  | nil => rfl
  | cons d ds =>
    simp [pulseBytes, pulseByte, pulseBytesFrom_append_singleton, List.getLast?_eq_some_getLast]

/-! ### Reset -/

/-- Settles O37: nothing is accepted, held or emitted, and CPU_FREQ is the default. -/
theorem resetMeetsTheInvariant : Obligations.ResetMeetsTheInvariant := fun bytes =>
  { cause_iff_faulted := by simp [State.reset]
    channels_legal := .inl rfl
    cpuFreq_legal := by
      show isFinite Config.cpuFreqDefault = true ∧ fgt Config.cpuFreqDefault posZero = true
      decide
    idle_unsampled := fun _ => rfl
    running_sampled := nofun
    sampled_configured := fun h => absurd rfl h
    sampleCount_le := Nat.zero_le _
    prev_isSome_iff := by simp [State.reset]
    prev_finite := nofun
    lastzo_sampled := nofun
    lastzo_finite := nofun
    crossOut_finite := nofun
    lastev_eq := rfl
    crossCount_eq := rfl
    pulseCount_eq := rfl
    pulse_eq_cross := rfl
    unheld_uncrossed := fun _ => rfl
    crossCount_bound := Nat.zero_le _
    crossCount_before := nofun
    ended_payload := nofun
    pulses_eq := rfl }

theorem inv_performReset (s : State) : (performReset s).Inv := { resetMeetsTheInvariant s.cmdIn with }

/-! ### The updates of a state, one lemma each -/

section
variable {s : State} (hs : s.Inv)
include hs

theorem State.Inv.cause_eq (h : s.runState ≠ .faulted) : s.cause = .noFault :=
  not_not.1 fun hc => h (hs.cause_iff_faulted.1 hc)

/-- In IDLE nothing has been emitted. -/
theorem State.Inv.crossOut_of_idle (h : s.runState = .idle) : s.crossOut = [] := by
  have hbound := hs.crossCount_bound
  rw [hs.idle_unsampled h, hs.crossCount_eq] at hbound
  exact List.length_eq_zero_iff.1 (by simpa using hbound)

/-- The invariant says nothing of CMD_IN and the position. -/
theorem State.Inv.takeCommand (rest : List Byte) : (takeCommand rest s).Inv := { hs with }

/-- The invariant says nothing of RESP_OUT. -/
theorem State.Inv.emitResp (v : Word64) : (emitResp v s).Inv := { hs with }

theorem State.Inv.raiseFault {c : Cause} (hc : c ≠ .noFault) : (raiseFault c s).Inv :=
  { hs with
    cause_iff_faulted := by simpa using hc
    idle_unsampled := nofun
    running_sampled := nofun
    ended_payload := nofun }

theorem State.Inv.setRate {rate : Word32} (h : s.runState = .idle) :
    ({ s with sampleRate := rate } : State).Inv :=
  { hs with sampled_configured := fun hn => absurd (hs.idle_unsampled h) hn }

theorem State.Inv.setChannels {ch : Byte} (h : s.runState = .idle) (hch : ch = 1 ∨ ch = 2) :
    ({ s with channels := ch } : State).Inv :=
  { hs with
    channels_legal := .inr hch
    sampled_configured := fun hn => absurd (hs.idle_unsampled h) hn }

/-- No Pulse Byte is there yet for a new frequency to disagree with. -/
theorem State.Inv.setCpufreq {freq : F64} (h : s.runState = .idle) (hf : isFinite freq = true)
    (hpos : fgt freq posZero = true) : ({ s with cpuFreq := freq } : State).Inv :=
  { hs with
    cpuFreq_legal := ⟨hf, hpos⟩
    pulses_eq := by
      show s.pulseOut = pulseBytes freq s.crossOut
      rw [hs.pulses_eq, hs.crossOut_of_idle h, pulseBytes, pulseBytes] }

theorem State.Inv.endStream (h : s.runState = .idle ∨ s.runState = .running)
    (hlen : s.pulseCount.toNat ≤ 2 ^ 32 - 1) : ({ s with runState := .ended } : State).Inv :=
  { hs with
    cause_iff_faulted := by
      have : s.runState ≠ .faulted := by rcases h with h | h <;> simp [h]
      simp [hs.cause_eq this]
    idle_unsampled := nofun
    running_sampled := nofun
    ended_payload := fun _ => hlen }

end

/-! ### An accepted sample -/

/-- A count below 2^53 does not wrap (10_state.md R30; log entry 5). -/
theorem toNat_succ_of_lt {n : Word64} (h : n.toNat < 2 ^ 53) : (n + 1).toNat = n.toNat + 1 := by
  rw [BitVec.toNat_add, show (1 : Word64).toNat = 1 from rfl]
  omega

/-- What the detector's scan makes of an accepted sample, before an event is emitted (44_sample_ops.md R181). -/
def scanned (a : F64) (s : State) : State :=
  { s with
    runState := .running
    sampleCount := s.sampleCount + 1
    prev := some a
    lastzo := (detectWrite a s).lastzo }

/-- An accepted sample is a scan, and then an event with its Pulse Byte where the pair emits one. -/
theorem sampleStep_eq (a : F64) (t : Word64) (s : State) :
    sampleStep a t s = emitEvent (detectEvent a t s) (scanned a s) := by
  rcases sampleStep_cases a t s with ⟨hev, h⟩ | ⟨e, hev, h⟩ <;> rw [h, hev] <;> rfl

theorem AcceptsSample.channels_ne_zero {i : Instr} {a : F64} {s : State} (h : AcceptsSample i a s) : s.channels ≠ 0 := by
  obtain ⟨-, -, ⟨-, hch⟩ | ⟨_, _, -, hch, -⟩, -⟩ := h <;> simp [hch]

/-- The offset that is held after a sample: one that was held before, or that of the pair it closes. -/
theorem lastzo_scanned {a l : F64} {s : State} (h : (scanned a s).lastzo = some l) :
    s.lastzo = some l ∨ ∃ p, s.prev = some p ∧ crossingOffset p a = some l := by
  cases hp : s.prev with
  | none => exact .inl (by rwa [scanned, detectWrite_lastzo_none hp] at h)
  | some p =>
    rw [scanned, detectWrite_lastzo_some hp, heldOffset_eq_or, Option.or_eq_some_iff] at h
    rcases h with h | ⟨-, h⟩
    · exact .inr ⟨p, rfl, h⟩
    · exact .inl h

theorem lastzo_of_lastzo_scanned_none {a : F64} {s : State} (h : (scanned a s).lastzo = none) : s.lastzo = none := by
  cases hp : s.prev with
  | none => rwa [scanned, detectWrite_lastzo_none hp] at h
  | some p =>
    rw [scanned, detectWrite_lastzo_some hp, heldOffset_eq_or, Option.or_eq_none_iff] at h
    exact h.2

section
variable {s : State} (hs : s.Inv)
include hs

theorem State.Inv.sampleCount_pos {p : F64} (hp : s.prev = some p) : 0 < s.sampleCount.toNat := by
  have hne := hs.prev_isSome_iff.1 (by rw [hp, Option.isSome_some])
  exact Nat.pos_of_ne_zero fun h => hne (BitVec.eq_of_toNat_eq h)

/-- The scan keeps the invariant, and leaves one sample to spare before the next pair. -/
theorem State.Inv.scanned {i : Instr} {a : F64} (h : AcceptsSample i a s) : (scanned a s).Inv := by
  have hch := h.channels_ne_zero
  obtain ⟨hrun, hrate, -, hfin, hlt, -⟩ := h
  have hcount := toNat_succ_of_lt hlt
  have hsampled : s.sampleCount + 1 ≠ 0 := fun h0 => by
    rw [h0, show (0 : Word64).toNat = 0 from rfl] at hcount
    omega
  have held_sampled {l : F64} (hl : (Machine.scanned a s).lastzo = some l) : 0 < s.sampleCount.toNat := by
    rcases lastzo_scanned hl with hold | ⟨p, hp, -⟩
    · have := hs.lastzo_sampled (by rw [hold, Option.isSome_some])
      omega
    · exact hs.sampleCount_pos hp
  exact
    { hs with
      cause_iff_faulted := by
        have : s.runState ≠ .faulted := by rcases hrun with hrun | hrun <;> simp [hrun]
        simp [Machine.scanned, hs.cause_eq this]
      idle_unsampled := nofun
      running_sampled := fun _ => hsampled
      sampled_configured := fun _ => ⟨hrate, hch⟩
      sampleCount_le := hcount.trans_le hlt
      prev_isSome_iff := by simpa [Machine.scanned] using hsampled
      prev_finite := by
        rintro p ⟨⟩
        exact hfin
      lastzo_sampled := fun hl => by
        obtain ⟨l, hl⟩ := Option.isSome_iff_exists.1 hl
        have := held_sampled hl
        show 2 ≤ (s.sampleCount + 1).toNat
        omega
      lastzo_finite := fun l hl => by
        rcases lastzo_scanned hl with hold | ⟨p, hp, hpair⟩
        · exact hs.lastzo_finite l hold
        · exact atMost_crossingOffset (hs.prev_finite p hp) hfin hpair
      unheld_uncrossed := fun hl => hs.unheld_uncrossed (lastzo_of_lastzo_scanned_none hl)
      crossCount_bound := by
        show 2 * s.crossCount.toNat ≤ (s.sampleCount + 1).toNat - 1
        have := hs.crossCount_bound
        omega
      crossCount_before := fun _ _ _ hl => by
        obtain ⟨l, hl⟩ := Option.isSome_iff_exists.1 hl
        have := held_sampled hl
        have := hs.crossCount_bound
        show 2 * s.crossCount.toNat + 2 ≤ (s.sampleCount + 1).toNat
        omega
      ended_payload := nofun }

/-- Emitting a bounded event with its Pulse Byte keeps the invariant where enough samples were accepted for one more event,
an offset is held, and the pair to come does not begin below zero. -/
theorem State.Inv.emitEvent {e : F64} (he : AtMost ((2 ^ 64 + 2 ^ 53) * oneUnits) e) (hrun : s.runState = .running)
    (hroom : 2 * (s.crossCount.toNat + 1) ≤ s.sampleCount.toNat - 1) (hheld : s.lastzo.isSome = true)
    (hprev : ∀ p, s.prev = some p → flt p posZero = false) : (emitEvent (some e) s).Inv := by
  have hle := hs.sampleCount_le
  have hcross := toNat_succ_of_lt (n := s.crossCount) (by omega)
  exact
    { hs with
      crossOut_finite := fun d hd => by
        rcases List.mem_append.1 hd with hd | hd
        · exact hs.crossOut_finite d hd
        · exact List.mem_singleton.1 hd ▸ he
      lastev_eq := List.getLast?_concat.symm
      crossCount_eq := by
        show (s.crossCount + 1).toNat = (s.crossOut ++ [e]).length
        rw [hcross, hs.crossCount_eq, List.length_append, List.length_singleton]
      pulseCount_eq := by
        show (s.pulseCount + 1).toNat = (s.pulseOut ++ [pulseByte s.cpuFreq e s.lastev]).length
        rw [hs.pulse_eq_cross, hcross, ← hs.pulse_eq_cross, hs.pulseCount_eq, List.length_append, List.length_singleton]
      pulse_eq_cross := congrArg (· + 1) hs.pulse_eq_cross
      unheld_uncrossed := fun hl => absurd hheld (by simp [show s.lastzo = none from hl])
      crossCount_bound := hcross ▸ hroom
      crossCount_before := fun p hp hneg _ => absurd (hprev p hp) (by simp [hneg])
      ended_payload := fun h => absurd (hrun.symm.trans h) nofun
      pulses_eq := by
        show s.pulseOut ++ [pulseByte s.cpuFreq e s.lastev] = pulseBytes s.cpuFreq (s.crossOut ++ [e])
        rw [pulseBytes_append_singleton, hs.pulses_eq, hs.lastev_eq] }

/-- An accepted sample keeps the invariant: a qualifying pair begins below zero and ends at zero or above, so the pair
after it does not qualify (42_zero_crossing_detector.md R149). -/
theorem State.Inv.sampleStep {i : Instr} {a : F64} (t : Word64) (h : AcceptsSample i a s) : (sampleStep a t s).Inv := by
  have hscan := hs.scanned h
  obtain ⟨-, -, -, hfin, hlt, -⟩ := h
  rw [sampleStep_eq]
  cases hev : detectEvent a t s with
  | none => exact hscan
  | some e =>
    obtain ⟨p, hp, hev⟩ := detectEvent_eq_some.1 hev
    obtain ⟨hq, zo, l, hzo, hl, rfl⟩ := crossingEvent_eq_some.1 hev
    have hpfin := hs.prev_finite p hp
    obtain ⟨hneg, hge⟩ := Bool.and_eq_true_iff.1 hq
    have hbefore := hs.crossCount_before p hp hneg (by rw [hl, Option.isSome_some])
    have hcount := toNat_succ_of_lt hlt
    refine hscan.emitEvent (atMost_candidate t (atMost_crossingOffset_of_qualifies hpfin hfin hq hzo)
      (hs.lastzo_finite l hl)) rfl ?_ ?_ ?_
    · show 2 * (s.crossCount.toNat + 1) ≤ (s.sampleCount + 1).toNat - 1
      omega
    · show (detectWrite _ s).lastzo.isSome = true
      rw [detectWrite_lastzo_some hp, heldOffset_eq_or, hzo, Option.some_or, Option.isSome_some]
    · rintro _ ⟨⟩
      have hz : isNaN posZero = false := by decide
      rw [fge_iff (isNaN_of_isFinite hfin) hz] at hge
      rw [← Bool.not_eq_true, flt_iff (isNaN_of_isFinite hfin) hz, not_lt]
      exact hge

/-! ### Every step -/

theorem State.Inv.performs {i : Instr} {t : State} (h : Performs s i t) : t.Inv := by
  cases h with
  | reset => exact inv_performReset s
  | ignored _ _ => exact hs
  | faulted _ _ hc => exact hs.raiseFault hc
  | setRate hidle _ => exact hs.setRate hidle
  | setChannels hidle hch => exact hs.setChannels hidle hch
  | setCpufreq hidle hfin hpos => exact hs.setCpufreq hidle hfin hpos
  | sample h => exact hs.sampleStep _ h
  | endStream hopen hlen => exact hs.endStream hopen hlen
  | readReg _ => exact hs.emitResp _

theorem State.Inv.performInvalid (v : Verdict) : (performInvalid v s).Inv := by
  rw [Machine.performInvalid, unlessFaulted]
  split
  · exact hs
  · exact hs.raiseFault (by cases v <;> nofun)

end

/-- Settles O38, by the verdict of the decoder and the cases of `Performs`. -/
theorem everyStepKeepsTheInvariant : Obligations.EveryStepKeepsTheInvariant := by
  intro s t hs h
  rw [step] at h
  split at h
  · exact Host.Outcome.next.inj h ▸ hs
  · exact (hs.takeCommand _).performs (performs_of_exec h)
  · exact Host.Outcome.next.inj h ▸ (hs.takeCommand _).performInvalid _

end Sys2Proof.Machine
end

section
/-! PROOFS. Numbers as little-endian bytes (20_memory.md R54), and the decoder on a command's own encoding
(30_encoding.md R72 to R74). -/

namespace Sys2Proof

/-- The bytes of two numbers laid end to end are those of the one and then those of the other. -/
theorem leBytes_add (m n : Nat) {x : Nat} (y : Nat) (hx : x < 256 ^ m) :
    leBytes (m + n) (x + y * 256 ^ m) = leBytes m x ++ leBytes n y := by
  induction m generalizing x with
  | zero =>
    obtain rfl : x = 0 := by simpa using hx
    simp [leBytes]
  | succ m ih =>
    have hy : y * 256 ^ (m + 1) = 256 * (y * 256 ^ m) := by rw [Nat.pow_succ', Nat.mul_left_comm]
    have hlow : BitVec.ofNat 8 (x + 256 * (y * 256 ^ m)) = BitVec.ofNat 8 x := by
      apply BitVec.eq_of_toNat_eq
      rw [BitVec.toNat_ofNat, BitVec.toNat_ofNat]
      omega
    have hhigh : (x + 256 * (y * 256 ^ m)) / 256 = x / 256 + y * 256 ^ m := by omega
    have hx' : x / 256 < 256 ^ m := by
      rw [Nat.pow_succ] at hx
      omega
    rw [hy, Nat.succ_add, leBytes, hlow, hhigh, ih hx', leBytes, List.cons_append]

/-- Byte `k` of a word is its bits [8k+7:8k] (20_memory.md R54). -/
theorem leBytes_toNat {w : Nat} (n : Nat) (v : BitVec w) :
    leBytes n v.toNat = (List.range n).map fun k => v.extractLsb' (8 * k) 8 := by
  induction n generalizing w with
  | zero => rfl
  | succ n ih =>
    have hshift : v.toNat / 256 = (v >>> 8).toNat := by
      rw [BitVec.toNat_ushiftRight, Nat.shiftRight_eq_div_pow]
    rw [leBytes, hshift, ih, List.range_succ_eq_map, List.map_cons, List.map_map]
    congr 1
    refine List.map_congr_left fun k _ => BitVec.eq_of_toNat_eq ?_
    simp only [Function.comp, BitVec.extractLsb'_toNat, BitVec.toNat_ushiftRight, ← Nat.shiftRight_add]
    congr 2
    omega

/-- A command's encoding is its opcode byte and then its operand fields, which begin at bit 8 (30_encoding.md R72). -/
theorem encode_eq_cons {i : Instr} {k n : Nat} (hk : i.opcode.format.length = 1 + k) (hn : i.operandBits = n * 256) :
    encode i = i.opcode.byte :: leBytes k n := by
  have := leBytes_add 1 k n i.opcode.byte.isLt
  rw [encode, hk, hn]
  simpa [leBytes] using this

/-- Every command's encoding begins with its opcode byte (30_encoding.md R71, R73). -/
theorem head_encode_eq_opcode (i : Instr) : (encode i).head? = some i.opcode.byte :=
  match i with
  | .reset => Laws.EncodedLength.reset.1
  | .setRate rate => (Laws.EncodedLength.setRate rate).1
  | .setChannels ch => (Laws.EncodedLength.setChannels ch).1
  | .setCpufreq freq => (Laws.EncodedLength.setCpufreq freq).1
  | .sampleMono a => (Laws.EncodedLength.sampleMono a).1
  | .sampleStereo a0 a1 => (Laws.EncodedLength.sampleStereo a0 a1).1
  | .endStream => Laws.EncodedLength.endStream.1
  | .readReg idx => (Laws.EncodedLength.readReg idx).1

theorem fieldOf_eq_of_toNat_eq {w lo n : Nat} {v : BitVec n} (h : w / 2 ^ lo % 2 ^ n = v.toNat) : fieldOf w lo n = v :=
  BitVec.eq_of_toNat_eq ((toNat_fieldOf w lo n).trans h)

/-- The operand fields are found where they were put (30_encoding.md R72, R74). -/
theorem instrOf_encoded (i : Instr) :
    instrOf i.opcode ((i.opcode.byte.toNat + i.operandBits) % 256 ^ i.opcode.format.length) = i := by
  have hop := i.opcode.byte.isLt
  cases i with
  | reset | endStream => rfl
  | setRate v | setChannels v | setCpufreq v | sampleMono v | readReg v =>
    have hv := v.isLt
    simp only [Instr.opcode] at hop
    simp only [Instr.opcode, instrOf, Instr.operandBits, Opcode.format, Format.length]
    rw [fieldOf_eq_of_toNat_eq]
    omega
  | sampleStereo x y =>
    have hx := x.isLt
    have hy := y.isLt
    simp only [Instr.opcode] at hop
    simp only [Instr.opcode, instrOf, Instr.operandBits, Opcode.format, Format.length]
    rw [fieldOf_eq_of_toNat_eq (v := x) (by omega), fieldOf_eq_of_toNat_eq (v := y) (by omega)]

/-- What the decoder answers where a legal opcode byte has all its operand bytes (30_encoding.md R70, R77). -/
theorem decodeNext_of_opcodeOf {b : Byte} {bs : List Byte} {op : Opcode} (h : opcodeOf b = some op)
    (hlen : op.format.length ≤ (b :: bs).length) :
    decodeNext (b :: bs) = some (.command (instrOf op (leNat ((b :: bs).take op.format.length)))
      ((b :: bs).drop op.format.length)) := by
  simp only [decodeNext, h, if_neg hlen.not_gt]

/-- The decoder reads a command off its own encoding, whatever bytes follow (30_encoding.md R71 to R74, R77). -/
theorem decodeNext_encode_append (i : Instr) (rest : List Byte) :
    decodeNext (encode i ++ rest) = some (.command i rest) := by
  obtain ⟨bs, hbs⟩ := List.head?_eq_some_iff.1 (head_encode_eq_opcode i)
  have hlen := length_encode i
  have hdec := decodeNext_of_opcodeOf (bs := bs ++ rest) (opcodeOf_byte i.opcode) (by
    rw [← List.cons_append, ← hbs, List.length_append, hlen]
    exact Nat.le_add_right _ _)
  rw [← List.cons_append, ← hbs, List.take_left' hlen, List.drop_left' hlen] at hdec
  rw [hdec, encode, leNat_leBytes, instrOf_encoded]

end Sys2Proof
end

section
/-! PROOFS. The bytes of what the block exchanges (20_memory.md R54), and the TAP container (R59 to R61). -/

namespace Sys2Proof.Machine

/-- Byte `k` of a 64-bit word (20_memory.md R54). -/
theorem getElem?_wordBytes (v : Word64) {k : Nat} (hk : k < 8) :
    (wordBytes v)[k]? = some (v.extractLsb' (8 * k) 8) := by
  rw [wordBytes, leBytes_toNat, List.getElem?_map, List.getElem?_range hk, Option.map_some]

theorem encode_setRate (rate : Word32) : encode (.setRate rate) = 0x02 :: leBytes 4 rate.toNat :=
  encode_eq_cons rfl rfl

theorem encode_setCpufreq (freq : F64) : encode (.setCpufreq freq) = 0x04 :: wordBytes freq := encode_eq_cons rfl rfl

theorem encode_sampleMono (a : F64) : encode (.sampleMono a) = 0x10 :: wordBytes a := encode_eq_cons rfl rfl

/-- Channel 0 comes first (30_encoding.md R72). -/
theorem encode_sampleStereo (a0 a1 : F64) :
    encode (.sampleStereo a0 a1) = 0x11 :: (wordBytes a0 ++ wordBytes a1) := by
  rw [wordBytes, wordBytes, ← leBytes_add 8 8 a1.toNat a0.isLt]
  exact encode_eq_cons rfl (by simp only [Instr.operandBits]; omega)

@[simp] theorem wordsOfBytes_wordBytes_append (v : Word64) (bs : List Byte) :
    wordsOfBytes (wordBytes v ++ bs) = v :: wordsOfBytes bs := by
  have hread : wordsOfBytes (wordBytes v ++ bs) = BitVec.ofNat 64 (leNat (wordBytes v)) :: wordsOfBytes bs := by
    simp only [wordBytes, leBytes, List.cons_append, List.nil_append, wordsOfBytes]
  rw [hread, leNat_wordBytes, BitVec.ofNat_toNat, BitVec.setWidth_eq]

/-- The words of a stream are read back from their bytes (20_memory.md R54; log entry 14). -/
theorem wordsOfBytes_flatMap_wordBytes (ws : List Word64) : wordsOfBytes (ws.flatMap wordBytes) = ws := by
  induction ws with
  | nil => rfl
  | cons w ws ih => rw [List.flatMap_cons, wordsOfBytes_wordBytes_append, ih]

/-- The payload length field stands at offset 16 (20_memory.md R59). -/
theorem drop_tapHeader (n : Nat) : (tapHeader n).drop 16 = leBytes 4 n := rfl

theorem length_tapHeader (n : Nat) : (tapHeader n).length = 20 := rfl

/-- Settles O49, by the layout of each value. -/
theorem multiByteValuesAreLittleEndian : Obligations.MultiByteValuesAreLittleEndian := by
  refine ⟨fun v k => ⟨length_wordBytes v, getElem?_wordBytes v⟩, fun rate => ?_, fun x y => ?_, fun s => ?_, fun n => ?_⟩
  · rw [encode_setRate, leBytes_toNat]
    rfl
  · exact ⟨encode_setCpufreq x, encode_sampleMono x, encode_sampleStereo x y⟩
  · exact ⟨List.flatMap_def, List.flatMap_def, wordsOfBytes_flatMap_wordBytes _, wordsOfBytes_flatMap_wordBytes _⟩
  · rw [drop_tapHeader, leBytes_toNat]
    rfl

theorem tapFile_of_ended {s : State} (h : s.runState = .ended) :
    tapFile s = some (tapHeader s.pulseCount.toNat ++ s.pulseOut) := if_pos h

/-- A header reads back to its fields where the length fits its four bytes, whatever payload follows (20_memory.md R59,
R61). -/
theorem readTapHeader_tapHeader_append {n : Nat} (hn : n < 256 ^ 4) (payload : List Byte) :
    readTapHeader (tapHeader n ++ payload) =
      some { magic := tapMagic, version := 0, reserved := [0, 0, 0], payloadLength := n } := by
  have hlen : ¬ (tapHeader n ++ payload).length < 20 := by
    rw [List.length_append, length_tapHeader]
    omega
  have hfield : ((tapHeader n ++ payload).drop 16).take 4 = leBytes 4 n := rfl
  have hversion : ((tapHeader n ++ payload).drop 12).head? = some 0 := rfl
  simp only [readTapHeader, hversion, if_neg hlen, hfield, leNat_leBytes, Nat.mod_eq_of_lt hn]
  rfl

/-- Settles O48: END left a count that the length field holds, and the count is the stream's length. -/
theorem tapHeaderReadsBack : Obligations.TapHeaderReadsBack := by
  intro s hs hended
  have hfits := hs.ended_payload hended
  refine ⟨_, tapFile_of_ended hended, ?_, List.drop_left' (length_tapHeader _), ?_⟩
  · rw [readTapHeader_tapHeader_append (by omega), hs.pulseCount_eq]
    rfl
  · rw [List.length_append, length_tapHeader]

end Sys2Proof.Machine
end

section
/-! PROOFS. What repeating a configuring command does (20_memory.md R56), and what a command does to the output streams
(R52, R53). -/

namespace Sys2Proof.Machine

/-- In FAULTED every command but RESET and READ_REG is ignored (40_control_ops.md R100). -/
theorem exec_of_faulted {i : Instr} {s : State} (hs : s.runState = .faulted) (hreset : i ≠ .reset)
    (hread : ∀ idx, i ≠ .readReg idx) : exec i s = .next s := by
  cases i with
  | reset => exact absurd rfl hreset
  | readReg idx => exact absurd rfl (hread idx)
  | setRate | setChannels | setCpufreq | sampleMono | sampleStereo | endStream =>
    exact congrArg Host.Outcome.next (unlessFaulted_of_faulted hs)

/-- A command with checks has its effect where it is not ignored and every check passes. -/
theorem unlessFaulted_checked_of_pass {checks : List (Bool × Cause)} {effect : State → State} {s : State}
    (hs : s.runState ≠ .faulted) (hpass : ∀ c ∈ checks, c.1 = false) :
    unlessFaulted (checked checks effect) s = effect s := by
  rw [unlessFaulted_of_not hs, checked, firstFailing_eq_none.2 hpass]

section
variable {s : State} (hs : s.runState = .idle)
include hs

theorem exec_setRate_of_idle {rate : Word32} (hrate : rate ≠ 0) :
    exec (.setRate rate) s = .next { s with sampleRate := rate } :=
  congrArg Host.Outcome.next (unlessFaulted_checked_of_pass (by simp [hs]) (by simpa [hs] using hrate))

theorem exec_setChannels_of_idle {ch : Byte} (hch : ch = 1 ∨ ch = 2) :
    exec (.setChannels ch) s = .next { s with channels := ch } :=
  congrArg Host.Outcome.next (unlessFaulted_checked_of_pass (by simp [hs]) (by simpa [hs] using or_iff_not_imp_left.1 hch))

theorem exec_setCpufreq_of_idle {freq : F64} (hfin : isFinite freq = true) (hpos : fgt freq posZero = true) :
    exec (.setCpufreq freq) s = .next { s with cpuFreq := freq } :=
  congrArg Host.Outcome.next (unlessFaulted_checked_of_pass (by simp [hs]) (by simp [hs, hfin, hpos]))

end

theorem AcceptsSample.isSampleCommand {i : Instr} {a : F64} {s : State} (h : AcceptsSample i a s) :
    IsSampleCommand i := by
  obtain ⟨-, -, ⟨rfl, -⟩ | ⟨a0, a1, rfl, -⟩, -⟩ := h
  · exact .inl ⟨a, rfl⟩
  · exact .inr ⟨a0, a1, rfl⟩

theorem not_isSampleCommand_of_configures {i : Instr} (h : i = .reset ∨ IsSetCommand i) : ¬ IsSampleCommand i := by
  rcases h with rfl | ⟨_, rfl⟩ | ⟨_, rfl⟩ | ⟨_, rfl⟩ <;> simp [IsSampleCommand]

theorem ne_readReg_of_configures {i : Instr} (h : i = .reset ∨ IsSetCommand i) (idx : Byte) : i ≠ .readReg idx := by
  rcases h with rfl | ⟨_, rfl⟩ | ⟨_, rfl⟩ | ⟨_, rfl⟩ <;> nofun

/-- Settles O24: what was reset stays reset, a fault is not left, and in IDLE the same value is written again. -/
theorem configuringTwiceIsConfiguringOnce : Obligations.ConfiguringTwiceIsConfiguringOnce := by
  intro i s t hi h
  have hp := performs_of_exec h
  cases hp with
  | reset => rfl
  | ignored _ _ => exact h
  | faulted hreset _ _ => exact exec_of_faulted rfl hreset (ne_readReg_of_configures hi)
  | @setRate rate hidle hrate => exact exec_setRate_of_idle (s := { s with sampleRate := rate }) hidle hrate
  | @setChannels ch hidle hch => exact exec_setChannels_of_idle (s := { s with channels := ch }) hidle hch
  | @setCpufreq freq hidle hfin hpos => exact exec_setCpufreq_of_idle (s := { s with cpuFreq := freq }) hidle hfin hpos
  | sample ha => exact absurd ha.isSampleCommand (not_isSampleCommand_of_configures hi)
  | endStream _ _ => simp [IsSetCommand] at hi
  | readReg _ => exact absurd rfl (ne_readReg_of_configures hi _)

/-- An accepted sample appends one event and one Pulse Byte, or nothing (44_sample_ops.md R181, R184). -/
theorem sampleStep_streams (a : F64) (t : Word64) (s : State) :
    (∃ es, (sampleStep a t s).crossOut = s.crossOut ++ es) ∧ (∃ bs, (sampleStep a t s).pulseOut = s.pulseOut ++ bs) ∧
      (sampleStep a t s).respOut = s.respOut := by
  rcases sampleStep_cases a t s with ⟨-, he⟩ | ⟨e, -, he⟩
  · rw [he]
    exact ⟨⟨[], (List.append_nil _).symm⟩, ⟨[], (List.append_nil _).symm⟩, rfl⟩
  · rw [he]
    exact ⟨⟨_, rfl⟩, ⟨_, rfl⟩, rfl⟩

/-- Settles O31: a sample appends to CROSS_OUT and PULSE_OUT, READ_REG to RESP_OUT, and no other command but RESET writes
a stream. -/
theorem streamsOnlyGrowUntilReset : Obligations.StreamsOnlyGrowUntilReset := by
  intro i s t h hreset
  have same {α : Type} (l : List α) : ∃ a, l = l ++ a := ⟨[], (List.append_nil l).symm⟩
  have hp := performs_of_exec h
  clear h
  cases hp with
  | reset => exact absurd rfl hreset
  | ignored | faulted | setRate | setChannels | setCpufreq | endStream => exact ⟨same _, same _, same _⟩
  | sample _ =>
    obtain ⟨hcross, hpulse, hresp⟩ := sampleStep_streams _ (timestamp s.sampleCount.toNat s.sampleRate) s
    exact ⟨hcross, hpulse, [], by rw [hresp, List.append_nil]⟩
  | readReg _ => exact ⟨same _, same _, _, rfl⟩

end Sys2Proof.Machine
end

section
/-! PROOFS. A run over the encodings of a list of commands (20_memory.md R51, R57): no command looks at CMD_IN or at the
position, so what the host presents and how far it is makes no difference to what a command does. -/

namespace Sys2Proof.Machine

/-- The same block with other bytes presented by the host, and at another position in its list. -/
def State.presenting (s : State) (bytes : List Byte) (n : Nat) : State := { s with cmdIn := bytes, position := n }

/-- An effect on the block that neither looks at what the host presents nor changes it. -/
def HostBlind (effect : State → State) : Prop :=
  ∀ s bytes n, effect (s.presenting bytes n) = (effect s).presenting bytes n

theorem takeCommand_presenting (s : State) (bytes rest : List Byte) (n : Nat) :
    takeCommand rest (s.presenting bytes n) = s.presenting rest (n + 1) := rfl

theorem hostBlind_checked {effect : State → State} (he : HostBlind effect) (checks : List (Bool × Cause)) :
    HostBlind (checked checks effect) := by
  intro s bytes n
  cases h : firstFailing checks with
  | none => simp only [checked, h, he s bytes n]
  | some c =>
    simp only [checked, h]
    rfl

theorem hostBlind_unlessFaulted {effect : State → State} (he : HostBlind effect) :
    HostBlind (unlessFaulted effect) := by
  intro s bytes n
  by_cases hs : s.runState = .faulted
  · rw [unlessFaulted_of_faulted hs]
    exact unlessFaulted_of_faulted hs
  · rw [unlessFaulted_of_not hs, unlessFaulted_of_not (show (s.presenting bytes n).runState ≠ .faulted from hs), he]

theorem hostBlind_scanned (a : F64) : HostBlind (scanned a) := by
  intro s bytes n
  cases h : s.prev <;> simp [scanned, detectWrite, State.presenting, h]

theorem hostBlind_emitEvent (ev : Option F64) : HostBlind (emitEvent ev) := by
  intro s bytes n
  cases ev <;> rfl

theorem hostBlind_sampleStep (a : F64) (t : Word64) : HostBlind (sampleStep a t) := by
  intro s bytes n
  have hevent : detectEvent a t (s.presenting bytes n) = detectEvent a t s := rfl
  rw [sampleStep_eq, sampleStep_eq, hevent, hostBlind_scanned, hostBlind_emitEvent]

theorem hostBlind_performSample (row : SampleRow) : HostBlind (performSample row) := fun s bytes n =>
  hostBlind_unlessFaulted
    (hostBlind_checked (fun s => hostBlind_sampleStep _ (timestamp s.sampleCount.toNat s.sampleRate) s) _) s bytes n

/-- READ_REG's word does not depend on the host: no register is CMD_IN or the position (10_state.md R34). -/
theorem readRegister_presenting (r : Register) (s : State) (bytes : List Byte) (n : Nat) :
    readRegister r (s.presenting bytes n) = readRegister r s := by
  cases r <;> rfl

/-- Every command completes, and is blind to the host (70_reset_and_hazards.md R244). -/
theorem exec_presenting (i : Instr) (s : State) : ∃ t, exec i s = .next t ∧
    ∀ bytes n, exec i (s.presenting bytes n) = .next (t.presenting bytes n) := by
  cases i with
  | reset => exact ⟨_, rfl, fun _ _ => rfl⟩
  | setRate | setChannels | setCpufreq | endStream =>
    exact ⟨_, rfl, fun bytes n => congrArg Host.Outcome.next
      (hostBlind_unlessFaulted (hostBlind_checked (fun _ _ _ => rfl) _) s bytes n)⟩
  | sampleMono a => exact ⟨_, rfl, fun bytes n => congrArg Host.Outcome.next (hostBlind_performSample (.mono a) s bytes n)⟩
  | sampleStereo a0 a1 =>
    exact ⟨_, rfl, fun bytes n => congrArg Host.Outcome.next (hostBlind_performSample (.stereo a0 a1) s bytes n)⟩
  | readReg idx =>
    simp only [exec, execReadReg]
    cases registerOf idx with
    | none =>
      exact ⟨_, rfl, fun bytes n => congrArg Host.Outcome.next (hostBlind_unlessFaulted (fun _ _ _ => rfl) s bytes n)⟩
    | some r =>
      refine ⟨_, rfl, fun bytes n => congrArg Host.Outcome.next ?_⟩
      rw [readRegister_presenting]
      rfl

/-- A command leaves alone what the host presents (10_state.md R20, R21). -/
theorem cmdIn_of_exec {i : Instr} {s t : State} (h : exec i s = .next t) : t.cmdIn = s.cmdIn := by
  obtain ⟨u, hu, hblind⟩ := exec_presenting i s
  obtain rfl := Host.Outcome.next.inj (hu.symm.trans h)
  have hself : u = u.presenting s.cmdIn s.position := Host.Outcome.next.inj (hu.symm.trans (hblind _ _))
  rw [hself]
  rfl

/-- One step over a command's encoding performs that command on what follows it. -/
theorem step_presenting_encode {i : Instr} {s t : State} (h : exec i s = .next t) (rest : List Byte) (n : Nat) :
    step (s.presenting (encode i ++ rest) n) = .next (t.presenting rest (n + 1)) := by
  obtain ⟨u, hu, hblind⟩ := exec_presenting i s
  obtain rfl := Host.Outcome.next.inj (hu.symm.trans h)
  rw [step_of_command (decodeNext_encode_append i rest), takeCommand_presenting, hblind]

/-- A run over the encodings of a list performs the list, one step for each command. -/
theorem run_encodeAll_eq_execAll (is : List Instr) (rest : List Byte) (s : State) (n : Nat) :
    ∃ t, execAll is s = .next t ∧ t.cmdIn = s.cmdIn ∧
      Host.Core.run Sys2Proof.core is.length (s.presenting (encodeAll is ++ rest) n) =
        .next (t.presenting rest (n + is.length)) := by
  induction is generalizing s n with
  | nil => exact ⟨s, rfl, rfl, rfl⟩
  | cons i is ih =>
    obtain ⟨u, hu, -⟩ := exec_presenting i s
    obtain ⟨t, ht, hcmd, hrun⟩ := ih u (n + 1)
    refine ⟨t, ?_, hcmd.trans (cmdIn_of_exec hu), ?_⟩
    · simp only [execAll, hu, ht]
    · rw [encodeAll, List.flatMap_cons, List.append_assoc, List.length_cons,
        core_run_succ _ _ _ (step_presenting_encode hu _ n), ← encodeAll, hrun, Nat.add_right_comm, Nat.add_assoc]

/-- Settles O13, from the run that presents the encodings and any bytes after them. -/
theorem runPerformsCommandsInOrder : Obligations.RunPerformsCommandsInOrder := by
  intro is rest s
  obtain ⟨t, ht, hcmd, hrun⟩ := run_encodeAll_eq_execAll is rest { s with cmdIn := rest } s.position
  refine ⟨t, ht, hrun.trans (congrArg Host.Outcome.next ?_)⟩
  rw [State.presenting, ← show t.cmdIn = rest from hcmd]

end Sys2Proof.Machine
end

section
/-! PROOFS. The decoder and the encoder, each against the other (30_encoding.md R70 to R77): what the next verdict is, by
its three cases, and how the verdicts on a byte string follow one another. -/

namespace Sys2Proof

/-! ### The next verdict -/

theorem decodeNext_of_illegal {b : Byte} (bs : List Byte) (h : opcodeOf b = none) :
    decodeNext (b :: bs) = some (.invalid .illegalOpcode bs) := by
  simp only [decodeNext, h]

theorem decodeNext_of_truncated {b : Byte} {bs : List Byte} {op : Opcode} (h : opcodeOf b = some op)
    (hlen : (b :: bs).length < op.format.length) :
    decodeNext (b :: bs) = some (.invalid .truncatedCommand []) := by
  simp only [decodeNext, h, if_pos hlen]

/-- A byte string that is not empty begins with an illegal opcode, with a command that it ends inside, or with a whole
command (30_encoding.md R75, R76, R77). -/
theorem decodeNext_cases (b : Byte) (bs : List Byte) :
    (opcodeOf b = none ∧ decodeNext (b :: bs) = some (.invalid .illegalOpcode bs)) ∨
    ∃ op, opcodeOf b = some op ∧
      (((b :: bs).length < op.format.length ∧ decodeNext (b :: bs) = some (.invalid .truncatedCommand [])) ∨
        (op.format.length ≤ (b :: bs).length ∧
          decodeNext (b :: bs) = some (.command (instrOf op (leNat ((b :: bs).take op.format.length)))
            ((b :: bs).drop op.format.length)))) := by
  cases hop : opcodeOf b with
  | none => exact .inl ⟨rfl, decodeNext_of_illegal bs hop⟩
  | some op =>
    refine .inr ⟨op, rfl, ?_⟩
    rcases Nat.lt_or_ge (b :: bs).length op.format.length with hlen | hlen
    · exact .inl ⟨hlen, decodeNext_of_truncated hop hlen⟩
    · exact .inr ⟨hlen, decodeNext_of_opcodeOf hop hlen⟩

/-- A byte is an illegal opcode exactly where it selects no command, and it is used up alone (30_encoding.md R75). -/
theorem decodeNext_eq_illegalOpcode (b : Byte) (bs : List Byte) :
    decodeNext (b :: bs) = some (.invalid .illegalOpcode bs) ↔ opcodeOf b = none := by
  rcases decodeNext_cases b bs with ⟨hop, h⟩ | ⟨op, hop, ⟨-, h⟩ | ⟨-, h⟩⟩ <;> simp [h, hop]

/-- Every verdict uses up at least one byte. -/
theorem length_rest_of_decodeNext {bytes : List Byte} {d : Decoded} (h : decodeNext bytes = some d) :
    d.rest.length < bytes.length := by
  cases bytes with
  | nil => cases h
  | cons b bs =>
    rcases decodeNext_cases b bs with ⟨-, hd⟩ | ⟨op, -, ⟨-, hd⟩ | ⟨-, hd⟩⟩ <;>
      obtain rfl := Option.some.inj (hd.symm.trans h)
    · exact Nat.lt_succ_self _
    · exact Nat.succ_pos _
    · have := format_length_pos op.format
      simp only [Decoded.rest, List.length_drop, List.length_cons]
      omega

/-- There is a verdict wherever a byte is left. -/
theorem exists_decodeNext_eq_some {bytes : List Byte} (h : bytes ≠ []) : ∃ d, decodeNext bytes = some d := by
  obtain ⟨b, bs, rfl⟩ := List.exists_cons_of_ne_nil h
  rcases decodeNext_cases b bs with ⟨-, hd⟩ | ⟨op, -, ⟨-, hd⟩ | ⟨-, hd⟩⟩ <;> exact ⟨_, hd⟩

/-- A truncated command uses up the whole string (30_encoding.md R76). -/
theorem rest_of_truncatedCommand {bytes rest : List Byte}
    (h : decodeNext bytes = some (.invalid .truncatedCommand rest)) : rest = [] := by
  cases bytes with
  | nil => cases h
  | cons b bs =>
    rcases decodeNext_cases b bs with ⟨-, hd⟩ | ⟨op, -, ⟨-, hd⟩ | ⟨-, hd⟩⟩ <;> rw [hd] at h <;> cases h
    rfl

/-! ### All verdicts -/

@[simp] theorem decodeAll_nil : decodeAll [] = [] := rfl

/-- More fuel than bytes changes nothing: each verdict uses up a byte. -/
theorem decodeUpTo_eq_decodeAll {fuel : Nat} {bytes : List Byte} (h : bytes.length ≤ fuel) :
    decodeUpTo fuel bytes = decodeAll bytes := by
  induction hn : bytes.length using Nat.strongRecOn generalizing fuel bytes with
  | ind n ih =>
    cases fuel with
    | zero => rw [List.length_eq_zero_iff.1 (Nat.le_zero.1 h), decodeAll_nil, decodeUpTo]
    | succ fuel =>
      cases n with
      | zero => rw [List.length_eq_zero_iff.1 hn]; rfl
      | succ n =>
        rw [decodeAll, hn, decodeUpTo, decodeUpTo]
        cases hd : decodeNext bytes with
        | none => rfl
        | some d =>
          have hlt := length_rest_of_decodeNext hd
          dsimp only
          rw [ih _ (by omega) (by omega) rfl, ih _ (by omega) (by omega) rfl]

/-- The verdicts on a string are its next one and those on what that leaves (30_encoding.md R70). -/
theorem decodeAll_of_decodeNext {bytes : List Byte} {d : Decoded} (h : decodeNext bytes = some d) :
    decodeAll bytes = d :: decodeAll d.rest := by
  have hlt := length_rest_of_decodeNext h
  rw [decodeAll]
  obtain ⟨n, hn⟩ := Nat.exists_eq_add_of_lt hlt
  rw [hn, decodeUpTo, h]
  dsimp only
  rw [decodeUpTo_eq_decodeAll (Nat.le_add_right _ _)]

/-! ### From commands to bytes and back -/

/-- Settles O1, from the opcode byte and the fields that the encoder lays out. -/
theorem decodeOfEncodeIsTheCommand : Obligations.DecodeOfEncodeIsTheCommand :=
  fun i rest _ => decodeNext_encode_append i rest

/-- Settles O3, by induction on the commands: each is read off the front of the stream. -/
theorem encodedStreamDecodesInOrder : Obligations.EncodedStreamDecodesInOrder := by
  intro is
  induction is with
  | nil => rfl
  | cons i is ih =>
    have hnext := decodeNext_encode_append i (encodeAll is)
    rw [encodeAll, List.flatMap_cons, ← encodeAll, decodeAll_of_decodeNext hnext, List.map_cons, List.map_cons]
    exact congrArg (some i :: ·) ih

/-- The operand fields of a number, put back beside its opcode byte, are the number (30_encoding.md R72). -/
theorem byte_add_operandBits_instrOf {op : Opcode} {w : Nat} (hlow : w % 256 = op.byte.toNat)
    (hw : w < 256 ^ op.format.length) : op.byte.toNat + (instrOf op w).operandBits = w := by
  rw [← hlow]
  cases op <;> simp only [Opcode.format, Format.length] at hw <;>
    simp only [instrOf, Instr.operandBits, toNat_fieldOf] <;> omega

/-- The encoding of what is read from a command's bytes is those bytes (30_encoding.md R72, R73). -/
theorem encode_instrOf_leNat {op : Opcode} {bytes : List Byte} (hlen : bytes.length = op.format.length)
    (hlow : leNat bytes % 256 = op.byte.toNat) : encode (instrOf op (leNat bytes)) = bytes := by
  have hw := leNat_lt bytes
  rw [hlen] at hw
  rw [encode, opcode_instrOf, byte_add_operandBits_instrOf hlow hw, ← hlen, leBytes_leNat]

theorem leNat_take_mod (b : Byte) (bs : List Byte) {n : Nat} (hn : 0 < n) :
    leNat ((b :: bs).take n) % 256 = b.toNat := by
  obtain ⟨k, rfl⟩ := Nat.exists_eq_add_of_lt hn
  have := b.isLt
  rw [Nat.zero_add, List.take_succ_cons, leNat]
  omega

/-- Settles O2: the bytes a command is read from are its encoding. -/
theorem decodedBytesAreTheEncoding : Obligations.DecodedBytesAreTheEncoding := by
  intro bytes rest i h
  cases bytes with
  | nil => cases h
  | cons b bs =>
    rcases decodeNext_cases b bs with ⟨-, hd⟩ | ⟨op, hop, ⟨-, hd⟩ | ⟨hlen, hd⟩⟩ <;> rw [hd] at h <;> cases h
    rw [encode_instrOf_leNat (List.length_take_of_le hlen), List.take_append_drop]
    rw [leNat_take_mod b bs (format_length_pos _), byte_of_opcodeOf hop]

/-- Settles O4, by induction on the length of the string: a verdict that leaves nothing is the last. -/
theorem decoderIsTotalOnByteStrings : Obligations.DecoderIsTotalOnByteStrings := by
  intro bytes
  induction hn : bytes.length using Nat.strongRecOn generalizing bytes with
  | ind n ih =>
    intro hne
    obtain ⟨d, hd⟩ := exists_decodeNext_eq_some hne
    rw [decodeAll_of_decodeNext hd]
    by_cases hrest : d.rest = []
    · simp [hrest]
    · obtain ⟨hlast, htrunc⟩ := ih _ (hn ▸ length_rest_of_decodeNext hd) d.rest rfl hrest
      obtain ⟨e, he⟩ := exists_decodeNext_eq_some hrest
      rw [decodeAll_of_decodeNext he] at hlast htrunc ⊢
      refine ⟨by rwa [List.getLast?_cons_cons], ?_⟩
      rw [List.dropLast_cons_cons, List.forall_mem_cons]
      refine ⟨fun rest hinv => hrest ?_, htrunc⟩
      subst hinv
      exact rest_of_truncatedCommand hd

/-- Settles O6: the opcode byte is there, and fewer bytes than its format takes. -/
theorem cutOffCommandIsTruncated : Obligations.CutOffCommandIsTruncated := by
  intro i k hk hlen
  obtain ⟨bs, hbs⟩ := List.head?_eq_some_iff.1 (head_encode_eq_opcode i)
  obtain ⟨j, rfl⟩ := Nat.exists_eq_add_of_lt hk
  have hcut := List.length_take_of_le hlen.le
  rw [hbs, Nat.zero_add, List.take_succ_cons] at hcut ⊢
  refine decodeNext_of_truncated (opcodeOf_byte _) ?_
  rw [hcut, ← length_encode]
  omega

/-- The bytes that select no command, in the ranges of 30_encoding.md R75. -/
theorem opcodeOf_eq_none (b : Byte) : opcodeOf b = none ↔
    b = 0x00 ∨ (0x05 ≤ b ∧ b ≤ 0x0F) ∨ (0x12 ≤ b ∧ b ≤ 0x1F) ∨ (0x21 ≤ b ∧ b ≤ 0x2F) ∨ 0x31 ≤ b := by
  revert b
  decide +kernel

/-- Settles O5: an illegal opcode is a byte that selects no command. -/
theorem illegalOpcodeUsesOneByte : Obligations.IllegalOpcodeUsesOneByte := by
  refine ⟨fun b rest => ?_, by decide +kernel⟩
  rw [decodeNext_eq_illegalOpcode, opcodeOf_eq_none]

/-- Settles O7, word by word. -/
theorem specWordsDecode : Obligations.SpecWordsDecode := by
  refine ⟨?_, ?_, ?_, ?_, ?_⟩ <;> decide +kernel

end Sys2Proof
end

section
/-! PROOFS. The words of assembler text, the parser's against the grammar's (30_encoding.md R78): numbers, decimal
literals, floats and registers. No word holds a blank or a comma. -/

namespace Sys2Proof.Machine

/-! ### Digits -/

/-- The place of a character in an alphabet, from the codes of the alphabet's characters. -/
theorem getElem?_eq_some_iff_toNat {cs : List Char} {code : Nat → Nat}
    (h : cs.map Char.toNat = (List.range cs.length).map code) (d : Nat) (c : Char) :
    cs[d]? = some c ↔ d < cs.length ∧ c.toNat = code d := by
  rcases Nat.lt_or_ge d cs.length with hd | hd
  · have hcode : (cs[d]).toNat = code d := by
      have := congrArg (·[d]?) h
      simpa [hd] using this
    rw [List.getElem?_eq_getElem hd, Option.some_inj, ← hcode, ← Char.toNat_inj]
    simp [hd, eq_comm]
  · simp [hd.not_gt]

theorem getElem?_decimal (d : Nat) (c : Char) : "0123456789".toList[d]? = some c ↔ d < 10 ∧ c.toNat = 48 + d :=
  getElem?_eq_some_iff_toNat (by decide) d c

theorem getElem?_lowerHex (d : Nat) (c : Char) :
    "0123456789abcdef".toList[d]? = some c ↔ d < 16 ∧ c.toNat = if d < 10 then 48 + d else 87 + d :=
  getElem?_eq_some_iff_toNat (code := fun d => if d < 10 then 48 + d else 87 + d) (by decide) d c

theorem getElem?_upperHex (d : Nat) (c : Char) :
    "0123456789ABCDEF".toList[d]? = some c ↔ d < 16 ∧ c.toNat = if d < 10 then 48 + d else 55 + d :=
  getElem?_eq_some_iff_toNat (code := fun d => if d < 10 then 48 + d else 55 + d) (by decide) d c

theorem char_le_iff_toNat (a b : Char) : a ≤ b ↔ a.toNat ≤ b.toNat := Iff.rfl

/-- A decimal digit's value is its place in the grammar's alphabet. -/
theorem decDigit_iff (c : Char) (d : Nat) :
    decDigit c = some d ↔ ∃ a ∈ ["0123456789"], a.toList[d]? = some c := by
  simp only [List.mem_singleton, exists_eq_left, getElem?_decimal, decDigit, char_le_iff_toNat, Char.reduceToNat]
  split
  · rw [Option.some_inj]
    omega
  · simp only [reduceCtorEq, false_iff]
    omega

/-- A hexadecimal digit's value is its place in one of the grammar's two alphabets. -/
theorem hexDigit_iff (c : Char) (d : Nat) :
    hexDigit c = some d ↔ ∃ a ∈ ["0123456789abcdef", "0123456789ABCDEF"], a.toList[d]? = some c := by
  simp only [List.mem_cons, List.not_mem_nil, or_false, exists_eq_or_imp, exists_eq_left, getElem?_lowerHex,
    getElem?_upperHex, hexDigit, char_le_iff_toNat, Char.reduceToNat]
  split_ifs <;> simp only [Option.some_inj, false_iff] <;> omega

/-! ### Numbers -/

theorem readDec_iff (cs : List Char) (n : Nat) : readDec cs = some n ↔ DecText cs n := by
  cases cs with
  | nil => simp [readDec, DecText, DigitsText]
  | cons c cs => exact readDigits_iff decDigit_iff (List.cons_ne_nil c cs) n

theorem readHex_iff (cs : List Char) (n : Nat) : readHex cs = some n ↔ HexText cs n := by
  cases cs with
  | nil => simp [readHex, HexText, DigitsText]
  | cons c cs => exact readDigits_iff hexDigit_iff (List.cons_ne_nil c cs) n

theorem exists_of_forall₂_of_mem {α β : Type} {R : α → β → Prop} {as : List α} {bs : List β} (h : List.Forall₂ R as bs)
    {a : α} (ha : a ∈ as) : ∃ b ∈ bs, R a b := by
  induction h with
  | nil => cases ha
  | @cons x y xs ys hxy _ ih =>
    rcases List.mem_cons.1 ha with rfl | ha
    · exact ⟨y, List.mem_cons_self, hxy⟩
    · obtain ⟨b, hb, hab⟩ := ih ha
      exact ⟨b, List.mem_cons_of_mem y hb, hab⟩

/-- A character outside the alphabets stands nowhere in a number. -/
theorem DigitsText.notMem {base : Nat} {alphabets : List String} {cs : List Char} {n : Nat}
    (h : DigitsText base alphabets cs n) {c : Char} (hc : ∀ a ∈ alphabets, c ∉ a.toList) : c ∉ cs := by
  obtain ⟨-, ds, hds, -⟩ := h
  intro hmem
  obtain ⟨d, -, a, ha, hget⟩ := exists_of_forall₂_of_mem hds (List.mem_reverse.2 hmem)
  exact hc a ha (List.mem_of_getElem? hget)

theorem DecText.notMem {cs : List Char} {n : Nat} (h : DecText cs n) {c : Char} (hc : c ∉ "0123456789".toList) : c ∉ cs :=
  DigitsText.notMem h (by simpa using hc)

/-- A `uint` of the parser is a `uint` of the grammar (30_encoding.md R78): `x` is no decimal digit, so the two radices
do not overlap. -/
theorem parseUint_iff (cs : List Char) (n : Nat) : parseUint cs = some n ↔ UintText cs n := by
  unfold parseUint UintText
  split
  · next hex =>
    rw [readHex_iff]
    refine ⟨fun h => .inr ⟨hex, rfl, h⟩, ?_⟩
    rintro (h | ⟨_, ⟨⟩, h⟩)
    · exact absurd (by simp) (h.notMem (c := 'x') (by decide))
    · exact h
  · next hne =>
    rw [readDec_iff]
    exact (or_iff_left (by rintro ⟨hex, rfl, -⟩; exact hne hex rfl)).symm

theorem readDigits_append (digit : Char → Option Nat) (base acc : Nat) (as bs : List Char) :
    readDigits digit base acc (as ++ bs) = (readDigits digit base acc as).bind fun v => readDigits digit base v bs := by
  induction as generalizing acc with
  | nil => rfl
  | cons c as ih =>
    rw [List.cons_append, readDigits, readDigits]
    cases digit c with
    | none => rfl
    | some d => exact ih _

/-- What was read before stands before the digits still to come. -/
theorem readDigits_eq_map (digit : Char → Option Nat) (base acc : Nat) (cs : List Char) :
    readDigits digit base acc cs = (readDigits digit base 0 cs).map (acc * base ^ cs.length + ·) := by
  induction cs generalizing acc with
  | nil => simp [readDigits]
  | cons c cs ih =>
    rw [readDigits, readDigits]
    cases digit c with
    | none => rfl
    | some d =>
      dsimp only
      rw [ih, ih (0 * base + d), Option.map_map]
      congr 1
      funext v
      simp only [Function.comp, List.length_cons, pow_succ]
      ring

/-- Two runs of digits laid end to end. -/
theorem decText_append {as bs : List Char} (ha : as ≠ []) (hb : bs ≠ []) (n : Nat) :
    DecText (as ++ bs) n ↔ ∃ v w, DecText as v ∧ DecText bs w ∧ n = v * 10 ^ bs.length + w := by
  simp only [← readDec_iff]
  have read {cs : List Char} (h : cs ≠ []) : readDec cs = readDigits decDigit 10 0 cs := if_neg (by simpa using h)
  rw [read (by simp [ha]), readDigits_append, read ha, read hb]
  rw [Option.bind_eq_some_iff]
  refine exists_congr fun v => ?_
  rw [readDigits_eq_map _ _ v bs, Option.map_eq_some_iff]
  simp only [exists_and_left, eq_comm]

/-! ### Decimal literals -/

/-- What stands behind the `e` of a decimal literal, where there is one. -/
def readExponent (o : Option (List Char)) : Option Int :=
  match o with
  | none => some 0
  | some ds => parseExponent ds

/-- What stands before it: digits, cut at a point or not. -/
def readMantissa (neg : Bool) (e : Int) (m : List Char × Option (List Char)) : Option AsmFloat :=
  match m.2 with
  | none => (readDec m.1).map fun w => .decimal neg w e
  | some ds => (readDec m.1).bind fun w => (readDec ds).map fun f => .decimal neg (w * 10 ^ ds.length + f) (e - ds.length)

theorem parseDecimal_eq (neg : Bool) (cs : List Char) :
    parseDecimal neg cs = (readExponent (splitFirst 'e' cs).2).bind fun e =>
      readMantissa neg e (splitFirst '.' (splitFirst 'e' cs).1) := by
  unfold parseDecimal readMantissa
  obtain ⟨m, x, he⟩ : ∃ m x, splitFirst 'e' cs = (m, x) := ⟨_, _, rfl⟩
  obtain ⟨w, f, hp⟩ : ∃ w f, splitFirst '.' m = (w, f) := ⟨_, _, rfl⟩
  cases x <;> cases f <;> simp [he, hp, readExponent, Option.map_eq_bind]

theorem parseExponent_iff (ds : List Char) (e : Int) : parseExponent ds = some e ↔ ExponentText ('e' :: ds) e := by
  have noSign {c : Char} (hc : c ∉ "0123456789".toList) (cs : List Char) (n : Nat) : ¬ DecText (c :: cs) n :=
    fun h => h.notMem hc List.mem_cons_self
  simp only [ExponentText, List.cons_ne_nil, false_and, false_or, List.cons.injEq, true_and]
  unfold parseExponent
  split
  · next ds =>
    simp only [Option.map_eq_some_iff, readDec_iff]
    constructor
    · rintro ⟨n, hn, rfl⟩
      exact ⟨ds, n, hn, .inr ⟨rfl, rfl⟩⟩
    · rintro ⟨_, n, hn, ⟨rfl | ⟨⟨⟩, -⟩, -⟩ | ⟨⟨-, rfl⟩, rfl⟩⟩
      · exact absurd hn (noSign (by decide) _ _)
      · exact ⟨n, hn, rfl⟩
  · next ds =>
    simp only [Option.map_eq_some_iff, readDec_iff]
    constructor
    · rintro ⟨n, hn, rfl⟩
      exact ⟨ds, n, hn, .inl ⟨.inr rfl, rfl⟩⟩
    · rintro ⟨_, n, hn, ⟨rfl | ⟨-, rfl⟩, rfl⟩ | ⟨⟨⟨⟩, -⟩, -⟩⟩
      · exact absurd hn (noSign (by decide) _ _)
      · exact ⟨n, hn, rfl⟩
  · next hminus hplus =>
    simp only [Option.map_eq_some_iff, readDec_iff]
    constructor
    · rintro ⟨n, hn, rfl⟩
      exact ⟨ds, n, hn, .inl ⟨.inl rfl, rfl⟩⟩
    · rintro ⟨_, n, hn, ⟨rfl | rfl, rfl⟩ | ⟨rfl, -⟩⟩
      · exact ⟨n, hn, rfl⟩
      · exact absurd rfl (hplus _)
      · exact absurd rfl (hminus _)

/-- Cutting at the `e` finds the exponent of a literal, or that there is none. -/
theorem readExponent_iff (cs m : List Char) (e : Int) :
    (splitFirst 'e' cs).1 = m ∧ readExponent (splitFirst 'e' cs).2 = some e ↔
      'e' ∉ m ∧ ∃ x, ExponentText x e ∧ cs = m ++ x := by
  constructor
  · rintro ⟨rfl, h⟩
    rcases splitFirst_cases 'e' cs with ⟨hnot, hs⟩ | ⟨a, b, rfl, hnot, hs⟩ <;> rw [hs] at h ⊢
    · refine ⟨hnot, [], .inl ⟨rfl, ?_⟩, (List.append_nil cs).symm⟩
      exact (Option.some.inj h).symm
    · exact ⟨hnot, _, (parseExponent_iff b e).1 h, rfl⟩
  · rintro ⟨hnot, x, hx, rfl⟩
    rcases hx with ⟨rfl, rfl⟩ | ⟨ds, n, hx⟩
    · rw [List.append_nil, splitFirst_of_notMem hnot]
      exact ⟨rfl, rfl⟩
    · obtain ⟨b, rfl⟩ : ∃ b, x = 'e' :: b := by
        rcases hx with ⟨-, ⟨rfl | rfl, -⟩ | ⟨rfl, -⟩⟩ <;> exact ⟨_, rfl⟩
      rw [splitFirst_append hnot]
      exact ⟨rfl, (parseExponent_iff b e).2 (.inr ⟨ds, n, hx⟩)⟩

/-- Cutting at the point finds the digits before it and behind it, or that there is no point. -/
theorem readMantissa_iff (neg : Bool) (e : Int) (m : List Char) (f : AsmFloat) :
    readMantissa neg e (splitFirst '.' m) = some f ↔
      ∃ whole fraction digits, whole ≠ [] ∧ DecText (whole ++ fraction) digits ∧
        f = .decimal neg digits (e - fraction.length) ∧
        ((fraction = [] ∧ m = whole) ∨ (fraction ≠ [] ∧ m = whole ++ '.' :: fraction)) := by
  constructor
  · intro h
    rcases splitFirst_cases '.' m with ⟨-, hs⟩ | ⟨a, b, rfl, -, hs⟩ <;> rw [hs] at h
    · obtain ⟨w, hw, rfl⟩ := Option.map_eq_some_iff.1 h
      rw [readDec_iff] at hw
      exact ⟨m, [], w, hw.1, by rwa [List.append_nil], by simp, .inl ⟨rfl, rfl⟩⟩
    · obtain ⟨w, hw, h⟩ := Option.bind_eq_some_iff.1 h
      obtain ⟨f, hf, rfl⟩ := Option.map_eq_some_iff.1 h
      rw [readDec_iff] at hw hf
      exact ⟨a, b, _, hw.1, (decText_append hw.1 hf.1 _).2 ⟨w, f, hw, hf, rfl⟩, rfl, .inr ⟨hf.1, rfl⟩⟩
  · rintro ⟨whole, fraction, digits, hne, hdigits, rfl, ⟨rfl, rfl⟩ | ⟨hf, rfl⟩⟩
    · rw [List.append_nil] at hdigits
      rw [splitFirst_of_notMem (hdigits.notMem (by decide)), readMantissa, (readDec_iff _ _).2 hdigits]
      simp
    · have hpoint : '.' ∉ whole := fun h => hdigits.notMem (c := '.') (by decide) (List.mem_append_left _ h)
      obtain ⟨w, f, hw, hf, rfl⟩ := (decText_append hne hf _).1 hdigits
      rw [splitFirst_append hpoint]
      simp only [readMantissa, (readDec_iff _ _).2 hw, (readDec_iff _ _).2 hf, Option.bind_some, Option.map_some]

/-- A decimal literal of the parser is one of the grammar (30_encoding.md R78; log entry 9). -/
theorem parseDecimal_iff (neg : Bool) (cs : List Char) (f : AsmFloat) :
    parseDecimal neg cs = some f ↔ ∃ digits e, f = .decimal neg digits e ∧ DecimalText cs digits e := by
  have cut : parseDecimal neg cs = some f ↔ ∃ m e, ('e' ∉ m ∧ ∃ x, ExponentText x e ∧ cs = m ++ x) ∧
      readMantissa neg e (splitFirst '.' m) = some f := by
    simp only [← readExponent_iff, parseDecimal_eq, Option.bind_eq_some_iff]
    exact ⟨fun ⟨e, he, hm⟩ => ⟨_, e, ⟨rfl, he⟩, hm⟩, fun ⟨_, e, ⟨rfl, he⟩, hm⟩ => ⟨e, he, hm⟩⟩
  rw [cut]
  simp only [readMantissa_iff]
  constructor
  · rintro ⟨m, e, ⟨-, x, hx, rfl⟩, whole, fraction, digits, hne, hdigits, rfl, hm⟩
    refine ⟨digits, _, rfl, whole, fraction, x, e, hne, hdigits, hx, rfl, ?_⟩
    rcases hm with ⟨hf, rfl⟩ | ⟨hf, rfl⟩
    · exact .inl ⟨hf, rfl⟩
    · exact .inr ⟨hf, by simp⟩
  · rintro ⟨digits, _, rfl, whole, fraction, x, e, hne, hdigits, hx, rfl, hm⟩
    have he : 'e' ∉ whole ++ fraction := hdigits.notMem (by decide)
    rw [List.mem_append, not_or] at he
    rcases hm with ⟨rfl, rfl⟩ | ⟨hf, rfl⟩
    · exact ⟨whole, e, ⟨he.1, x, hx, rfl⟩, whole, [], digits, hne, hdigits, rfl, .inl ⟨rfl, rfl⟩⟩
    · exact ⟨whole ++ '.' :: fraction, e, ⟨by simp [he], x, hx, by simp⟩, whole, fraction, digits, hne, hdigits, rfl,
        .inr ⟨hf, rfl⟩⟩

/-! ### Floats -/

/-- A character that stands in no literal. -/
theorem DecimalText.notMem {cs : List Char} {digits : Nat} {e : Int} (h : DecimalText cs digits e) {c : Char}
    (hdigit : c ∉ "0123456789".toList) (hsign : c ∉ ['.', 'e', '+', '-']) : c ∉ cs := by
  obtain ⟨whole, fraction, x, _, -, hdigits, hx, -, hcs⟩ := h
  have hm := hdigits.notMem hdigit
  have hx : c ∉ x := by
    rcases hx with ⟨rfl, -⟩ | ⟨ds, n, hds, ⟨rfl | rfl, -⟩ | ⟨rfl, -⟩⟩
    · exact List.not_mem_nil
    all_goals
      have := hds.notMem hdigit
      simp_all
  rcases hcs with ⟨-, rfl⟩ | ⟨-, rfl⟩ <;> simp_all

/-- A literal begins with a digit. -/
theorem DecimalText.head {cs : List Char} {digits : Nat} {e : Int} (h : DecimalText cs digits e) :
    ∃ c ds, cs = c :: ds ∧ c ∈ "0123456789".toList := by
  obtain ⟨whole, fraction, x, _, hne, hdigits, -, -, hcs⟩ := h
  obtain ⟨c, ds, rfl⟩ := List.exists_cons_of_ne_nil hne
  refine ⟨c, ?_⟩
  have hc : c ∈ "0123456789".toList := by
    by_contra hc
    exact hdigits.notMem hc List.mem_cons_self
  rcases hcs with ⟨-, rfl⟩ | ⟨-, rfl⟩ <;> exact ⟨_, rfl, hc⟩

theorem HexText.lt {cs : List Char} {n : Nat} (h : HexText cs n) : n < 16 ^ cs.length := by
  obtain ⟨-, ds, hds, rfl⟩ := h
  have hlen := hds.length_eq
  rw [List.length_reverse] at hlen
  rw [hlen]
  refine Nat.ofDigits_lt_base_pow_length (by decide) fun d hd => ?_
  obtain ⟨c, -, a, ha, hget⟩ := exists_of_forall₂_of_mem hds.flip hd
  have hsize : ∀ a ∈ ["0123456789abcdef", "0123456789ABCDEF"], a.toList.length = 16 := by decide
  exact hsize a ha ▸ (List.getElem?_eq_some_iff.1 hget).1

/-- An unsigned literal is no other form of a float. -/
theorem parseFloat_of_decimalText {cs : List Char} {digits : Nat} {e : Int} (h : DecimalText cs digits e) :
    parseFloat cs = parseDecimal false cs := by
  have hn : 'n' ∉ cs := h.notMem (by decide) (by decide)
  have hd : 'd' ∉ cs := h.notMem (by decide) (by decide)
  obtain ⟨c, ds, rfl, hc⟩ := h.head
  have ne {cs' : List Char} (hmem : 'n' ∈ cs') : c :: ds ≠ cs' := fun he => hn (he ▸ hmem)
  unfold parseFloat
  rw [if_neg (ne (by decide)), if_neg (ne (by decide)), if_neg (ne (by decide))]
  split
  · next h => exact absurd (h ▸ by simp) hd
  · next h => rw [(List.cons.inj h).1] at hc; exact absurd hc (by decide)
  · rfl

/-- A literal behind a minus sign is no other form of a float. -/
theorem parseFloat_of_neg_decimalText {cs : List Char} {digits : Nat} {e : Int} (h : DecimalText cs digits e) :
    parseFloat ('-' :: cs) = parseDecimal true cs := by
  have hn : 'n' ∉ '-' :: cs := by simpa using h.notMem (c := 'n') (by decide) (by decide)
  have ne {cs' : List Char} (hmem : 'n' ∈ cs') : '-' :: cs ≠ cs' := fun he => hn (he ▸ hmem)
  unfold parseFloat
  rw [if_neg (ne (by decide)), if_neg (ne (by decide)), if_neg (ne (by decide))]
  rfl

/-- A raw pattern is read from its sixteen hexadecimal digits. -/
theorem parseFloat_raw (hex : List Char) : parseFloat ('0' :: 'd' :: hex) =
    if hex.length = 16 then (readHex hex).map fun n => .raw (BitVec.ofNat 64 n) else none := by
  unfold parseFloat
  rw [if_neg (by simp), if_neg (by simp), if_neg (by simp)]
  rfl

theorem readHex_map_raw_iff {hex : List Char} (hlen : hex.length = 16) (f : AsmFloat) :
    (readHex hex).map (fun n => AsmFloat.raw (BitVec.ofNat 64 n)) = some f ↔ ∃ p, f = .raw p ∧ HexText hex p.toNat := by
  simp only [Option.map_eq_some_iff, readHex_iff]
  constructor
  · rintro ⟨n, hn, rfl⟩
    have hlt := hn.lt
    rw [hlen, show 16 ^ 16 = 2 ^ 64 from rfl] at hlt
    exact ⟨_, rfl, by rwa [BitVec.toNat_ofNat, Nat.mod_eq_of_lt hlt]⟩
  · rintro ⟨p, rfl, hp⟩
    exact ⟨_, hp, by rw [BitVec.ofNat_toNat, BitVec.setWidth_eq]⟩

/-- Every float of the parser is one of the grammar. -/
theorem floatText_of_parseFloat {cs : List Char} {f : AsmFloat} (h : parseFloat cs = some f) : FloatText cs f := by
  unfold parseFloat at h
  split_ifs at h with hnan hinf hneg
  · cases h; exact hnan
  · cases h; exact hinf
  · cases h; exact hneg
  split at h
  · next hex =>
    split_ifs at h with hlen
    obtain ⟨p, rfl, hp⟩ := (readHex_map_raw_iff hlen f).1 h
    exact ⟨hex, rfl, hlen, hp⟩
  · next ds =>
    obtain ⟨digits, e, rfl, hd⟩ := (parseDecimal_iff _ _ _).1 h
    exact ⟨ds, rfl, hd⟩
  · obtain ⟨digits, e, rfl, hd⟩ := (parseDecimal_iff _ _ _).1 h
    exact hd

/-- The parser's floats are the grammar's (30_encoding.md R78). -/
theorem parseFloat_iff (cs : List Char) (f : AsmFloat) : parseFloat cs = some f ↔ FloatText cs f := by
  refine ⟨floatText_of_parseFloat, fun h => ?_⟩
  unfold FloatText at h
  split at h
  · next digits e =>
    rw [parseFloat_of_decimalText h, parseDecimal_iff]
    exact ⟨digits, e, rfl, h⟩
  · next digits e =>
    obtain ⟨ds, rfl, h⟩ := h
    rw [parseFloat_of_neg_decimalText h, parseDecimal_iff]
    exact ⟨digits, e, rfl, h⟩
  · next p =>
    obtain ⟨hex, rfl, hlen, h⟩ := h
    rw [parseFloat_raw, if_pos hlen, readHex_map_raw_iff hlen]
    exact ⟨p, rfl, h⟩
  all_goals
    subst h
    rfl

/-! ### Registers -/

theorem registerText_name (cs : List Char) (r : Register) : RegisterText cs (.name r) ↔ cs = registerName r := by
  cases r <;> rfl

theorem find_registerName (r : Register) :
    allRegisters.find? (fun q => decide (registerName q = registerName r)) = some r := by
  cases r <;> decide

/-- No register's name is a `uint`. -/
theorem parseUint_registerName (r : Register) : parseUint (registerName r) = none := by
  cases r <;> decide

/-- The parser's operands of `read_reg` are the grammar's (30_encoding.md R78): a name is no `uint`. -/
theorem parseRegister_iff (cs : List Char) (r : AsmRegister) : parseRegister cs = some r ↔ RegisterText cs r := by
  rw [parseRegister]
  have found {r : Register} (h : cs = registerName r) :
      allRegisters.find? (fun q => decide (registerName q = cs)) = some r := h ▸ find_registerName r
  cases hfind : allRegisters.find? (fun q => decide (registerName q = cs)) with
  | some q =>
    obtain rfl : registerName q = cs := by simpa using List.find?_some hfind
    cases r with
    | name r =>
      rw [registerText_name]
      refine ⟨fun h => by cases h; rfl, fun h => ?_⟩
      rw [Option.some.inj (hfind.symm.trans (found h))]
    | index n => simp [RegisterText, ← parseUint_iff, parseUint_registerName]
  | none =>
    cases r with
    | name r =>
      rw [registerText_name]
      exact ⟨fun h => by simp at h, fun h => by simp [found h] at hfind⟩
    | index n => simp [RegisterText, ← parseUint_iff]

/-! ### Words hold no blank and no comma -/

/-- A text of one character or more with no blank and no comma in it, as every operand and mnemonic is. -/
structure IsWord (cs : List Char) : Prop where
  ne_nil : cs ≠ []
  blank : ' ' ∉ cs
  comma : ',' ∉ cs

theorem DecText.isWord {cs : List Char} {n : Nat} (h : DecText cs n) : IsWord cs :=
  ⟨h.1, h.notMem (by decide), h.notMem (by decide)⟩

theorem HexText.isWord {cs : List Char} {n : Nat} (h : HexText cs n) : IsWord cs :=
  ⟨h.1, DigitsText.notMem h (by decide), DigitsText.notMem h (by decide)⟩

theorem DecimalText.isWord {cs : List Char} {digits : Nat} {e : Int} (h : DecimalText cs digits e) : IsWord cs := by
  refine ⟨?_, h.notMem (by decide) (by decide), h.notMem (by decide) (by decide)⟩
  obtain ⟨c, ds, rfl, -⟩ := h.head
  exact List.cons_ne_nil c ds

theorem IsWord.cons {cs : List Char} (h : IsWord cs) {c : Char} (hb : ' ' ≠ c) (hc : ',' ≠ c) : IsWord (c :: cs) :=
  ⟨List.cons_ne_nil c cs, List.not_mem_cons_of_ne_of_not_mem hb h.blank, List.not_mem_cons_of_ne_of_not_mem hc h.comma⟩

theorem UintText.isWord {cs : List Char} {n : Nat} (h : UintText cs n) : IsWord cs := by
  rcases h with h | ⟨hex, rfl, h⟩
  · exact h.isWord
  · exact (h.isWord.cons (by decide) (by decide)).cons (by decide) (by decide)

theorem FloatText.isWord {cs : List Char} {f : AsmFloat} (h : FloatText cs f) : IsWord cs := by
  unfold FloatText at h
  split at h
  · exact h.isWord
  · obtain ⟨ds, rfl, h⟩ := h
    exact h.isWord.cons (by decide) (by decide)
  · obtain ⟨hex, rfl, -, h⟩ := h
    exact (h.isWord.cons (by decide) (by decide)).cons (by decide) (by decide)
  all_goals
    subst h
    constructor <;> decide

theorem RegisterText.isWord {cs : List Char} {r : AsmRegister} (h : RegisterText cs r) : IsWord cs := by
  cases r with
  | index n => exact UintText.isWord h
  | name r =>
    rw [registerText_name] at h
    subst h
    cases r <;> constructor <;> decide

end Sys2Proof.Machine
end

section
/-! PROOFS. Lines of assembler text: the parser reads exactly the grammar (30_encoding.md R78, R79). A line is cut at its
first blank, and its operands at their commas; blanks around a line or an operand make no difference. -/

namespace Sys2Proof.Machine

/-! ### Blanks around words -/

theorem IsWord.trimmed {cs : List Char} (h : IsWord cs) : Trimmed cs :=
  ⟨fun hh => h.blank (List.mem_of_head? hh), fun hl => h.blank (List.mem_of_getLast? hl)⟩

theorem IsWord.trimBlanks_of_padded {cs core : List Char} (hw : IsWord core) (h : Padded cs core) :
    trimBlanks cs = core := by
  rw [trimBlanks_padded h, trimBlanks_of_trimmed hw.trimmed]

theorem Padded.notMem {cs core : List Char} (h : Padded cs core) {c : Char} (hb : c ≠ ' ') (hc : c ∉ core) : c ∉ cs := by
  obtain ⟨before, after, rfl⟩ := h
  simp [List.mem_replicate, hb, hc]

theorem Padded.trans {as bs cs : List Char} (h : Padded as bs) (h' : Padded bs cs) : Padded as cs := by
  obtain ⟨m, n, rfl⟩ := h
  obtain ⟨m', n', rfl⟩ := h'
  refine ⟨m + m', n' + n, ?_⟩
  rw [List.replicate_add, List.replicate_add]
  simp only [List.append_assoc]

theorem trimBlanks_eq_nil_iff (cs : List Char) : trimBlanks cs = [] ↔ Padded cs [] :=
  ⟨fun h => h ▸ padded_trimBlanks cs, fun h => trimBlanks_padded h⟩

/-! ### Operands -/

/-- Every text is its operands, cut at the commas. -/
theorem operandsText_splitCommas (cs : List Char) : OperandsText cs ((splitCommas cs).map trimBlanks) := by
  refine ⟨splitCommas cs, ?_, (intercalate_splitCommas cs).symm⟩
  rw [List.forall₂_map_right_iff]
  exact List.forall₂_same.2 fun p _ => padded_trimBlanks p

/-- Words between commas are found by cutting there. -/
theorem OperandsText.map_splitCommas {cs : List Char} {ops : List (List Char)} (h : OperandsText cs ops) (hne : ops ≠ [])
    (hw : ∀ x ∈ ops, IsWord x) : (splitCommas cs).map trimBlanks = ops := by
  obtain ⟨pieces, hp, rfl⟩ := h
  have hpieces : pieces ≠ [] := by
    rintro rfl
    exact hne (List.forall₂_nil_left_iff.1 hp)
  rw [splitCommas_intercalate hpieces]
  · clear hpieces hne
    induction hp with
    | nil => rfl
    | cons hpad _ ih =>
      obtain ⟨hx, hxs⟩ := List.forall_mem_cons.1 hw
      rw [List.map_cons, hx.trimBlanks_of_padded hpad, ih hxs]
  · intro p hmem
    obtain ⟨x, hx, hpad⟩ := exists_of_forall₂_of_mem hp hmem
    exact hpad.notMem (by decide) (hw x hx).comma

/-- A text with words in it is not all blanks. -/
theorem OperandsText.trimBlanks_ne_nil {cs : List Char} {ops : List (List Char)} (h : OperandsText cs ops) (hne : ops ≠ [])
    (hw : ∀ x ∈ ops, IsWord x) : trimBlanks cs ≠ [] := by
  intro hnil
  have hcomma : ',' ∉ cs := ((trimBlanks_eq_nil_iff cs).1 hnil).notMem (by decide) List.not_mem_nil
  have hops := h.map_splitCommas hne hw
  rw [splitCommas_of_notMem hcomma, List.map_singleton, hnil] at hops
  exact (hw [] (hops ▸ List.mem_singleton_self _)).ne_nil rfl

theorem mapM_eq_some_iff {α β : Type} (f : α → Option β) (as : List α) (bs : List β) :
    as.mapM f = some bs ↔ List.Forall₂ (fun a b => f a = some b) as bs := by
  induction as generalizing bs with
  | nil => simp [eq_comm]
  | cons a as ih =>
    cases bs with
    | nil => simp [List.mapM_cons, Option.bind_eq_some_iff]
    | cons b bs => simp [List.mapM_cons, Option.bind_eq_some_iff, ← ih]

theorem isWord_of_forall₂_floatText {ops : List (List Char)} {fs : List AsmFloat} (h : List.Forall₂ FloatText ops fs) :
    ∀ x ∈ ops, IsWord x := by
  intro x hx
  obtain ⟨f, -, hf⟩ := exists_of_forall₂_of_mem h hx
  exact hf.isWord

theorem ops_ne_nil_of_forall₂ {ops : List (List Char)} {fs : List AsmFloat} (h : List.Forall₂ FloatText ops fs)
    (hne : fs ≠ []) : ops ≠ [] := by
  rintro rfl
  exact hne (List.forall₂_nil_left_iff.1 h)

/-- The floats between the commas of a text (30_encoding.md R78, R79). -/
theorem mapM_parseFloat_iff (cs : List Char) (fs : List AsmFloat) :
    ((splitCommas cs).map trimBlanks).mapM parseFloat = some fs ↔ FloatsText cs fs := by
  simp only [mapM_eq_some_iff, parseFloat_iff]
  constructor
  · intro h
    refine ⟨?_, _, operandsText_splitCommas cs, h⟩
    rintro rfl
    exact splitCommas_ne_nil cs (List.map_eq_nil_iff.1 (List.forall₂_nil_right_iff.1 h))
  · rintro ⟨hne, ops, hops, h⟩
    rwa [hops.map_splitCommas (ops_ne_nil_of_forall₂ h hne) (isWord_of_forall₂_floatText h)]

theorem FloatsText.trimBlanks_ne_nil {cs : List Char} {fs : List AsmFloat} (h : FloatsText cs fs) :
    trimBlanks cs ≠ [] := by
  obtain ⟨hne, ops, hops, h⟩ := h
  exact hops.trimBlanks_ne_nil (ops_ne_nil_of_forall₂ h hne) (isWord_of_forall₂_floatText h)

/-- A list of floats of the grammar, or a text of blanks. -/
theorem parseFloats_iff (cs : List Char) (fs : List AsmFloat) :
    parseFloats cs = some fs ↔ (fs = [] ∧ Padded cs []) ∨ FloatsText cs fs := by
  rw [parseFloats, ← trimBlanks_eq_nil_iff]
  by_cases hnil : trimBlanks cs = []
  · have hno : ¬ FloatsText cs fs := fun h => h.trimBlanks_ne_nil hnil
    simp [hnil, hno, eq_comm]
  · rw [if_neg (by simpa using hnil), ← mapM_parseFloat_iff, List.mapM_map]
    simp only [hnil, and_false, false_or, Function.comp_def]

/-- A list stands between square brackets (30_encoding.md R79). -/
theorem parseBracketed_iff (cs : List Char) (fs : List AsmFloat) :
    parseBracketed cs = some fs ↔ ∃ inner, cs = '[' :: (inner ++ [']']) ∧ parseFloats inner = some fs := by
  unfold parseBracketed
  split
  · next text =>
    constructor
    · intro h
      split_ifs at h with hlast
      obtain ⟨inner, rfl⟩ := List.getLast?_eq_some_iff.1 hlast
      rw [List.dropLast_concat] at h
      exact ⟨inner, rfl, h⟩
    · rintro ⟨inner, hcs, h⟩
      obtain rfl := (List.cons.inj hcs).2
      rwa [List.getLast?_concat, if_pos rfl, List.dropLast_concat]
  · next hne =>
    constructor
    · nofun
    · rintro ⟨inner, rfl, -⟩
      exact absurd rfl (hne _)

/-! ### Cutting a line at its first blank -/

/-- A line's mnemonic and the text behind it, but for the blanks at the end of the line. -/
theorem MnemonicText.cut {line text : List Char} {m : String} (h : MnemonicText line m text) (hm : IsWord m.toList)
    (htext : trimBlanks text ≠ []) :
    ∃ text' n, text = text' ++ List.replicate n ' ' ∧ splitFirst ' ' (trimBlanks line) = (m.toList, some text') := by
  obtain ⟨before, rfl⟩ := h
  obtain ⟨lead, trail, htrim⟩ := padded_trimBlanks text
  have hlast := (trimmed_trimBlanks text).2
  refine ⟨List.replicate lead ' ' ++ trimBlanks text, trail, htrim, ?_⟩
  generalize trimBlanks text = core at *
  subst htrim
  have hpad : Padded
      (List.replicate before ' ' ++ m.toList ++ ' ' :: (List.replicate lead ' ' ++ core ++ List.replicate trail ' '))
      (m.toList ++ ' ' :: (List.replicate lead ' ' ++ core)) := ⟨before, trail, by simp⟩
  have htrimmed : Trimmed (m.toList ++ ' ' :: (List.replicate lead ' ' ++ core)) := by
    refine ⟨?_, ?_⟩
    · rw [List.head?_append_of_ne_nil _ hm.ne_nil]
      exact hm.trimmed.1
    · rw [List.getLast?_append_of_ne_nil _ (List.cons_ne_nil _ _), List.getLast?_cons_of_ne_nil (by simp [htext]),
        List.getLast?_append_of_ne_nil _ htext]
      exact hlast
  rw [trimBlanks_padded hpad, trimBlanks_of_trimmed htrimmed, splitFirst_append hm.blank]

theorem eq_append_of_splitFirst {sep : Char} {cs a b : List Char} (h : splitFirst sep cs = (a, some b)) :
    cs = a ++ sep :: b ∧ sep ∉ a := by
  rcases splitFirst_cases sep cs with ⟨-, hs⟩ | ⟨a', b', hcs, hnot, hs⟩
  · simp [hs] at h
  · obtain ⟨rfl, hb⟩ := Prod.mk.inj (hs.symm.trans h)
    exact ⟨Option.some.inj hb ▸ hcs, hnot⟩

/-- A line cut at its first blank is a mnemonic and a text. -/
theorem mnemonicText_of_cut {line text : List Char} {m : String}
    (h : splitFirst ' ' (trimBlanks line) = (m.toList, some text)) :
    ∃ n, MnemonicText line m (text ++ List.replicate n ' ') := by
  obtain ⟨before, after, hline⟩ := padded_trimBlanks line
  rw [(eq_append_of_splitFirst h).1] at hline
  exact ⟨after, before, by rw [hline]; simp⟩

/-- An operation of the grammar is found by cutting the line at its first blank and then at the commas. -/
theorem OperationText.cut {line : List Char} {m : String} {ops : List (List Char)} (h : OperationText line m ops)
    (hm : IsWord m.toList) (hne : ops ≠ []) (hw : ∀ x ∈ ops, IsWord x) :
    ∃ text, splitFirst ' ' (trimBlanks line) = (m.toList, some text) ∧ (splitCommas text).map trimBlanks = ops := by
  obtain ⟨text, hline, hops⟩ := h
  obtain ⟨text', n, rfl, hcut⟩ := hline.cut hm (hops.trimBlanks_ne_nil hne hw)
  exact ⟨text', hcut, by rw [← map_trimBlanks_splitCommas_append text' n, hops.map_splitCommas hne hw]⟩

theorem operationText_of_cut {line text : List Char} {m : String}
    (h : splitFirst ' ' (trimBlanks line) = (m.toList, some text)) :
    OperationText line m ((splitCommas text).map trimBlanks) := by
  obtain ⟨n, hline⟩ := mnemonicText_of_cut h
  exact ⟨_, hline, map_trimBlanks_splitCommas_append text n ▸ operandsText_splitCommas _⟩

/-- A line with a mnemonic alone. -/
theorem parseLine_of_padded {line : List Char} {m : String} (hm : IsWord m.toList) (h : Padded line m.toList) :
    parseLine line = parseBare m.toList := by
  rw [parseLine, hm.trimBlanks_of_padded h, splitFirst_of_notMem hm.blank]

/-! ### The forms of a line -/

/-- The mnemonics whose operands are words between commas, one to three of them. -/
def operationMnemonics : List String :=
  ["set_rate", "set_channels", "set_cpufreq", "sample", "sample2", "read_reg", "config"]

theorem isWord_of_mem_operationMnemonics : ∀ m ∈ operationMnemonics, IsWord m.toList := by
  simp only [operationMnemonics, List.forall_mem_cons]
  refine ⟨?_, ?_, ?_, ?_, ?_, ?_, ?_, nofun⟩ <;> constructor <;> decide

/-- The parser on a line that the grammar cuts into a mnemonic and its operands. -/
theorem parseLine_of_operationText {line : List Char} {m : String} {ops : List (List Char)}
    (h : OperationText line m ops) (hm : m ∈ operationMnemonics) (hne : ops ≠ []) (hw : ∀ x ∈ ops, IsWord x) :
    parseLine line = parseOperands m.toList ops := by
  have hstream : ∀ m ∈ operationMnemonics, m.toList ≠ "stream_mono".toList := by decide
  obtain ⟨text, hcut, rfl⟩ := h.cut (isWord_of_mem_operationMnemonics m hm) hne hw
  rw [parseLine, hcut]
  exact if_neg (hstream m hm)

section
variable {line : List Char}

theorem parseLine_samples {text : List Char} {vs : List AsmFloat} (h : MnemonicText line "samples" text)
    (hvs : FloatsText text vs) : parseLine line = some (.samples vs) := by
  obtain ⟨text', n, rfl, hcut⟩ := h.cut (by constructor <;> decide) hvs.trimBlanks_ne_nil
  rw [← mapM_parseFloat_iff, map_trimBlanks_splitCommas_append] at hvs
  simp [parseLine, hcut, parseOperands, hvs]

/-- A text cut at its first comma, with blanks around it or not. -/
theorem splitFirst_trimBlanks {text a b : List Char} (h : splitFirst ',' text = (a, some b)) :
    ∃ a' b', splitFirst ',' (trimBlanks text) = (a', some b') ∧ Padded a a' ∧ Padded b b' := by
  obtain ⟨before, after, htext⟩ := padded_trimBlanks text
  rcases splitFirst_cases ',' (trimBlanks text) with ⟨hnot, hs⟩ | ⟨a', b', hab, hnot, hs⟩
  · have := (padded_trimBlanks text).notMem (by decide) hnot
    rw [splitFirst_of_notMem this] at h
    simp at h
  · refine ⟨a', b', hs, ?_⟩
    rw [hab] at htext
    have hpad : Padded (List.replicate before ' ' ++ a') a' := ⟨before, 0, by simp⟩
    have hcut : text = (List.replicate before ' ' ++ a') ++ ',' :: (b' ++ List.replicate after ' ') := by
      rw [htext]; simp
    rw [hcut, splitFirst_append (hpad.notMem (by decide) hnot)] at h
    cases h
    exact ⟨hpad, 0, after, by simp⟩

theorem parseLine_streamMono {first list x inner : List Char} {rate : Nat} {vs : List AsmFloat}
    (h : MnemonicText line "stream_mono" (first ++ ',' :: list)) (hfirst : Padded first x) (hx : UintText x rate)
    (hlist : Padded list ('[' :: (inner ++ [']']))) (hvs : (vs = [] ∧ Padded inner []) ∨ FloatsText inner vs) :
    parseLine line = some (.streamMono rate vs) := by
  have hcomma : ',' ∉ first := hfirst.notMem (by decide) hx.isWord.comma
  obtain ⟨a, b, hsplit, ha, hb⟩ := splitFirst_trimBlanks (splitFirst_append (b := list) hcomma)
  obtain ⟨text', n, htext, hcut⟩ := h.cut (by constructor <;> decide) (by
    intro hnil
    simp [hnil, splitFirst] at hsplit)
  have hpad : Padded (first ++ ',' :: list) text' := ⟨0, n, htext⟩
  rw [trimBlanks_padded hpad] at hsplit
  have hrate : trimBlanks a = x := by
    rw [← trimBlanks_padded ha, hx.isWord.trimBlanks_of_padded hfirst]
  have hbracket : trimBlanks b = '[' :: (inner ++ [']']) := by
    rw [← trimBlanks_padded hb, trimBlanks_padded hlist, trimBlanks_of_trimmed]
    constructor
    · simp
    · rw [← List.cons_append, List.getLast?_concat]
      decide
  have hfloats : parseBracketed (trimBlanks b) = some vs :=
    (parseBracketed_iff _ _).2 ⟨inner, hbracket, (parseFloats_iff _ _).2 hvs⟩
  simp [parseLine, hcut, hsplit, hfloats, hrate, (parseUint_iff _ _).2 hx]

/-- Every line of the grammar is read (30_encoding.md R78, R79). -/
theorem parseLine_of_lineText {c : AsmCommand} (h : LineText line c) : parseLine line = some c := by
  cases c with
  | reset | endStream | status =>
    rw [parseLine_of_padded (by constructor <;> decide) h]
    rfl
  | setRate v | setChannels v =>
    obtain ⟨x, hop, hx⟩ := h
    rw [parseLine_of_operationText hop (by decide) (by simp) (by simpa using hx.isWord)]
    simp [parseOperands, (parseUint_iff _ _).2 hx]
  | setCpufreq v | sample v =>
    obtain ⟨x, hop, hx⟩ := h
    rw [parseLine_of_operationText hop (by decide) (by simp) (by simpa using hx.isWord)]
    simp [parseOperands, (parseFloat_iff _ _).2 hx]
  | readReg r =>
    obtain ⟨x, hop, hx⟩ := h
    rw [parseLine_of_operationText hop (by decide) (by simp) (by simpa using hx.isWord)]
    simp [parseOperands, (parseRegister_iff _ _).2 hx]
  | sample2 v w =>
    obtain ⟨x, y, hop, hx, hy⟩ := h
    rw [parseLine_of_operationText hop (by decide) (by simp) (by simpa using ⟨hx.isWord, hy.isWord⟩)]
    simp [parseOperands, (parseFloat_iff _ _).2 hx, (parseFloat_iff _ _).2 hy]
  | config ch rate =>
    obtain ⟨x, y, hop, hx, hy⟩ := h
    rw [parseLine_of_operationText hop (by decide) (by simp) (by simpa using ⟨hx.isWord, hy.isWord⟩)]
    simp [parseOperands, (parseUint_iff _ _).2 hx, (parseUint_iff _ _).2 hy]
  | configFreq ch rate freq =>
    obtain ⟨x, y, z, hop, hx, hy, hz⟩ := h
    rw [parseLine_of_operationText hop (by decide) (by simp) (by simpa using ⟨hx.isWord, hy.isWord, hz.isWord⟩)]
    simp [parseOperands, (parseUint_iff _ _).2 hx, (parseUint_iff _ _).2 hy, (parseFloat_iff _ _).2 hz]
  | samples vs =>
    obtain ⟨text, hline, hvs⟩ := h
    exact parseLine_samples hline hvs
  | streamMono rate vs =>
    obtain ⟨first, list, x, inner, hline, hfirst, hx, hlist, hvs⟩ := h
    exact parseLine_streamMono hline hfirst hx hlist hvs

theorem lineText_of_parseBare {c : AsmCommand} (h : parseBare (trimBlanks line) = some c) : LineText line c := by
  have hpad := padded_trimBlanks line
  rw [parseBare] at h
  split_ifs at h with hname hname hname <;> cases h <;> rwa [hname] at hpad

theorem lineText_of_parseOperands {name text : List Char} {c : AsmCommand}
    (hcut : splitFirst ' ' (trimBlanks line) = (name, some text))
    (h : parseOperands name ((splitCommas text).map trimBlanks) = some c) : LineText line c := by
  have hop (m : String) (hm : name = m.toList) : OperationText line m ((splitCommas text).map trimBlanks) :=
    operationText_of_cut (hm ▸ hcut)
  unfold parseOperands at h
  split at h
  · next hname =>
    obtain ⟨vs, hvs, rfl⟩ := Option.map_eq_some_iff.1 h
    obtain ⟨n, hline⟩ := mnemonicText_of_cut (hname ▸ hcut)
    rw [← map_trimBlanks_splitCommas_append text n, mapM_parseFloat_iff] at hvs
    exact ⟨_, hline, hvs⟩
  generalize (splitCommas text).map trimBlanks = ops at h hop
  split at h
  · split_ifs at h with hname hname hname hname hname <;>
      obtain ⟨v, hv, rfl⟩ := Option.map_eq_some_iff.1 h
    · exact ⟨_, hop _ hname, (parseUint_iff _ _).1 hv⟩
    · exact ⟨_, hop _ hname, (parseUint_iff _ _).1 hv⟩
    · exact ⟨_, hop _ hname, (parseFloat_iff _ _).1 hv⟩
    · exact ⟨_, hop _ hname, (parseFloat_iff _ _).1 hv⟩
    · exact ⟨_, hop _ hname, (parseRegister_iff _ _).1 hv⟩
  · split_ifs at h with hname hname <;>
      simp only [Option.bind_eq_bind, Option.bind_eq_some_iff, Option.some_inj] at h <;>
      obtain ⟨v, hv, w, hw, rfl⟩ := h
    · exact ⟨_, _, hop _ hname, (parseFloat_iff _ _).1 hv, (parseFloat_iff _ _).1 hw⟩
    · exact ⟨_, _, hop _ hname, (parseUint_iff _ _).1 hv, (parseUint_iff _ _).1 hw⟩
  · split_ifs at h with hname
    simp only [Option.bind_eq_bind, Option.bind_eq_some_iff, Option.some_inj] at h
    obtain ⟨u, hu, v, hv, w, hw, rfl⟩ := h
    exact ⟨_, _, _, hop _ hname, (parseUint_iff _ _).1 hu, (parseUint_iff _ _).1 hv, (parseFloat_iff _ _).1 hw⟩
  · cases h

theorem lineText_streamMono {text rate list : List Char} {n : Nat} {vs : List AsmFloat}
    (hcut : splitFirst ' ' (trimBlanks line) = ("stream_mono".toList, some text))
    (hsplit : splitFirst ',' (trimBlanks text) = (rate, some list)) (hn : parseUint (trimBlanks rate) = some n)
    (hvs : parseBracketed (trimBlanks list) = some vs) : LineText line (.streamMono n vs) := by
  obtain ⟨k, hline⟩ := mnemonicText_of_cut hcut
  obtain ⟨before, after, htext⟩ := padded_trimBlanks text
  rw [(eq_append_of_splitFirst hsplit).1] at htext
  obtain ⟨inner, hinner, hfloats⟩ := (parseBracketed_iff _ _).1 hvs
  refine ⟨List.replicate before ' ' ++ rate, list ++ List.replicate (after + k) ' ', trimBlanks rate, inner, ?_,
    Padded.trans ⟨before, 0, by simp⟩ (padded_trimBlanks rate), (parseUint_iff _ _).1 hn, ?_,
    (parseFloats_iff _ _).1 hfloats⟩
  · rw [htext] at hline
    simpa using hline
  · exact Padded.trans ⟨0, after + k, by simp⟩ (hinner ▸ padded_trimBlanks list)

/-- Every line that is read is one of the grammar (30_encoding.md R78, R79). -/
theorem lineText_of_parseLine {c : AsmCommand} (h : parseLine line = some c) : LineText line c := by
  rw [parseLine] at h
  rcases splitFirst_cases ' ' (trimBlanks line) with ⟨-, hcut⟩ | ⟨name, text, -, -, hcut⟩ <;> rw [hcut] at h
  · exact lineText_of_parseBare h
  dsimp only at h
  split_ifs at h with hname
  · subst hname
    rcases splitFirst_cases ',' (trimBlanks text) with ⟨-, hsplit⟩ | ⟨rate, list, -, -, hsplit⟩ <;> rw [hsplit] at h
    · cases h
    simp only [Option.bind_eq_bind, Option.bind_eq_some_iff, Option.some_inj] at h
    obtain ⟨n, hn, vs, hvs, rfl⟩ := h
    exact lineText_streamMono hcut hsplit hn hvs
  · exact lineText_of_parseOperands hcut h

end

/-- Settles O55, form by form in both directions. -/
theorem parserReadsExactlyTheGrammar : Obligations.ParserReadsExactlyTheGrammar :=
  fun _ _ => ⟨lineText_of_parseLine, parseLine_of_lineText⟩

end Sys2Proof.Machine
end

section
/-! PROOFS. What the disassembler prints is in the grammar of assembler text, and reads as the line it was printed from
(30_encoding.md R78). -/

namespace Sys2Proof.Machine

/-! ### Numbers -/

theorem decText_digit {d : Nat} (h : d < 10) : DecText [Char.ofNat (48 + d)] d := by
  rw [← readDec_iff]
  revert d
  decide

theorem decText_append_digit {cs : List Char} {n d : Nat} (h : DecText cs n) (hd : d < 10) :
    DecText (cs ++ [Char.ofNat (48 + d)]) (n * 10 + d) :=
  (decText_append h.1 (List.cons_ne_nil _ _) _).2 ⟨n, d, h, decText_digit hd, rfl⟩

/-- With fuel above the number, all its digits are written. -/
theorem decDigits_spec {fuel n : Nat} (h : n < fuel) (acc : List Char) :
    ∃ cs, decDigits fuel n acc = cs ++ acc ∧ DecText cs n := by
  induction fuel generalizing n acc with
  | zero => omega
  | succ fuel ih =>
    rw [decDigits]
    split
    · next hn => exact ⟨_, rfl, decText_digit hn⟩
    · obtain ⟨cs, hcs, hdec⟩ := ih (show n / 10 < fuel by omega) (Char.ofNat (48 + n % 10) :: acc)
      refine ⟨cs ++ [Char.ofNat (48 + n % 10)], by rw [hcs]; simp, ?_⟩
      have := decText_append_digit hdec (Nat.mod_lt n (by decide))
      rwa [Nat.div_add_mod'] at this

theorem decText_showNat (n : Nat) : DecText (showNat n) n := by
  obtain ⟨cs, hcs, h⟩ := decDigits_spec (Nat.lt_succ_self n) []
  rwa [showNat, hcs, List.append_nil]

/-- A number is made of its digits in any base, as many as it takes. -/
theorem ofDigits_map_range (base v n : Nat) :
    Nat.ofDigits base ((List.range n).map fun k => v / base ^ k % base) = v % base ^ n := by
  induction n with
  | zero => simp [Nat.mod_one]
  | succ n ih =>
    rw [List.range_succ, List.map_append, Nat.ofDigits_append, ih, List.length_map, List.length_range, List.map_singleton,
      Nat.ofDigits_singleton, Nat.mod_pow_succ]

theorem hexDigit_showNibble {d : Nat} (h : d < 16) : hexDigit (showNibble d) = some d := by
  revert d
  decide

theorem reverse_showPattern (x : F64) :
    (showPattern x).reverse = (List.range 16).map fun k => showNibble (x.toNat / 16 ^ k % 16) := by
  have hrange : (List.range 16).reverse = (List.range 16).map (15 - ·) := by decide
  rw [showPattern, ← List.map_reverse, hrange, List.map_map]
  refine List.map_congr_left fun k hk => ?_
  rw [List.mem_range] at hk
  rw [Function.comp, Nat.sub_sub_self (by omega)]

theorem hexText_showPattern (x : F64) : HexText (showPattern x) x.toNat := by
  refine ⟨by simp [showPattern], (List.range 16).map fun k => x.toNat / 16 ^ k % 16, ?_, ?_⟩
  · rw [reverse_showPattern, List.forall₂_map_left_iff, List.forall₂_map_right_iff]
    exact List.forall₂_same.2 fun k _ => (hexDigit_iff _ _).1 (hexDigit_showNibble (Nat.mod_lt _ (by decide)))
  · rw [ofDigits_map_range]
    exact (Nat.mod_eq_of_lt x.isLt).symm

/-! ### Operands -/

theorem uintText_showNat (n : Nat) : UintText (showNat n) n := .inl (decText_showNat n)

theorem decimalText_show (digits : Nat) {x : List Char} {e : Int} (hx : ExponentText x e) :
    DecimalText (showNat digits ++ x) digits e :=
  ⟨showNat digits, [], x, e, (decText_showNat digits).1, by rw [List.append_nil]; exact decText_showNat digits, hx,
    by simp, .inl ⟨rfl, rfl⟩⟩

/-- A sign in front of a literal, or none. -/
theorem floatText_decimal {cs : List Char} {digits : Nat} {e : Int} (neg : Bool) (h : DecimalText cs digits e) :
    FloatText ((if neg then ['-'] else []) ++ cs) (.decimal neg digits e) := by
  cases neg with
  | false => exact h
  | true => exact ⟨cs, rfl, h⟩

theorem floatText_showFloat (f : AsmFloat) : FloatText (showFloat f) f := by
  cases f with
  | decimal neg digits e =>
    cases e with
    | ofNat e =>
      have hx : ExponentText ('e' :: showNat e) (.ofNat e) := .inr ⟨_, e, decText_showNat e, .inl ⟨.inl rfl, rfl⟩⟩
      have := floatText_decimal neg (decimalText_show digits hx)
      simpa only [showFloat, List.append_assoc, List.singleton_append] using this
    | negSucc e =>
      have hx : ExponentText ('e' :: '-' :: showNat (e + 1)) (.negSucc e) :=
        .inr ⟨_, e + 1, decText_showNat (e + 1), .inr ⟨rfl, rfl⟩⟩
      have := floatText_decimal neg (decimalText_show digits hx)
      simpa only [showFloat, List.append_assoc, List.cons_append, List.nil_append] using this
  | raw p => exact ⟨_, rfl, by simp [showPattern], hexText_showPattern p⟩
  | nan => rfl
  | inf neg => cases neg <;> rfl

/-! ### Lines -/

theorem padded_self (cs : List Char) : Padded cs cs := ⟨0, 0, by simp⟩

/-- A mnemonic, a blank and one operand. -/
theorem operationText_one {m : String} {lead x : List Char} (hlead : lead = m.toList ++ [' ']) :
    OperationText (lead ++ x) m [x] :=
  ⟨x, ⟨0, by simp [hlead]⟩, [x], .cons (padded_self x) .nil, by simp⟩

/-- A mnemonic, a blank and two operands, with a comma and a blank between them. -/
theorem operationText_two {m : String} {lead sep x y : List Char} (hlead : lead = m.toList ++ [' '])
    (hsep : sep = [',', ' ']) : OperationText (lead ++ x ++ sep ++ y) m [x, y] :=
  ⟨x ++ ',' :: ' ' :: y, ⟨0, by simp [hlead, hsep]⟩, [x, ' ' :: y],
    .cons (padded_self x) (.cons ⟨1, 0, by simp⟩ .nil), by simp⟩

/-- A register that has a name is given by it, any other index by its number. -/
theorem disassemble_readReg (idx : Byte) :
    disassemble (.readReg idx) = .readReg ((registerOf idx).elim (.index idx.toNat) .name) := by
  rw [disassemble]
  cases registerOf idx <;> rfl

theorem showInstr_readReg (idx : Byte) :
    showInstr (.readReg idx) = "read_reg ".toList ++ (registerOf idx).elim (showNat idx.toNat) registerName := by
  unfold showInstr
  dsimp only
  cases registerOf idx <;> rfl

/-- What is printed for a command is a text of its line. -/
theorem lineText_showInstr (i : Instr) : LineText (showInstr i) (disassemble i) := by
  cases i with
  | reset => exact padded_self "reset".toList
  | endStream => exact padded_self "end".toList
  | setRate rate =>
    exact ⟨_, operationText_one (lead := "set_rate ".toList) (by decide), uintText_showNat rate.toNat⟩
  | setChannels ch =>
    exact ⟨_, operationText_one (lead := "set_channels ".toList) (by decide), uintText_showNat ch.toNat⟩
  | setCpufreq freq =>
    exact ⟨_, operationText_one (lead := "set_cpufreq ".toList) (by decide), floatText_showFloat (asmFloatOf freq)⟩
  | sampleMono a =>
    exact ⟨_, operationText_one (lead := "sample ".toList) (by decide), floatText_showFloat (asmFloatOf a)⟩
  | sampleStereo a0 a1 =>
    exact ⟨_, _, operationText_two (lead := "sample2 ".toList) (sep := ", ".toList) (by decide) (by decide),
      floatText_showFloat (asmFloatOf a0), floatText_showFloat (asmFloatOf a1)⟩
  | readReg idx =>
    have hlead : "read_reg ".toList = "read_reg".toList ++ [' '] := by decide
    rw [showInstr_readReg, disassemble_readReg]
    cases registerOf idx with
    | some r => exact ⟨_, operationText_one hlead, (registerText_name _ r).2 rfl⟩
    | none => exact ⟨_, operationText_one hlead, uintText_showNat idx.toNat⟩

/-- Settles O51: the printed text is in the grammar, and the parser reads exactly the grammar. -/
theorem printedTextReadsBack : Obligations.PrintedTextReadsBack := fun i => parseLine_of_lineText (lineText_showInstr i)

end Sys2Proof.Machine
end

section
/-! PROOFS. What the assembler makes of lines, as data and as text (30_encoding.md R78, R79): the commands that its bytes
decode to, and which lines are not encoded. -/

namespace Sys2Proof.Machine

/-! ### Lines as data -/

theorem assemble_eq_some {lines : List AsmCommand} {bytes : List Byte} :
    assemble lines = some bytes ↔
      (∀ c ∈ lines, c.wellFormed = true) ∧ bytes = encodeAll (lines.flatMap expand) := by
  rw [assemble, Option.ite_none_right_eq_some, List.all_eq_true, Option.some_inj, eq_comm (a := bytes)]

theorem assemble_eq_none {lines : List AsmCommand} :
    assemble lines = none ↔ ∃ c ∈ lines, c.wellFormed = false := by
  simp [assemble]

theorem encodeAll_append (is js : List Instr) : encodeAll (is ++ js) = encodeAll is ++ encodeAll js :=
  List.flatMap_append

theorem assemble_append {a b : List AsmCommand} {x y : List Byte} (ha : assemble a = some x) (hb : assemble b = some y) :
    assemble (a ++ b) = some (x ++ y) := by
  obtain ⟨hwa, rfl⟩ := assemble_eq_some.1 ha
  obtain ⟨hwb, rfl⟩ := assemble_eq_some.1 hb
  refine assemble_eq_some.2 ⟨List.forall_mem_append.2 ⟨hwa, hwb⟩, ?_⟩
  rw [List.flatMap_append, encodeAll_append]

theorem assemble_append_cons_of_none (a b : List AsmCommand) {c : AsmCommand} (h : assemble [c] = none) :
    assemble (a ++ c :: b) = none := by
  obtain ⟨_, hmem, hc⟩ := assemble_eq_none.1 h
  rw [List.mem_singleton] at hmem
  exact assemble_eq_none.2 ⟨c, by simp, hmem ▸ hc⟩

/-- Well-formed lines assemble to bytes that decode to their commands. -/
theorem exists_assemble_of_wellFormed {lines : List AsmCommand} (h : ∀ c ∈ lines, c.wellFormed = true) :
    ∃ bytes, assemble lines = some bytes ∧ (decodeAll bytes).map Decoded.instr = (lines.flatMap expand).map some :=
  ⟨_, assemble_eq_some.2 ⟨h, rfl⟩, encodedStreamDecodesInOrder _⟩

/-- What O8 says of one line: the commands its bytes decode to. -/
def LineMeans (line : AsmCommand) (is : List Instr) : Prop :=
  ∃ bytes, assemble [line] = some bytes ∧ (decodeAll bytes).map Decoded.instr = is.map some

theorem lineMeans_of_expand {line : AsmCommand} {is : List Instr} (hw : line.wellFormed = true) (he : expand line = is) :
    LineMeans line is := by
  have := exists_assemble_of_wellFormed (lines := [line]) (by simpa using hw)
  rwa [List.flatMap_singleton, he] at this

theorem assemble_singleton_eq_none {line : AsmCommand} (h : line.wellFormed = false) : assemble [line] = none :=
  assemble_eq_none.2 ⟨line, List.mem_singleton_self line, h⟩

@[simp] theorem fitsByte_toNat (b : Byte) : fitsByte b.toNat = true := by
  have := b.isLt
  simp only [fitsByte, decide_eq_true_eq]
  omega

@[simp] theorem fitsRate_toNat (r : Word32) : fitsRate r.toNat = true := by
  have := r.isLt
  simp only [fitsRate, decide_eq_true_eq]
  omega

theorem fitsByte_eq_false {n : Nat} (h : 255 < n) : fitsByte n = false := by simpa [fitsByte] using h

theorem fitsRate_eq_false {n : Nat} (h : 4294967295 < n) : fitsRate n = false := by simpa [fitsRate] using h

section
variable (ch idx : Byte) (rate : Word32) (f g : AsmFloat) (fs : List AsmFloat)

theorem lineMeans_reset : LineMeans .reset [.reset] := lineMeans_of_expand rfl rfl

theorem lineMeans_endStream : LineMeans .endStream [.endStream] := lineMeans_of_expand rfl rfl

theorem lineMeans_status : LineMeans .status [.readReg 3] := lineMeans_of_expand rfl rfl

theorem lineMeans_setRate : LineMeans (.setRate rate.toNat) [.setRate rate] :=
  lineMeans_of_expand (fitsRate_toNat rate) (by simp [expand])

theorem lineMeans_setChannels : LineMeans (.setChannels ch.toNat) [.setChannels ch] :=
  lineMeans_of_expand (fitsByte_toNat ch) (by simp [expand])

theorem lineMeans_index : LineMeans (.readReg (.index idx.toNat)) [.readReg idx] :=
  lineMeans_of_expand (fitsByte_toNat idx) (by simp [expand, asmIndex])

theorem lineMeans_name (r : Register) : LineMeans (.readReg (.name r)) [.readReg (indexOf r)] :=
  lineMeans_of_expand rfl rfl

theorem lineMeans_setCpufreq : LineMeans (.setCpufreq f) [.setCpufreq (asmValue f)] := lineMeans_of_expand rfl rfl

theorem lineMeans_sample : LineMeans (.sample f) [.sampleMono (asmValue f)] := lineMeans_of_expand rfl rfl

theorem lineMeans_sample2 : LineMeans (.sample2 f g) [.sampleStereo (asmValue f) (asmValue g)] :=
  lineMeans_of_expand rfl rfl

theorem lineMeans_config : LineMeans (.config ch.toNat rate.toNat) [.setChannels ch, .setRate rate] :=
  lineMeans_of_expand (by simp [AsmCommand.wellFormed]) (by simp [expand])

theorem lineMeans_configFreq :
    LineMeans (.configFreq ch.toNat rate.toNat f) [.setChannels ch, .setRate rate, .setCpufreq (asmValue f)] :=
  lineMeans_of_expand (by simp [AsmCommand.wellFormed]) (by simp [expand])

theorem lineMeans_samples (hne : fs ≠ []) : LineMeans (.samples fs) (fs.map fun v => .sampleMono (asmValue v)) :=
  lineMeans_of_expand (by simpa [AsmCommand.wellFormed] using hne) rfl

theorem lineMeans_streamMono : LineMeans (.streamMono rate.toNat fs)
    ([Instr.reset, .setChannels 1, .setRate rate] ++ fs.map (fun v => Instr.sampleMono (asmValue v)) ++
      [Instr.endStream]) :=
  lineMeans_of_expand (fitsRate_toNat rate) (by simp [expand])

end

/-- The lines with a byte operand above 255 (30_encoding.md R78). -/
theorem wellFormed_of_byte_too_large {n : Nat} (h : 255 < n) :
    (AsmCommand.setChannels n).wellFormed = false ∧ (AsmCommand.readReg (.index n)).wellFormed = false ∧
    ∀ rate f, (AsmCommand.config n rate).wellFormed = false ∧ (AsmCommand.configFreq n rate f).wellFormed = false := by
  simp [AsmCommand.wellFormed, fitsByte_eq_false h]

/-- The lines with a rate above 2^32 − 1 (30_encoding.md R78). -/
theorem wellFormed_of_rate_too_large {n : Nat} (h : 4294967295 < n) : (AsmCommand.setRate n).wellFormed = false ∧
    ∀ ch f fs, (AsmCommand.config ch n).wellFormed = false ∧ (AsmCommand.configFreq ch n f).wellFormed = false ∧
      (AsmCommand.streamMono n fs).wellFormed = false := by
  simp [AsmCommand.wellFormed, fitsRate_eq_false h]

/-- Settles O8, form by form. -/
theorem assembledLinesDecode : Obligations.AssembledLinesDecode := by
  refine ⟨fun lines => ⟨exists_assemble_of_wellFormed, assemble_eq_none.2⟩, fun _ _ _ _ => assemble_append,
    fun a b _ => assemble_append_cons_of_none a b, lineMeans_reset, lineMeans_endStream, lineMeans_status,
    lineMeans_setRate, lineMeans_setChannels, lineMeans_index, lineMeans_name _, lineMeans_name _, lineMeans_name _,
    lineMeans_name _, lineMeans_name _, lineMeans_name _, lineMeans_name _,
    fun f => ⟨lineMeans_setCpufreq f, lineMeans_sample f⟩, lineMeans_sample2, lineMeans_config, lineMeans_configFreq,
    fun f fs => lineMeans_samples (f :: fs) (List.cons_ne_nil f fs), lineMeans_streamMono, fun n hn => ?_, fun n hn => ?_⟩
  · obtain ⟨hch, hidx, hconfig⟩ := wellFormed_of_byte_too_large hn
    exact ⟨assemble_singleton_eq_none hch, assemble_singleton_eq_none hidx, fun rate f =>
      ⟨assemble_singleton_eq_none (hconfig rate f).1, assemble_singleton_eq_none (hconfig rate f).2⟩⟩
  · obtain ⟨hrate, hpseudo⟩ := wellFormed_of_rate_too_large hn
    refine ⟨assemble_singleton_eq_none hrate, fun ch f fs => ?_⟩
    obtain ⟨hconfig, hfreq, hstream⟩ := hpseudo ch f fs
    exact ⟨assemble_singleton_eq_none hconfig, assemble_singleton_eq_none hfreq, assemble_singleton_eq_none hstream⟩

/-! ### Lines of text -/

theorem assembleText_eq_some {lines : List (List Char)} {bytes : List Byte} :
    assembleText lines = some bytes ↔ ∃ cs, List.Forall₂ LineText lines cs ∧ assemble cs = some bytes := by
  simp only [assembleText, Option.bind_eq_bind, Option.bind_eq_some_iff, mapM_eq_some_iff,
    parserReadsExactlyTheGrammar _ _]

/-- A line of the grammar is assembled as the command or pseudo-instruction it reads as. -/
theorem assembleText_singleton {line : List Char} {c : AsmCommand} (h : LineText line c) :
    assembleText [line] = assemble [c] := by
  simp [assembleText, List.mapM_cons, parseLine_of_lineText h]

theorem assembleText_eq_none_of_not_lineText {line : List Char} (h : ∀ c, ¬ LineText line c) :
    assembleText [line] = none := by
  have hparse : parseLine line = none := Option.eq_none_iff_forall_ne_some.2 fun c hc => h c (lineText_of_parseLine hc)
  simp [assembleText, List.mapM_cons, hparse]

theorem assembleText_append {a b : List (List Char)} {x y : List Byte} (ha : assembleText a = some x)
    (hb : assembleText b = some y) : assembleText (a ++ b) = some (x ++ y) := by
  obtain ⟨cs, hcs, hx⟩ := assembleText_eq_some.1 ha
  obtain ⟨ds, hds, hy⟩ := assembleText_eq_some.1 hb
  exact assembleText_eq_some.2 ⟨cs ++ ds, List.rel_append hcs hds, assemble_append hx hy⟩

/-- A line that is not encoded keeps every text it stands in from being encoded (log entry 9). -/
theorem assembleText_append_cons_of_none (a b : List (List Char)) {line : List Char} (h : assembleText [line] = none) :
    assembleText (a ++ line :: b) = none := by
  refine Option.eq_none_iff_forall_ne_some.2 fun bytes hbytes => ?_
  obtain ⟨cs, hcs, hasm⟩ := assembleText_eq_some.1 hbytes
  obtain ⟨c, hc, hline⟩ := exists_of_forall₂_of_mem hcs (show line ∈ a ++ line :: b by simp)
  have hw : c.wellFormed = true := (assemble_eq_some.1 hasm).1 c hc
  obtain ⟨_, hsome, -⟩ := lineMeans_of_expand hw rfl
  rw [assembleText_singleton hline, hsome] at h
  cases h

/-- What O56 says of one line of text: the commands its bytes decode to. -/
def TextMeans (line : List Char) (is : List Instr) : Prop :=
  ∃ bytes, assembleText [line] = some bytes ∧ (decodeAll bytes).map Decoded.instr = is.map some

theorem textMeans_of_lineMeans {line : List Char} {c : AsmCommand} {is : List Instr} (hc : LineMeans c is)
    (h : LineText line c) : TextMeans line is := by
  rwa [TextMeans, assembleText_singleton h]

theorem assembleText_singleton_eq_none {line : List Char} {c : AsmCommand} (hc : c.wellFormed = false)
    (h : LineText line c) : assembleText [line] = none := by
  rw [assembleText_singleton h, assemble_singleton_eq_none hc]

/-- The registers stand in the order of their indices (10_state.md R34). -/
theorem indexOf_eq_of_getElem? {r : Register} {k : Nat} (h : [Register.sampleRate, .cpuFreq, .channels, .status,
    .sampleCount, .crossCount, .pulseCount][k]? = some r) : indexOf r = BitVec.ofNat 8 k := by
  obtain ⟨hk, rfl⟩ := List.getElem?_eq_some_iff.1 h
  simp only [List.length_cons, List.length_nil] at hk
  interval_cases k <;> rfl

theorem ne_nil_of_lineText_samples {line : List Char} {vs : List AsmFloat} (h : LineText line (.samples vs)) :
    vs ≠ [] := by
  obtain ⟨text, -, hne, -⟩ := h
  exact hne

/-- Settles O56: a line of the grammar is the line as data that it reads as. -/
theorem assembledTextDecodes : Obligations.AssembledTextDecodes := by
  refine ⟨fun line => ⟨textMeans_of_lineMeans lineMeans_reset, textMeans_of_lineMeans lineMeans_endStream,
    textMeans_of_lineMeans lineMeans_status, fun rate => textMeans_of_lineMeans (lineMeans_setRate rate),
    fun ch => textMeans_of_lineMeans (lineMeans_setChannels ch), fun f => textMeans_of_lineMeans (lineMeans_setCpufreq f),
    fun f => textMeans_of_lineMeans (lineMeans_sample f), fun f g => textMeans_of_lineMeans (lineMeans_sample2 f g),
    fun idx => textMeans_of_lineMeans (lineMeans_index idx),
    fun r k hk => textMeans_of_lineMeans (indexOf_eq_of_getElem? hk ▸ lineMeans_name r),
    fun ch rate => textMeans_of_lineMeans (lineMeans_config ch rate),
    fun ch rate f => textMeans_of_lineMeans (lineMeans_configFreq ch rate f),
    fun fs h => textMeans_of_lineMeans (lineMeans_samples fs (ne_nil_of_lineText_samples h)) h,
    fun rate fs => textMeans_of_lineMeans (lineMeans_streamMono rate fs), fun n hn h => ?_, fun n hn h => ?_,
    assembleText_eq_none_of_not_lineText⟩, fun _ _ _ _ => assembleText_append,
    fun a b _ => assembleText_append_cons_of_none a b⟩
  · obtain ⟨hch, hidx, hconfig⟩ := wellFormed_of_byte_too_large hn
    rcases h with h | h | ⟨rate, h⟩ | ⟨rate, f, h⟩
    · exact assembleText_singleton_eq_none hch h
    · exact assembleText_singleton_eq_none hidx h
    · exact assembleText_singleton_eq_none (hconfig rate .nan).1 h
    · exact assembleText_singleton_eq_none (hconfig rate f).2 h
  · obtain ⟨hrate, hpseudo⟩ := wellFormed_of_rate_too_large hn
    rcases h with h | ⟨ch, h⟩ | ⟨ch, f, h⟩ | ⟨fs, h⟩
    · exact assembleText_singleton_eq_none hrate h
    · exact assembleText_singleton_eq_none (hpseudo ch .nan []).1 h
    · exact assembleText_singleton_eq_none (hpseudo ch f []).2.1 h
    · exact assembleText_singleton_eq_none (hpseudo 0 .nan fs).2.2 h

/-- Settles O57, text by text. -/
theorem specLinesAssemble : Obligations.SpecLinesAssemble := by
  refine ⟨?_, ?_, ?_, ?_, ?_, ?_, ?_⟩ <;> decide +kernel

end Sys2Proof.Machine
end

section
/-! PROOFS. Decimal literals and the binary64 values they stand for (30_encoding.md R78; 00_scope.md R10): a literal is
rounded to the nearest value, and every finite value has a literal of at most seventeen digits that reads back to it. -/

namespace Sys2Proof.Machine

/-! ### Literals as ratios -/

theorem decimalMag_eq_roundMag (digits : Nat) (e : Int) :
    decimalMag digits e = roundMag (digits * 10 ^ e.toNat * oneUnits) (10 ^ (-e).toNat) := by
  cases e with
  | ofNat e => simp [decimalMag]
  | negSucc e => simp [decimalMag, Int.neg_negSucc]

theorem pow_neg_toNat_pos (e : Int) : 0 < 10 ^ (-e).toNat := Nat.pow_pos (by decide)

theorem asmValue_decimal (neg : Bool) (digits : Nat) (e : Int) :
    asmValue (.decimal neg digits e) = packF64 neg (decimalMag digits e) := rfl

@[simp] theorem signOf_asmValue_decimal (neg : Bool) (digits : Nat) (e : Int) :
    signOf (asmValue (.decimal neg digits e)) = neg := by
  rw [asmValue_decimal, decimalMag_eq_roundMag, signOf_packF64_roundMag]

@[simp] theorem magOf_asmValue_decimal (neg : Bool) (digits : Nat) (e : Int) :
    magOf (asmValue (.decimal neg digits e)) = decimalMag digits e := by
  rw [asmValue_decimal, decimalMag_eq_roundMag, magOf_packF64_roundMag]

/-- The pattern of `nan` is a NaN, whatever its free sign and payload (log entry 8). -/
theorem isNaN_asmValue_nan : isNaN (asmValue .nan) = true := by
  have hp := Config.asmNanPayload.isLt
  rw [isNaN, asmValue, magOf_packF64 _ (by omega), infMag, decide_eq_true_eq]
  omega

/-- Settles O50, from the one rounding of the arithmetic. -/
theorem assembledFloatsAreTheirValues : Obligations.AssembledFloatsAreTheirValues := by
  refine ⟨fun _ => rfl, rfl, rfl, isNaN_asmValue_nan, fun neg digits e c _ => ?_⟩
  have hd := pow_neg_toNat_pos e
  dsimp only
  simp only [signOf_asmValue_decimal, isFinite, isInf, unitsOf, magOf_asmValue_decimal, decimalMag_eq_roundMag,
    decide_eq_true_eq, true_and]
  refine ⟨fun h => ?_, roundMag_of_overflow hd⟩
  have hfin := (roundMag_lt_infMag_iff hd).2 h
  obtain ⟨hle, heven⟩ := roundMag_nearest hd hfin (magOf c)
  exact ⟨hfin, hle, fun heq hne => heven heq fun h => hne (by rw [h])⟩

/-! ### What rounds to a given magnitude -/

/-- Halfway past the largest finite magnitude is halfway to the pattern of an infinity, read as a magnitude. -/
theorem two_mul_overflowUnits_eq : 2 * overflowUnits = unitsOfMag (infMag - 1) + unitsOfMag infMag := by
  rw [two_mul_overflowUnits]
  decide +kernel

/-- From a magnitude to less than halfway to the next, a ratio rounds to that magnitude. -/
theorem roundMag_eq_of_ge {m num den : Nat} (hd : 0 < den) (hm : m < infMag) (hlo : unitsOfMag m * den ≤ num)
    (hhi : 2 * num < (unitsOfMag m + unitsOfMag (m + 1)) * den) : roundMag num den = m := by
  have hover : num < overflowUnits * den := by
    have h1 : unitsOfMag m ≤ unitsOfMag (infMag - 1) := unitsOfMag_strictMono.monotone (by omega)
    have h2 : unitsOfMag (m + 1) ≤ unitsOfMag infMag := unitsOfMag_strictMono.monotone hm
    have h3 := Nat.mul_le_mul_right den (Nat.add_le_add h1 h2)
    rw [← two_mul_overflowUnits_eq, Nat.mul_assoc] at h3
    omega
  refine Nat.le_antisymm (Nat.le_of_not_lt fun hlt => ?_) (le_roundMag hd hm.le hlo)
  obtain ⟨hle, -⟩ := roundMag_nearest hd (roundMag_lt_infMag hd hover) m
  have hnext : unitsOfMag (m + 1) * den ≤ unitsOfMag (roundMag num den) * den :=
    Nat.mul_le_mul_right den (unitsOfMag_strictMono.monotone hlt)
  rw [Nat.add_mul] at hhi
  rw [← Nat.cast_mul, ← Nat.cast_mul, abs_of_nonneg (by omega), abs_of_nonpos (by omega)] at hle
  omega

/-- From more than halfway to the magnitude below up to a magnitude, a ratio rounds to that magnitude. -/
theorem roundMag_eq_of_le {m num den : Nat} (hd : 0 < den) (hm : m < infMag) (hhi : num ≤ unitsOfMag m * den)
    (hlo : (unitsOfMag (m - 1) + unitsOfMag m) * den < 2 * num) : roundMag num den = m := by
  have hle' := roundMag_le hd hm.le hhi
  refine Nat.le_antisymm hle' (Nat.le_of_not_lt fun hlt => ?_)
  obtain ⟨hle, -⟩ := roundMag_nearest hd (hle'.trans_lt hm) m
  have hprev := Nat.mul_le_mul_right den (unitsOfMag_strictMono.monotone (Nat.le_sub_one_of_lt hlt))
  rw [Nat.add_mul] at hlo
  rw [← Nat.cast_mul, ← Nat.cast_mul, abs_of_nonpos (by omega), abs_of_nonneg (by omega)] at hle
  omega

/-- The magnitudes on either side of one lie further apart than 2 · 10^-16 of it: two decimals of seventeen digits next to
one another cannot both miss it. -/
theorem unitsOfMag_spacing {m : Nat} (hm : 0 < m) :
    2 * unitsOfMag m + 10 ^ 16 * unitsOfMag (m - 1) < 10 ^ 16 * unitsOfMag (m + 1) := by
  obtain ⟨S, k, rfl, hk, hS⟩ := exists_grid m
  have hg := Nat.two_pow_pos S
  rw [Nat.add_assoc, unitsOfMag_grid hk.le hS, unitsOfMag_grid (Nat.succ_le_of_lt hk) (by omega)]
  by_cases hbin : S = 0 ∨ 2 ^ 52 < k
  · have hprev : S * 2 ^ 52 + k - 1 = S * 2 ^ 52 + (k - 1) := by omega
    rw [hprev, unitsOfMag_grid (by omega) (by omega)]
    generalize 2 ^ S = g at hg
    obtain ⟨j, rfl⟩ : ∃ j, k = j + 1 := ⟨k - 1, by omega⟩
    rw [Nat.add_sub_cancel]
    nlinarith
  · obtain ⟨T, rfl⟩ : ∃ T, S = T + 1 := ⟨S - 1, by omega⟩
    obtain rfl : k = 2 ^ 52 := by omega
    have hprev : (T + 1) * 2 ^ 52 + 2 ^ 52 - 1 = T * 2 ^ 52 + (2 ^ 53 - 1) := by omega
    rw [hprev, unitsOfMag_grid (by omega) (by omega), pow_succ 2 T]
    have hh := Nat.two_pow_pos T
    generalize 2 ^ T = h at hh
    omega

end Sys2Proof.Machine
end

section
/-! PROOFS. The shortest decimal that reads back to a binary64 magnitude (30_encoding.md R78; log entry 9): of the decimals
of so many digits, the two next to the magnitude read back to it where any does, and of seventeen digits one does. -/

namespace Sys2Proof.Machine

/-! ### Decimals as rationals -/

/-- The exact value of a decimal, in units of 2^-1074. -/
def decUnits (digits : Nat) (e : Int) : ℚ := digits * (10 : ℚ) ^ e * oneUnits

theorem oneUnits_cast_pos : (0 : ℚ) < oneUnits := by exact_mod_cast oneUnits_pos

/-- A decimal is so many of its last place. -/
theorem decUnits_eq_mul (digits : Nat) (e : Int) : decUnits digits e = digits * decUnits 1 e := by
  simp only [decUnits, Nat.cast_one, one_mul, mul_assoc]

/-- The value of a decimal, as the ratio that is rounded. -/
theorem decUnits_mul (digits : Nat) (e : Int) :
    decUnits digits e * ((10 ^ (-e).toNat : Nat) : ℚ) = ((digits * 10 ^ e.toNat * oneUnits : Nat) : ℚ) := by
  have hpow : (10 : ℚ) ^ e * (10 : ℚ) ^ (-e).toNat = (10 : ℚ) ^ e.toNat := by
    rw [← zpow_natCast, ← zpow_natCast, ← zpow_add₀ (by norm_num)]
    congr 1
    omega
  push_cast
  rw [← hpow, decUnits]
  ring

theorem pow_neg_toNat_cast_pos (e : Int) : (0 : ℚ) < ((10 ^ (-e).toNat : Nat) : ℚ) := by
  exact_mod_cast pow_neg_toNat_pos e

/-- A decimal of no smaller value rounds to no smaller magnitude. -/
theorem decimalMag_mono {d d' : Nat} {e e' : Int} (h : decUnits d e ≤ decUnits d' e') :
    decimalMag d e ≤ decimalMag d' e' := by
  rw [decimalMag_eq_roundMag, decimalMag_eq_roundMag]
  refine roundMag_mono (pow_neg_toNat_pos e) (pow_neg_toNat_pos e') ?_
  rw [← Nat.cast_le (α := ℚ), Nat.cast_mul (_ * oneUnits), Nat.cast_mul (_ * oneUnits), ← decUnits_mul, ← decUnits_mul,
    mul_right_comm]
  exact mul_le_mul_of_nonneg_right (mul_le_mul_of_nonneg_right h (Nat.cast_nonneg _)) (Nat.cast_nonneg _)

section
variable {m d : Nat} {e : Int} (hm : m < infMag)
include hm

theorem decimalMag_le (h : decUnits d e ≤ unitsOfMag m) : decimalMag d e ≤ m := by
  rw [decimalMag_eq_roundMag]
  refine roundMag_le (pow_neg_toNat_pos e) hm.le ?_
  rw [← Nat.cast_le (α := ℚ), ← decUnits_mul, Nat.cast_mul]
  exact mul_le_mul_of_nonneg_right h (Nat.cast_nonneg _)

theorem le_decimalMag (h : (unitsOfMag m : ℚ) ≤ decUnits d e) : m ≤ decimalMag d e := by
  rw [decimalMag_eq_roundMag]
  refine le_roundMag (pow_neg_toNat_pos e) hm.le ?_
  rw [← Nat.cast_le (α := ℚ), ← decUnits_mul, Nat.cast_mul]
  exact mul_le_mul_of_nonneg_right h (Nat.cast_nonneg _)

/-- A decimal from a magnitude to less than halfway to the next reads as that magnitude. -/
theorem decimalMag_eq_of_ge (hlo : (unitsOfMag m : ℚ) ≤ decUnits d e)
    (hhi : 2 * decUnits d e < unitsOfMag m + unitsOfMag (m + 1)) : decimalMag d e = m := by
  rw [decimalMag_eq_roundMag]
  refine roundMag_eq_of_ge (pow_neg_toNat_pos e) hm ?_ ?_
  · rw [← Nat.cast_le (α := ℚ), ← decUnits_mul, Nat.cast_mul]
    exact mul_le_mul_of_nonneg_right hlo (Nat.cast_nonneg _)
  · rw [← Nat.cast_lt (α := ℚ), Nat.cast_mul, ← decUnits_mul, Nat.cast_mul, ← mul_assoc, Nat.cast_add]
    exact mul_lt_mul_of_pos_right hhi (pow_neg_toNat_cast_pos e)

/-- A decimal from more than halfway to the magnitude below up to a magnitude reads as that magnitude. -/
theorem decimalMag_eq_of_le (hhi : decUnits d e ≤ unitsOfMag m)
    (hlo : (unitsOfMag (m - 1) : ℚ) + unitsOfMag m < 2 * decUnits d e) : decimalMag d e = m := by
  rw [decimalMag_eq_roundMag]
  refine roundMag_eq_of_le (pow_neg_toNat_pos e) hm ?_ ?_
  · rw [← Nat.cast_le (α := ℚ), ← decUnits_mul, Nat.cast_mul]
    exact mul_le_mul_of_nonneg_right hhi (Nat.cast_nonneg _)
  · rw [← Nat.cast_lt (α := ℚ), Nat.cast_mul, Nat.cast_mul 2, ← decUnits_mul, ← mul_assoc, Nat.cast_add]
    exact mul_lt_mul_of_pos_right hlo (pow_neg_toNat_cast_pos e)

end

@[simp] theorem decimalMag_zero (e : Int) : decimalMag 0 e = 0 := by simp [decimalMag_eq_roundMag]

/-! ### The decimals next to a value -/

/-- `low × 10^e` is the largest multiple of `10^e` that is not above `v`, and has `n` digits. -/
structure IsFloor (n low : Nat) (e : Int) (v : ℚ) : Prop where
  le : decUnits low e ≤ v
  lt : v < decUnits (low + 1) e
  digits : 10 ^ (n - 1) ≤ low

section
variable {n low d : Nat} {e e' : Int} {v : ℚ}

theorem decUnits_pos_unit (e : Int) : (0 : ℚ) < (10 : ℚ) ^ e * oneUnits :=
  mul_pos (zpow_pos (by norm_num) e) oneUnits_cast_pos

/-- At a lower place, digits are a multiple of a power of ten. -/
theorem decUnits_of_le (h : e ≤ e') (d : Nat) : decUnits d e' = decUnits (d * 10 ^ (e' - e).toNat) e := by
  have hpow : (10 : ℚ) ^ e' = (10 : ℚ) ^ (e' - e).toNat * (10 : ℚ) ^ e := by
    rw [← zpow_natCast, ← zpow_add₀ (by norm_num)]
    congr 1
    omega
  rw [decUnits, decUnits, hpow]
  push_cast
  ring

theorem decUnits_lt_iff (d d' : Nat) (e : Int) : decUnits d e < decUnits d' e ↔ d < d' := by
  rw [decUnits, decUnits, mul_assoc, mul_assoc, mul_lt_mul_iff_left₀ (decUnits_pos_unit e), Nat.cast_lt]

theorem decUnits_le_iff (d d' : Nat) (e : Int) : decUnits d e ≤ decUnits d' e ↔ d ≤ d' := by
  rw [← not_lt, decUnits_lt_iff, not_lt]

/-- A decimal of at most `n` digits that has a lower place stands below every one of `n` digits at the higher place. -/
theorem IsFloor.lt_of_place_lt (h : IsFloor n low e v) (hn : 0 < n) (hd : d < 10 ^ n) (he : e' < e) :
    decUnits d e' < decUnits low e := by
  rw [decUnits_of_le he.le, decUnits_lt_iff]
  have hten : 10 ≤ 10 ^ (e - e').toNat := by
    calc 10 = 10 ^ 1 := rfl
      _ ≤ 10 ^ (e - e').toNat := Nat.pow_le_pow_right (by decide) (by omega)
  calc d < 10 ^ n := hd
    _ = 10 ^ (n - 1) * 10 := by rw [← Nat.pow_succ]; congr 1; omega
    _ ≤ low * 10 ^ (e - e').toNat := Nat.mul_le_mul h.digits hten

/-- No decimal of at most `n` digits stands between the floor and the value. -/
theorem IsFloor.le_of_le (h : IsFloor n low e v) (hn : 0 < n) (hd : d < 10 ^ n) (hv : decUnits d e' ≤ v) :
    decUnits d e' ≤ decUnits low e := by
  rcases lt_or_ge e' e with he | he
  · exact (h.lt_of_place_lt hn hd he).le
  · rw [decUnits_of_le he] at hv ⊢
    rw [decUnits_le_iff]
    have := (decUnits_lt_iff _ _ _).1 (hv.trans_lt h.lt)
    omega

/-- No decimal of at most `n` digits stands between the value and the next multiple. -/
theorem IsFloor.next_le_of_lt (h : IsFloor n low e v) (hn : 0 < n) (hd : d < 10 ^ n) (hv : v < decUnits d e') :
    decUnits (low + 1) e ≤ decUnits d e' := by
  rcases lt_or_ge e' e with he | he
  · exact absurd (h.lt_of_place_lt hn hd he) (not_lt.2 (h.le.trans hv.le))
  · rw [decUnits_of_le he] at hv ⊢
    rw [decUnits_le_iff]
    exact (decUnits_lt_iff _ _ _).1 (h.le.trans_lt hv)

end

section
variable {n low d m : Nat} {e e' : Int} (h : IsFloor n low e (unitsOfMag m)) (hm : m < infMag)
include h hm

/-- Where a decimal of at most `n` digits reads back to a magnitude, one of the two next to the magnitude does: they lie
between that decimal and the magnitude. -/
theorem IsFloor.reads_of_reads (hn : 0 < n) (hd : d < 10 ^ n) (hread : decimalMag d e' = m) :
    decimalMag low e = m ∨ decimalMag (low + 1) e = m := by
  rcases le_or_gt (decUnits d e') (unitsOfMag m) with hv | hv
  · refine .inl (Nat.le_antisymm (decimalMag_le hm h.le) ?_)
    exact hread ▸ decimalMag_mono (h.le_of_le hn hd hv)
  · refine .inr (Nat.le_antisymm ?_ (le_decimalMag hm h.lt.le))
    exact hread ▸ decimalMag_mono (h.next_le_of_lt hn hd hv)

/-- Of the two decimals of seventeen digits next to a magnitude, one reads back to it. -/
theorem IsFloor.reads_of_seventeen (hpos : 0 < m) (hn : n = 17) :
    decimalMag low e = m ∨ decimalMag (low + 1) e = m := by
  subst hn
  have hspace : 2 * (unitsOfMag m : ℚ) + 10 ^ 16 * unitsOfMag (m - 1) < 10 ^ 16 * unitsOfMag (m + 1) := by
    exact_mod_cast unitsOfMag_spacing hpos
  have hunit : 10 ^ 16 * decUnits 1 e ≤ unitsOfMag m := by
    refine le_trans ?_ h.le
    have := (decUnits_le_iff _ _ e).2 h.digits
    rwa [decUnits_eq_mul, Nat.cast_pow] at this
  by_cases hbelow : (unitsOfMag (m - 1) : ℚ) + unitsOfMag m < 2 * decUnits low e
  · exact .inl (decimalMag_eq_of_le hm h.le hbelow)
  · refine .inr (decimalMag_eq_of_ge hm h.lt.le ?_)
    have hnext : decUnits (low + 1) e = decUnits low e + decUnits 1 e := by
      rw [decUnits_eq_mul, decUnits_eq_mul low]
      push_cast
      ring
    linarith

end

/-! ### The search -/

/-- A number of `decLength` digits. -/
theorem decLength_spec {fuel N : Nat} (hpos : 0 < N) (hfuel : N < 10 ^ fuel) :
    0 < decLength fuel N ∧ 10 ^ (decLength fuel N - 1) ≤ N ∧ N < 10 ^ decLength fuel N := by
  induction fuel generalizing N with
  | zero => omega
  | succ fuel ih =>
    rw [decLength]
    split
    · next h => exact ⟨Nat.one_pos, hpos, h⟩
    · next h =>
      obtain ⟨hlen, hlo, hhi⟩ := ih (N := N / 10) (by omega) (by rw [pow_succ] at hfuel; omega)
      obtain ⟨k, hk⟩ := Nat.exists_eq_add_of_lt hlen
      rw [hk] at hlo hhi ⊢
      simp only [Nat.zero_add, Nat.add_sub_cancel, pow_succ] at *
      omega

/-- The search's magnitude over a power of ten that makes it large. -/
def scaledUnits (mag : Nat) : Nat := unitsOfMag mag * 10 ^ printScale

/-- The number of digits before the point of the scaled magnitude. -/
def scaledLength (mag : Nat) : Nat := decLength 700 (scaledUnits mag / oneUnits)

/-- The first `n` digits of a magnitude. -/
def lowDigits (mag n : Nat) : Nat := scaledUnits mag / (10 ^ (scaledLength mag - n) * oneUnits)

/-- The place of the last of them. -/
def lowExp (mag n : Nat) : Int := (scaledLength mag : Int) - n - printScale

/-- The decimal of `n` digits next above them. -/
def highDecimal (mag n : Nat) : Nat × Int := nextDecimal n (lowDigits mag n) (lowExp mag n)

/-- Whether the search prefers the lower decimal where both read back. -/
def lowIsNearer (mag n : Nat) : Bool :=
  decide (2 * (scaledUnits mag % (10 ^ (scaledLength mag - n) * oneUnits)) ≤ 10 ^ (scaledLength mag - n) * oneUnits)

theorem decimalOfLength_eq (mag n : Nat) : decimalOfLength mag n =
    if decide (decimalMag (lowDigits mag n) (lowExp mag n) = mag) &&
        (!decide (decimalMag (highDecimal mag n).1 (highDecimal mag n).2 = mag) || lowIsNearer mag n) then
      some (lowDigits mag n, lowExp mag n)
    else if decide (decimalMag (highDecimal mag n).1 (highDecimal mag n).2 = mag) then some (highDecimal mag n)
    else none := rfl

/-- What the search answers for one number of digits reads back, and is one of the two decimals next to the magnitude. -/
theorem of_decimalOfLength_eq_some {mag n digits : Nat} {e : Int} (h : decimalOfLength mag n = some (digits, e)) :
    decimalMag digits e = mag ∧ ((digits, e) = (lowDigits mag n, lowExp mag n) ∨ (digits, e) = highDecimal mag n) := by
  rw [decimalOfLength_eq] at h
  split_ifs at h with hlow hhigh
  · cases h
    exact ⟨by simp_all, .inl rfl⟩
  · have hd := Option.some.inj h
    rw [hd, decide_eq_true_eq] at hhigh
    exact ⟨hhigh, .inr hd.symm⟩

/-- It answers one where one of the two reads back. -/
theorem exists_decimalOfLength {mag n : Nat} (h : decimalMag (lowDigits mag n) (lowExp mag n) = mag ∨
    decimalMag (highDecimal mag n).1 (highDecimal mag n).2 = mag) : ∃ d, decimalOfLength mag n = some d := by
  rw [decimalOfLength_eq]
  split_ifs with hlow hhigh
  · exact ⟨_, rfl⟩
  · exact ⟨_, rfl⟩
  · simp_all

/-- A magnitude that is finite and not zero has at least twenty digits before the point when it is scaled, and no more
than the search counts. -/
theorem scaledUnits_bounds {mag : Nat} (hpos : 0 < mag) (hfin : mag < infMag) :
    10 ^ 19 ≤ scaledUnits mag / oneUnits ∧ scaledUnits mag / oneUnits < 10 ^ 700 := by
  have hone : 0 < unitsOfMag mag := unitsOfMag_zero ▸ unitsOfMag_strictMono hpos
  have hinf : unitsOfMag mag ≤ unitsOfMag infMag := unitsOfMag_strictMono.monotone hfin.le
  have hlow : 10 ^ 19 * oneUnits ≤ 10 ^ printScale := by
    rw [oneUnits_eq]
    decide +kernel
  have hhigh : unitsOfMag infMag * 10 ^ printScale < 10 ^ 700 * oneUnits := by
    rw [oneUnits_eq]
    decide +kernel
  rw [Nat.le_div_iff_mul_le oneUnits_pos, Nat.div_lt_iff_lt_mul oneUnits_pos, scaledUnits]
  refine ⟨hlow.trans (Nat.le_mul_of_pos_left _ hone), (Nat.mul_le_mul_right _ hinf).trans_lt hhigh⟩

section
variable {mag n : Nat} (hpos : 0 < mag) (hfin : mag < infMag) (hn : 0 < n) (h17 : n ≤ 17)
include hpos hfin hn h17

theorem lowDigits_bounds : n ≤ scaledLength mag ∧ 10 ^ (n - 1) ≤ lowDigits mag n ∧ lowDigits mag n < 10 ^ n := by
  obtain ⟨hlo, hhi⟩ := scaledUnits_bounds hpos hfin
  obtain ⟨hlen, hloLen, hhiLen⟩ := decLength_spec (by omega) hhi
  rw [← scaledLength] at hlen hloLen hhiLen
  have h20 : 19 < scaledLength mag := (Nat.pow_lt_pow_iff_right (by decide)).1 (hlo.trans_lt hhiLen)
  have hlow : lowDigits mag n = scaledUnits mag / oneUnits / 10 ^ (scaledLength mag - n) := by
    rw [lowDigits, Nat.div_div_eq_div_mul, Nat.mul_comm]
  have hten : 0 < 10 ^ (scaledLength mag - n) := Nat.pow_pos (by decide)
  refine ⟨by omega, ?_, ?_⟩
  · rw [hlow, Nat.le_div_iff_mul_le hten, ← Nat.pow_add]
    rwa [show n - 1 + (scaledLength mag - n) = scaledLength mag - 1 by omega]
  · rw [hlow, Nat.div_lt_iff_lt_mul hten, ← Nat.pow_add]
    rwa [show n + (scaledLength mag - n) = scaledLength mag by omega]

/-- The lower decimal is the largest of its place that is not above the magnitude. -/
theorem isFloor_lowDigits : IsFloor n (lowDigits mag n) (lowExp mag n) (unitsOfMag mag) := by
  obtain ⟨hlen, hdigits, -⟩ := lowDigits_bounds hpos hfin hn h17
  have hscale : (0 : ℚ) < (10 : ℚ) ^ printScale := pow_pos (by norm_num) _
  have hplace : 0 < 10 ^ (scaledLength mag - n) * oneUnits := Nat.mul_pos (Nat.pow_pos (by decide)) oneUnits_pos
  have hscaled : (unitsOfMag mag : ℚ) * 10 ^ printScale = (scaledUnits mag : ℚ) := by rw [scaledUnits]; push_cast; rfl
  have hexp : lowExp mag n = ((scaledLength mag - n : Nat) : Int) - (printScale : Nat) := by rw [lowExp]; omega
  have hdec (d : Nat) : decUnits d (lowExp mag n) * 10 ^ printScale =
      ((d * (10 ^ (scaledLength mag - n) * oneUnits) : Nat) : ℚ) := by
    rw [decUnits, hexp, zpow_sub₀ (by norm_num), zpow_natCast, zpow_natCast]
    push_cast
    field_simp
  refine ⟨le_of_mul_le_mul_right ?_ hscale, lt_of_mul_lt_mul_right ?_ hscale.le, hdigits⟩
  · rw [hdec, hscaled, Nat.cast_le]
    exact Nat.div_mul_le_self _ _
  · rw [hdec, hscaled, Nat.cast_lt, Nat.mul_comm]
    exact Nat.lt_mul_div_succ _ hplace

omit hpos hfin h17 in
/-- Past so many nines the higher decimal is written with one significant digit, and is the same value. -/
theorem decUnits_highDecimal :
    decUnits (highDecimal mag n).1 (highDecimal mag n).2 = decUnits (lowDigits mag n + 1) (lowExp mag n) := by
  rw [highDecimal, nextDecimal]
  split
  · next h =>
    rw [h, decUnits_of_le (e := lowExp mag n) (by omega), show lowExp mag n + 1 - lowExp mag n = 1 by omega, Int.toNat_one,
      ← Nat.pow_add, Nat.sub_add_cancel hn]
  · rfl

theorem highDecimal_lt : (highDecimal mag n).1 < 10 ^ n := by
  obtain ⟨-, -, hlow⟩ := lowDigits_bounds hpos hfin hn h17
  rw [highDecimal, nextDecimal]
  split
  · exact Nat.pow_lt_pow_right (by decide) (by omega)
  · next h => exact Nat.lt_of_le_of_ne hlow h

/-- What the search answers has no more digits than it was asked for. -/
theorem digits_lt_of_decimalOfLength {digits : Nat} {e : Int} (h : decimalOfLength mag n = some (digits, e)) :
    digits < 10 ^ n := by
  obtain ⟨-, -, hlow⟩ := lowDigits_bounds hpos hfin hn h17
  rcases (of_decimalOfLength_eq_some h).2 with hd | hd
  · exact (Prod.mk.inj hd).1 ▸ hlow
  · have hhigh := highDecimal_lt hpos hfin hn h17
    rwa [← hd] at hhigh

omit hpos hfin h17 in
theorem exists_decimalOfLength_of_next (h : decimalMag (lowDigits mag n) (lowExp mag n) = mag ∨
    decimalMag (lowDigits mag n + 1) (lowExp mag n) = mag) : ∃ d, decimalOfLength mag n = some d := by
  have hhigh := decUnits_highDecimal (mag := mag) hn
  exact exists_decimalOfLength (h.imp_right fun h =>
    (Nat.le_antisymm (decimalMag_mono hhigh.le) (decimalMag_mono hhigh.ge)).trans h)

/-- The search finds a decimal of `n` digits where there is one. -/
theorem exists_decimalOfLength_of_reads {d : Nat} {e : Int} (hd : d < 10 ^ n) (hread : decimalMag d e = mag) :
    ∃ d, decimalOfLength mag n = some d :=
  exists_decimalOfLength_of_next hn ((isFloor_lowDigits hpos hfin hn h17).reads_of_reads hfin hn hd hread)

end

/-- Seventeen digits always suffice. -/
theorem exists_decimalOfLength_seventeen {mag : Nat} (hpos : 0 < mag) (hfin : mag < infMag) :
    ∃ d, decimalOfLength mag 17 = some d :=
  exists_decimalOfLength_of_next (by decide)
    ((isFloor_lowDigits hpos hfin (by decide) (by decide)).reads_of_seventeen hfin hpos rfl)

/-- A search over numbers in ascending order answers for the first that has an answer. -/
theorem exists_first_of_findSome? {α : Type} {f : Nat → Option α} {ns : List Nat} {a : α} (hs : ns.Pairwise (· < ·))
    (h : ns.findSome? f = some a) : ∃ n ∈ ns, f n = some a ∧ ∀ k ∈ ns, k < n → f k = none := by
  obtain ⟨before, n, after, rfl, hn, hnone⟩ := List.findSome?_eq_some_iff.1 h
  refine ⟨n, by simp, hn, fun k hk hlt => ?_⟩
  rcases List.mem_append.1 hk with hk | hk
  · exact hnone k hk
  · have hle : n ≤ k := by
      rcases List.mem_cons.1 hk with rfl | hk
      · exact le_rfl
      · exact (List.rel_of_pairwise_cons (List.pairwise_append.1 hs).2.1 hk).le
    omega

theorem mem_searchedLengths (n : Nat) : n ∈ (List.range 18).drop 1 ↔ 0 < n ∧ n ≤ 17 := by
  rw [show (List.range 18).drop 1 = List.range' 1 17 from rfl, List.mem_range'_1]
  omega

/-- The shortest decimal of a finite magnitude reads back to it, and no decimal of fewer digits does. -/
theorem shortestDecimal_spec {mag : Nat} (hfin : mag < infMag) :
    ∃ digits e, shortestDecimal mag = some (digits, e) ∧ decimalMag digits e = mag ∧
      ∀ (digits' : Nat) (e' : Int) (k : Nat), decimalMag digits' e' = mag → digits' < 10 ^ k → digits < 10 ^ k := by
  rw [shortestDecimal]
  by_cases h0 : mag = 0
  · subst h0
    exact ⟨0, 0, rfl, decimalMag_zero 0, fun _ _ k _ _ => Nat.pow_pos (by decide)⟩
  have hpos : 0 < mag := Nat.pos_of_ne_zero h0
  rw [if_neg h0]
  obtain ⟨d17, h17⟩ := exists_decimalOfLength_seventeen hpos hfin
  cases hfind : ((List.range 18).drop 1).findSome? (decimalOfLength mag) with
  | none =>
    have := List.findSome?_eq_none_iff.1 hfind 17 (by decide)
    rw [h17] at this
    cases this
  | some d =>
    obtain ⟨digits, e⟩ := d
    obtain ⟨n, hmem, hn, hfirst⟩ := exists_first_of_findSome? (by decide) hfind
    obtain ⟨hn0, hn17⟩ := (mem_searchedLengths n).1 hmem
    refine ⟨digits, e, rfl, (of_decimalOfLength_eq_some hn).1, fun digits' e' k hread hk => ?_⟩
    have hlt := digits_lt_of_decimalOfLength hpos hfin hn0 hn17 hn
    rcases Nat.lt_or_ge k n with hkn | hnk
    · have hk0 : 0 < k := by
        rcases Nat.eq_zero_or_pos k with rfl | hk0
        · rw [Nat.lt_one_iff.1 hk, decimalMag_zero] at hread
          omega
        · exact hk0
      obtain ⟨d, hd⟩ := exists_decimalOfLength_of_reads hpos hfin hk0 (by omega) hk hread
      rw [hfirst k ((mem_searchedLengths k).2 (by omega)) hkn] at hd
      cases hd
    · exact hlt.trans_le (Nat.pow_le_pow_right (by decide) hnk)

/-! ### What the disassembler gives for a value -/

theorem asmFloatOf_of_isNaN {x : F64} (h : isNaN x = true) : asmFloatOf x = .raw x := by
  simp [asmFloatOf, h]

theorem asmFloatOf_of_isInf {x : F64} (h : isInf x = true) : asmFloatOf x = .inf (signOf x) := by
  have hnan : isNaN x = false := by
    simp only [isInf, isNaN, decide_eq_true_eq, decide_eq_false_iff_not] at *
    omega
  simp [asmFloatOf, hnan, h]

theorem asmFloatOf_of_isFinite {x : F64} (h : isFinite x = true) :
    ∃ digits e, asmFloatOf x = .decimal (signOf x) digits e ∧ asmValue (.decimal (signOf x) digits e) = x ∧
      ∀ (digits' : Nat) (e' : Int) (k : Nat), asmValue (.decimal (signOf x) digits' e') = x → digits' < 10 ^ k →
        digits < 10 ^ k := by
  obtain ⟨digits, e, hs, hread, hshort⟩ := shortestDecimal_spec (of_decide_eq_true h)
  refine ⟨digits, e, ?_, ?_, fun digits' e' k hx hk => hshort digits' e' k ?_ hk⟩
  · simp [asmFloatOf, isNaN_of_isFinite h, isInf_of_isFinite h, hs]
  · rw [asmValue_decimal, hread, packF64_signOf_magOf]
  · rw [← magOf_asmValue_decimal (signOf x), hx]

/-- Settles O52, by the class of the value. -/
theorem disassemblyPrintsTheShortestDecimal : Obligations.DisassemblyPrintsTheShortestDecimal :=
  fun _ => ⟨asmFloatOf_of_isNaN, asmFloatOf_of_isInf, asmFloatOf_of_isFinite⟩

/-- What is printed for a value reads back to it, whatever pattern it is. -/
theorem asmValue_asmFloatOf (x : F64) : asmValue (asmFloatOf x) = x := by
  rcases lt_trichotomy (magOf x) infMag with hfin | hinf | hnan
  · obtain ⟨digits, e, he, hx, -⟩ := asmFloatOf_of_isFinite (decide_eq_true hfin)
    rw [he, hx]
  · rw [asmFloatOf_of_isInf (decide_eq_true hinf), asmValue, ← hinf, packF64_signOf_magOf]
  · rw [asmFloatOf_of_isNaN (decide_eq_true hnan), asmValue]

theorem indexOf_of_registerOf {idx : Byte} {r : Register} (h : registerOf idx = some r) : indexOf r = idx := by
  have all : ∀ idx : Byte, ∀ r, registerOf idx = some r → indexOf r = idx := by decide +kernel
  exact all idx r h

/-- Settles O9, command by command. -/
theorem disassemblyReadsBack : Obligations.DisassemblyReadsBack := by
  intro i
  cases i with
  | reset | endStream => exact ⟨rfl, rfl⟩
  | setRate rate => exact ⟨fitsRate_toNat rate, by simp [disassemble, expand]⟩
  | setChannels ch => exact ⟨fitsByte_toNat ch, by simp [disassemble, expand]⟩
  | setCpufreq | sampleMono | sampleStereo => exact ⟨rfl, by simp only [disassemble, expand, asmValue_asmFloatOf]⟩
  | readReg idx =>
    rw [disassemble_readReg]
    cases h : registerOf idx with
    | some r => exact ⟨rfl, by simp [expand, asmIndex, indexOf_of_registerOf h]⟩
    | none => exact ⟨fitsByte_toNat idx, by simp [expand, asmIndex]⟩

end Sys2Proof.Machine
end

section
/-! PROOFS. The control commands (40_control_ops.md) and the decoder's `Invalid` verdicts: the bytes of each command, when
it has its effect, and which fault it raises otherwise. -/

namespace Sys2Proof.Machine

/-! ### Bytes -/

theorem leBytes_one_toNat (b : Byte) : leBytes 1 b.toNat = [b] := by simp [leBytes]

theorem encode_setChannels (ch : Byte) : encode (.setChannels ch) = [0x03, ch] :=
  (encode_eq_cons rfl rfl).trans (congrArg _ (leBytes_one_toNat ch))

theorem encode_readReg (idx : Byte) : encode (.readReg idx) = [0x30, idx] :=
  (encode_eq_cons rfl rfl).trans (congrArg _ (leBytes_one_toNat idx))

/-! ### Faults -/

/-- A command with checks raises the cause of its first failing check where it is not ignored (60_exceptions.md R207). -/
theorem unlessFaulted_checked_of_fail {checks : List (Bool × Cause)} {effect : State → State} {s : State} {c : Cause}
    (hs : s.runState ≠ .faulted) (hfail : firstFailing checks = some c) :
    unlessFaulted (checked checks effect) s = raiseFault c s := by
  rw [unlessFaulted_of_not hs, checked, hfail]

/-- The SET commands are locked once a sample or END has left IDLE, whatever they would write (10_state.md R23 to R25). -/
theorem exec_of_configLocked {i : Instr} {s : State} (hi : IsSetCommand i)
    (hs : s.runState = .running ∨ s.runState = .ended) : exec i s = .next (raiseFault .configLocked s) := by
  have hf : s.runState ≠ .faulted := by rcases hs with hs | hs <;> simp [hs]
  have hlocked : decide (s.runState ≠ .idle) = true := by rcases hs with hs | hs <;> simp [hs]
  rcases hi with ⟨rate, rfl⟩ | ⟨ch, rfl⟩ | ⟨freq, rfl⟩ <;>
    exact congrArg Host.Outcome.next (unlessFaulted_checked_of_fail hf (by rw [firstFailing, if_pos hlocked]))

/-- In IDLE the first check of a SET command passes, and the second one decides its fault. -/
theorem unlessFaulted_checked_of_badOperand {s : State} {bad : Bool} {c : Cause} {effect : State → State}
    (hs : s.runState = .idle) (hbad : bad = true) :
    unlessFaulted (checked [(decide (s.runState ≠ .idle), .configLocked), (bad, c)] effect) s = raiseFault c s :=
  unlessFaulted_checked_of_fail (by simp [hs]) (by simp [firstFailing, hs, hbad])

/-! ### Legal frequencies -/

/-- The patterns of the positive finite values are those from the smallest subnormal to the largest finite one. -/
theorem isFinite_and_fgt_posZero_iff (x : F64) :
    (isFinite x = true ∧ fgt x posZero = true) ↔ 0 < x.toNat ∧ x.toNat < 0x7FF0000000000000 := by
  have hx := x.isLt
  have hkey : orderKey posZero = 0 := by decide
  have hgt (hfin : isFinite x = true) : fgt x posZero = true ↔ 0 < orderKey x := by
    rw [fgt_iff (isNaN_of_isFinite hfin) (by decide), hkey]
  rw [and_congr_right hgt, isFinite, decide_eq_true_eq, orderKey, signOf, magOf, infMag]
  by_cases hsign : 2 ^ 63 ≤ x.toNat
  · simp only [hsign, decide_true, if_true]
    omega
  · simp only [hsign, decide_false, Bool.false_eq_true, if_false]
    omega

/-! ### Registers -/

/-- The unassigned indices are those above 6 (10_state.md R34). -/
theorem registerOf_eq_none {idx : Byte} (h : 6 < idx) : registerOf idx = none := by
  refine Option.eq_none_iff_forall_not_mem.2 fun r hr => ?_
  rw [← indexOf_of_registerOf hr] at h
  revert h
  cases r <;> decide

/-- In every state READ_REG emits the word of the register its index names (40_control_ops.md R106). -/
theorem exec_readReg_of_eq_indexOf {idx : Byte} (r : Register) (s : State) (h : idx = indexOf r) :
    exec (.readReg idx) s = .next (emitResp (readRegister r s) s) := by
  have hr : registerOf (indexOf r) = some r := by cases r <;> rfl
  rw [exec, execReadReg, h, hr]

theorem exec_readReg_of_unassigned {idx : Byte} (s : State) (h : 6 < idx) :
    exec (.readReg idx) s = .next (unlessFaulted (raiseFault .badRegister) s) := by
  rw [exec, execReadReg, registerOf_eq_none h]

/-- STATUS as one number: its fields and its reserved bits make up the whole word (10_state.md R26). -/
theorem statusWord_eq (s : State) :
    statusWord s = BitVec.ofNat 64 (s.cause.code.toNat * 2 ^ 8 + s.runState.code.toNat) := by
  obtain ⟨hstate, hreserved, hcause, hhigh⟩ := extractLsb'_status s.cause.code s.runState.code
  rw [← statusWord] at hstate hreserved hcause hhigh
  have hlt := (statusWord s).isLt
  have h0 := congrArg BitVec.toNat hstate
  have h2 := congrArg BitVec.toNat hreserved
  have h8 := congrArg BitVec.toNat hcause
  have h16 := congrArg BitVec.toNat hhigh
  simp only [BitVec.extractLsb'_toNat, Nat.shiftRight_eq_div_pow, BitVec.ofNat_eq_ofNat, BitVec.toNat_ofNat]
    at h0 h2 h8 h16
  apply BitVec.eq_of_toNat_eq
  rw [BitVec.toNat_ofNat]
  omega

/-! ### Invalid verdicts -/

theorem step_of_invalid {s : State} {v : Verdict} {rest : List Byte} (h : decodeNext s.cmdIn = some (.invalid v rest)) :
    step s = .next (performInvalid v (takeCommand rest s)) := by
  rw [step, h]

/-! ### The obligations -/

/-- Settles O19: the checks of `SET_CPUFREQ` by state, and its legal values by their patterns. -/
theorem setCpufreqWritesPositiveFiniteInIdle : Obligations.SetCpufreqWritesPositiveFiniteInIdle := by
  intro freq s
  refine ⟨encode_setCpufreq freq, fun hs hpos hfin => ?_, fun hs hout => ?_,
    exec_of_configLocked (.inr (.inr ⟨freq, rfl⟩)), fun hs => exec_of_faulted hs nofun nofun⟩
  · obtain ⟨hfinite, hgt⟩ := (isFinite_and_fgt_posZero_iff freq).2 ⟨hpos, hfin⟩
    exact exec_setCpufreq_of_idle hs hfinite hgt
  · have hbad : (!isFinite freq || !fgt freq posZero) = true := by
      have hnot := mt (isFinite_and_fgt_posZero_iff freq).1 (by omega)
      rwa [← Bool.not_and, Bool.not_eq_true', ← Bool.not_eq_true, Bool.and_eq_true]
    exact congrArg Host.Outcome.next (unlessFaulted_checked_of_badOperand hs hbad)

/-- Settles O11, by whether the block is in FAULTED when the verdict is performed. -/
theorem stepPerformsInvalidVerdicts : Obligations.StepPerformsInvalidVerdicts := by
  intro s v rest h
  rw [step_of_invalid h, performInvalid]
  refine ⟨fun hs => ?_, fun hs => ?_⟩
  · rw [unlessFaulted_of_not (by simpa using hs)]
    cases v <;> rfl
  · rw [unlessFaulted_of_faulted (by simpa using hs), takeCommand]

/-- Settles O15: what RESET leaves has the reset state's registers and streams. -/
theorem resetWritesEveryRegister : Obligations.ResetWritesEveryRegister :=
  fun s => ⟨rfl, performReset s, rfl, resetStateIsTheTable⟩

/-- Settles O17, by the state and then by the rate. -/
theorem setRateWritesTheRateInIdle : Obligations.SetRateWritesTheRateInIdle := fun rate _ =>
  ⟨encode_setRate rate, fun hs hrate => exec_setRate_of_idle hs hrate,
    fun hs hrate => congrArg Host.Outcome.next (unlessFaulted_checked_of_badOperand hs (decide_eq_true hrate)),
    exec_of_configLocked (.inl ⟨rate, rfl⟩), fun hs => exec_of_faulted hs nofun nofun⟩

/-- Settles O18, by the state and then by the channel count. -/
theorem setChannelsWritesOneOrTwoInIdle : Obligations.SetChannelsWritesOneOrTwoInIdle := fun ch _ =>
  ⟨encode_setChannels ch, fun hs hch => exec_setChannels_of_idle hs hch,
    fun hs h1 h2 => congrArg Host.Outcome.next (unlessFaulted_checked_of_badOperand hs (decide_eq_true ⟨h1, h2⟩)),
    exec_of_configLocked (.inr (.inl ⟨ch, rfl⟩)), fun hs => exec_of_faulted hs nofun nofun⟩

/-- Settles O20: END's two checks, by the state and then by the number of Pulse Bytes. -/
theorem endClosesTheStream : Obligations.EndClosesTheStream := by
  intro s
  have hopen (hs : s.runState = .idle ∨ s.runState = .running) : s.runState ≠ .faulted ∧ s.runState ≠ .ended := by
    rcases hs with hs | hs <;> simp [hs]
  refine ⟨rfl, fun hs hlen => ?_, fun hs hlen => ?_, fun hs => ?_, fun hs => exec_of_faulted hs nofun nofun⟩
  · obtain ⟨hfaulted, hended⟩ := hopen hs
    have hfits : ¬ Config.maxPulses < s.pulseCount.toNat := Nat.not_lt.2 hlen
    exact congrArg Host.Outcome.next (unlessFaulted_checked_of_pass hfaulted (by simp [hended, hfits]))
  · obtain ⟨hfaulted, hended⟩ := hopen hs
    have hover : Config.maxPulses < s.pulseCount.toNat := hlen
    exact congrArg Host.Outcome.next (unlessFaulted_checked_of_fail hfaulted (by simp [firstFailing, hended, hover]))
  · exact congrArg Host.Outcome.next (unlessFaulted_checked_of_fail (by simp [hs]) (by simp [firstFailing, hs]))

/-- Settles O21: each assigned index names its register, and STATUS is its word as one number. -/
theorem readRegEmitsTheRegister : Obligations.ReadRegEmitsTheRegister := by
  intro idx s
  refine ⟨encode_readReg idx, exec_readReg_of_eq_indexOf .sampleRate s, exec_readReg_of_eq_indexOf .cpuFreq s,
    exec_readReg_of_eq_indexOf .channels s, fun h => ?_, exec_readReg_of_eq_indexOf .sampleCount s,
    exec_readReg_of_eq_indexOf .crossCount s, exec_readReg_of_eq_indexOf .pulseCount s, fun h hs => ?_, fun h hs => ?_⟩
  · rw [exec_readReg_of_eq_indexOf .status s h, readRegister, statusWord_eq, emitResp]
  · rw [exec_readReg_of_unassigned s h, unlessFaulted_of_not hs, raiseFault]
  · rw [exec_readReg_of_unassigned s h, unlessFaulted_of_faulted hs]

end Sys2Proof.Machine
end

section
/-! PROOFS. The timestamps of samples (41_sample_downmixer.md R123): the real they are the floor of rises with the index
(R125), and the floor of a binary64 value is itself a binary64 value (R127). -/

namespace Sys2Proof.Machine

/-! ### Naturals as binary64 values -/

@[simp] theorem signOf_f64OfNat (n : Nat) : signOf (f64OfNat n) = false := signOf_packF64_roundMag _ _ _

theorem unitsOf_f64OfNat (n : Nat) : unitsOf (f64OfNat n) = unitsOfMag (roundMag (n * oneUnits) 1) := by
  rw [unitsOf, f64OfNat, magOf_packF64_roundMag]

theorem unitsOf_f64OfNat_mono {m n : Nat} (h : m ≤ n) : unitsOf (f64OfNat m) ≤ unitsOf (f64OfNat n) := by
  rw [unitsOf_f64OfNat, unitsOf_f64OfNat]
  refine unitsOfMag_strictMono.monotone (roundMag_mono Nat.one_pos Nat.one_pos ?_)
  exact Nat.mul_le_mul_right 1 (Nat.mul_le_mul_right oneUnits h)

/-- A natural that is a magnitude converts with no rounding. -/
theorem unitsOf_f64OfNat_of_mag {m n : Nat} (hm : m ≤ infMag) (h : unitsOfMag m = n * oneUnits) :
    unitsOf (f64OfNat n) = n * oneUnits := by
  have hround : roundMag (unitsOfMag m * 1) 1 = m := roundMag_exact Nat.one_pos hm
  rw [unitsOf_f64OfNat, ← h, ← Nat.mul_one (unitsOfMag m), hround, Nat.mul_one]

theorem unitsOf_f64OfNat_zero : unitsOf (f64OfNat 0) = 0 := by
  rw [unitsOf_f64OfNat_of_mag (Nat.zero_le _) (by rw [unitsOfMag_zero, Nat.zero_mul]), Nat.zero_mul]

theorem oneUnits_le_unitsOf_f64OfNat {n : Nat} (h : 0 < n) : oneUnits ≤ unitsOf (f64OfNat n) := by
  have hone : unitsOf (f64OfNat 1) = 1 * oneUnits :=
    unitsOf_f64OfNat_of_mag (by decide) (unitsOfMag_one.trans (Nat.one_mul _).symm)
  rw [← Nat.one_mul oneUnits, ← hone]
  exact unitsOf_f64OfNat_mono h

theorem atMost_f64OfNat {n : Nat} (h : n < 2 ^ 53) : AtMost (2 ^ 64 * oneUnits) (f64OfNat n) := by
  have hword := atMost_f64OfNat_word (BitVec.ofNat 64 n)
  rwa [BitVec.toNat_ofNat, Nat.mod_eq_of_lt (h.trans (by decide))] at hword

/-! ### The floor of a magnitude -/

/-- Any number of at most 53 bits is a magnitude, at any place: it moves down until it has 53 bits, or to the
lowest place of all. -/
theorem exists_unitsOfMag_eq_mul_two_pow (S : Nat) {k : Nat} (hk : k ≤ 2 ^ 53) : ∃ m, unitsOfMag m = k * 2 ^ S := by
  induction S generalizing k with
  | zero => exact ⟨0 * 2 ^ 52 + k, unitsOfMag_grid hk (.inl rfl)⟩
  | succ S ih =>
    rcases Nat.lt_or_ge k (2 ^ 52) with hlt | hge
    · obtain ⟨m, hm⟩ := ih (show k * 2 ≤ 2 ^ 53 by omega)
      exact ⟨m, by rw [hm, Nat.pow_succ', Nat.mul_assoc]⟩
    · exact ⟨(S + 1) * 2 ^ 52 + k, unitsOfMag_grid hk (.inr hge)⟩

/-- The floor of a magnitude is a magnitude: one whose last place is 1 or above is whole, and the whole part of any
other has at most 53 bits. -/
theorem exists_unitsOfMag_eq_floor (m : Nat) : ∃ n ≤ m, unitsOfMag n = unitsOfMag m / oneUnits * oneUnits := by
  suffices hmag : ∃ n, unitsOfMag n = unitsOfMag m / oneUnits * oneUnits by
    obtain ⟨n, hn⟩ := hmag
    exact ⟨n, unitsOfMag_strictMono.le_iff_le.1 (hn ▸ Nat.div_mul_le_self _ _), hn⟩
  obtain ⟨S, k, hm, hk, hS⟩ := exists_grid m
  have hunits : unitsOfMag m = k * 2 ^ S := by rw [hm, unitsOfMag_grid hk.le hS]
  obtain ⟨T, hT⟩ : ∃ T, oneUnits = 2 ^ T := ⟨_, oneUnits_eq⟩
  rw [hunits, hT]
  rcases Nat.le_total T S with hge | hle
  · have hwhole : 2 ^ T ∣ k * 2 ^ S := (Nat.pow_dvd_pow 2 hge).mul_left k
    exact ⟨m, by rw [hunits, Nat.div_mul_cancel hwhole]⟩
  · have hfloor : k * 2 ^ S / 2 ^ T ≤ k :=
      Nat.div_le_of_le_mul ((Nat.mul_comm k _).trans_le (Nat.mul_le_mul_right k (Nat.pow_le_pow_right Nat.two_pos hle)))
    exact exists_unitsOfMag_eq_mul_two_pow T (hfloor.trans hk.le)

/-! ### The real of a timestamp -/

/-- The time of a sample in seconds: the quotient in the real of 41_sample_downmixer.md R123. -/
def seconds (i : Nat) (sr : Word32) : F64 := fdiv (f64OfNat i) (f64OfNat sr.toNat)

section
variable {i j : Nat} {sr : Word32} (hsr : sr ≠ 0)
include hsr

theorem oneUnits_le_unitsOf_rate : oneUnits ≤ unitsOf (f64OfNat sr.toNat) :=
  oneUnits_le_unitsOf_f64OfNat (Nat.pos_of_ne_zero fun h => hsr (BitVec.eq_of_toNat_eq h))

theorem unitsOf_rate_pos : 0 < unitsOf (f64OfNat sr.toNat) := oneUnits_pos.trans_le (oneUnits_le_unitsOf_rate hsr)

theorem seconds_eq (hi : i < 2 ^ 53) :
    seconds i sr = packF64 false (roundMag (unitsOf (f64OfNat i) * oneUnits) (unitsOf (f64OfNat sr.toNat))) := by
  have hrate : isFinite (f64OfNat sr.toNat) = true := (atMost_f64OfNat (sr.isLt.trans (by decide))).1
  have hmag : magOf (f64OfNat sr.toNat) ≠ 0 := fun h => (unitsOf_rate_pos hsr).ne' ((unitsOf_eq_zero _).2 h)
  rw [seconds, fdiv_of_finite (atMost_f64OfNat hi).1 hrate hmag, signOf_f64OfNat, signOf_f64OfNat, bne_self_eq_false]

theorem unitsOf_seconds (hi : i < 2 ^ 53) :
    unitsOf (seconds i sr) = unitsOfMag (roundMag (unitsOf (f64OfNat i) * oneUnits) (unitsOf (f64OfNat sr.toNat))) := by
  rw [unitsOf, seconds_eq hsr hi, magOf_packF64_roundMag]

theorem unitsOf_seconds_mono (hij : i ≤ j) (hj : j < 2 ^ 53) : unitsOf (seconds i sr) ≤ unitsOf (seconds j sr) := by
  have hpos := unitsOf_rate_pos hsr
  rw [unitsOf_seconds hsr (hij.trans_lt hj), unitsOf_seconds hsr hj]
  refine unitsOfMag_strictMono.monotone (roundMag_mono hpos hpos ?_)
  exact Nat.mul_le_mul_right _ (Nat.mul_le_mul_right _ (unitsOf_f64OfNat_mono hij))

/-- The seconds are finite: the index is at most 2^64 and no rate is below 1. -/
theorem isFinite_seconds (hi : i < 2 ^ 53) : isFinite (seconds i sr) = true := by
  rw [seconds_eq hsr hi]
  refine (atMost_packF64_roundMag (m := 0x43F0000000000000) _ (by decide)
    (roundMag_le (unitsOf_rate_pos hsr) (by decide) ?_)).1
  rw [unitsOfMag_twoTo64]
  exact Nat.mul_le_mul (atMost_f64OfNat hi).2 (oneUnits_le_unitsOf_rate hsr)

theorem timestampReal_eq (hi : i < 2 ^ 53) :
    timestampReal i sr = packF64 false (roundMag (unitsOf (seconds i sr) * unitsOf million) oneUnits) := by
  have hmillion : isFinite million = true ∧ signOf million = false := by decide
  have hsign : signOf (seconds i sr) = false := by rw [seconds_eq hsr hi, signOf_packF64_roundMag]
  rw [timestampReal, ← seconds, fmul_of_finite (isFinite_seconds hsr hi) hmillion.1, hsign, hmillion.2,
    bne_self_eq_false]

theorem magOf_timestampReal (hi : i < 2 ^ 53) :
    magOf (timestampReal i sr) = roundMag (unitsOf (seconds i sr) * unitsOf million) oneUnits := by
  rw [timestampReal_eq hsr hi, magOf_packF64_roundMag]

theorem orderKey_timestampReal (hi : i < 2 ^ 53) : orderKey (timestampReal i sr) = magOf (timestampReal i sr) := by
  rw [orderKey_eq_withSign, timestampReal_eq hsr hi, signOf_packF64_roundMag, withSign_false]

/-- The real never falls as the index rises, as none of its roundings does. -/
theorem magOf_timestampReal_mono (hij : i ≤ j) (hj : j < 2 ^ 53) :
    magOf (timestampReal i sr) ≤ magOf (timestampReal j sr) := by
  rw [magOf_timestampReal hsr (hij.trans_lt hj), magOf_timestampReal hsr hj]
  refine roundMag_mono oneUnits_pos oneUnits_pos ?_
  exact Nat.mul_le_mul_right _ (Nat.mul_le_mul_right _ (unitsOf_seconds_mono hsr hij hj))

theorem magOf_timestampReal_zero : magOf (timestampReal 0 sr) = 0 := by
  have hi : 0 < 2 ^ 53 := by decide
  simp [magOf_timestampReal hsr hi, unitsOf_seconds hsr hi, unitsOf_f64OfNat_zero]

/-! ### Timestamps -/

/-- A timestamp fits its 64 bits where its real is below 2^64 (41_sample_downmixer.md R123). -/
theorem timestampOverflows_eq_false_iff (hi : i < 2 ^ 53) :
    timestampOverflows i sr = false ↔ magOf (timestampReal i sr) < magOf twoTo64 := by
  have hnan : isNaN (timestampReal i sr) = false := by
    rw [isNaN, magOf_timestampReal hsr hi]
    exact decide_eq_false (Nat.not_lt.2 (roundMag_le_infMag _ _))
  have hbound : orderKey twoTo64 = magOf twoTo64 := by decide
  rw [timestampOverflows, Bool.not_eq_false', flt_iff hnan (by decide), orderKey_timestampReal hsr hi, hbound,
    Nat.cast_lt]

/-- A timestamp that fits is the floor of its real. -/
theorem toNat_timestamp (hi : i < 2 ^ 53) (h : magOf (timestampReal i sr) < magOf twoTo64) :
    (timestamp i sr).toNat = unitsOf (timestampReal i sr) / oneUnits := by
  have hfin : isFinite (timestampReal i sr) = true := decide_eq_true (h.trans (by decide))
  have hkey : 0 ≤ orderKey (timestampReal i sr) := orderKey_timestampReal hsr hi ▸ Int.natCast_nonneg _
  have hlt : unitsOf (timestampReal i sr) < 2 ^ 64 * oneUnits := by
    rw [← unitsOfMag_twoTo64]
    exact unitsOfMag_strictMono h
  rw [timestamp, floorF64, if_pos (by simp [hfin, hkey]), BitVec.toNat_ofNat,
    Nat.mod_eq_of_lt (Nat.div_lt_of_lt_mul (Nat.mul_comm _ oneUnits ▸ hlt))]

end

/-- Settles O44: the floor of a real that starts at 0 and never falls. -/
theorem timestampsNeverFall : Obligations.TimestampsNeverFall := by
  intro sr hsr
  refine ⟨BitVec.eq_of_toNat_eq ?_, fun i j hij hj hfits => ?_⟩
  · have hzero := magOf_timestampReal_zero hsr
    have hbelow : magOf (timestampReal 0 sr) < magOf twoTo64 := by
      rw [hzero]
      decide
    rw [toNat_timestamp hsr (by decide) hbelow, (unitsOf_eq_zero _).2 hzero, Nat.zero_div]
    rfl
  · have hmono := magOf_timestampReal_mono hsr hij hj
    have hbelow := (timestampOverflows_eq_false_iff hsr hj).1 hfits
    rw [toNat_timestamp hsr (hij.trans_lt hj) (hmono.trans_lt hbelow), toNat_timestamp hsr hj hbelow]
    exact Nat.div_le_div_right (unitsOfMag_strictMono.monotone hmono)

/-- Settles O45: a timestamp is the floor of a binary64 value, so it is one itself. -/
theorem timestampsConvertExactly : Obligations.TimestampsConvertExactly := by
  intro i sr hsr hi hfits
  have hbelow := (timestampOverflows_eq_false_iff hsr hi).1 hfits
  obtain ⟨n, hn, hfloor⟩ := exists_unitsOfMag_eq_floor (magOf (timestampReal i sr))
  rw [← unitsOf, ← toNat_timestamp hsr hi hbelow] at hfloor
  have hninf : n ≤ infMag := hn.trans (hbelow.le.trans (by decide))
  rw [exactOf_eq_withSign, signOf_f64OfNat, withSign_false, unitsOf_f64OfNat_of_mag hninf hfloor, Nat.cast_mul]

end Sys2Proof.Machine
end

section
/-! PROOFS. The zero_crossing_detector unit (42_zero_crossing_detector.md): the sign and the size of offsets (R148), that
events and durations are finite, and what an accepted sample that emits nothing does (R147). -/

namespace Sys2Proof.Machine

/-! ### Signs -/

/-- A difference of rising values is negative, also where it is rounded or overflows. -/
theorem signOf_fsub_of_lt {a b : F64} (ha : isFinite a = true) (hb : isFinite b = true) (h : exactOf a < exactOf b) :
    signOf (fsub a b) = true := by
  obtain ⟨neg, he, hsum⟩ := addFor_of_finite .sub ha (b := negF64 b) (by rwa [isFinite_negF64])
  rw [fsub, he, signOf_packF64_roundMag]
  rw [exactOf_negF64] at hsum
  cases neg with
  | true => rfl
  | false =>
    rw [withSign_false] at hsum
    omega

/-- A quotient that is a number has the sign of the rule of signs, whatever the classes of its operands. -/
theorem signOf_fdiv {a b : F64} (h : isNaN (fdiv a b) = false) : signOf (fdiv a b) = (signOf a != signOf b) := by
  rw [fdiv] at h ⊢
  split_ifs at h ⊢
  · simp at h -- a NaN operand
  · simp at h -- infinity by infinity
  · exact signOf_infOf _ -- an infinity by a finite value
  · exact signOf_packF64 _ (by decide) -- a finite value by an infinity
  · simp at h -- zero by zero
  · exact signOf_infOf _ -- another finite value by zero
  · exact signOf_packF64_roundMag _ _ _ -- the rounded quotient

theorem signOf_of_exactOf_neg {x : F64} (h : exactOf x < 0) : signOf x = true := by
  rw [exactOf_eq_withSign] at h
  cases hs : signOf x with
  | true => rfl
  | false =>
    rw [hs, withSign_false] at h
    omega

/-! ### Offsets -/

/-- Settles O47: different amplitudes lie far enough apart. -/
theorem definedOffsetIsFinite : Obligations.DefinedOffsetIsFinite :=
  fun _ _ _ hp ha h => atMost_crossingOffset hp ha h

/-- Settles O46: the first amplitude and the difference are both negative, and the difference is the larger. -/
theorem qualifyingOffsetIsFromZeroToOne : Obligations.QualifyingOffsetIsFromZeroToOne := by
  intro p a hp ha hq
  obtain ⟨hneg, hnonneg⟩ := (qualifies_iff hp ha).1 hq
  have hlt := hneg.trans_le hnonneg
  have hzo := (crossingOffset_eq_some hp ha).2 ⟨hlt.ne, rfl⟩
  obtain ⟨hfin, hle⟩ := atMost_crossingOffset_of_qualifies hp ha hq hzo
  have hsign : signOf (fdiv p (fsub p a)) = false := by
    rw [signOf_fdiv (isNaN_of_isFinite hfin), signOf_of_exactOf_neg hneg, signOf_fsub_of_lt hp ha hlt, bne_self_eq_false]
  refine ⟨_, hzo, hfin, hsign, ?_⟩
  rw [exactOf_eq_withSign, hsign, withSign_false]
  exact_mod_cast hle

/-! ### Events and durations -/

theorem atMost_fmul {a b : F64} {r : Nat} (ha : isFinite a = true) (hb : isFinite b = true) (hr : r < infMag)
    (h : unitsOf a * unitsOf b ≤ unitsOfMag r * oneUnits) : AtMost (unitsOfMag r) (fmul a b) := by
  rw [fmul_of_finite ha hb]
  exact atMost_packF64_roundMag _ hr (roundMag_le oneUnits_pos hr.le h)

/-- A product of finite values may overflow, but it is a number. -/
theorem isNaN_fmul_of_finite {a b : F64} (ha : isFinite a = true) (hb : isFinite b = true) :
    isNaN (fmul a b) = false := by
  rw [fmul_of_finite ha hb, isNaN, magOf_packF64_roundMag, decide_eq_false_iff_not, Nat.not_lt]
  exact roundMag_le_infMag _ _

/-- The scale factor of a finite frequency is finite: neither of its operations enlarges a magnitude
(43_pulse_quantizer.md R161). -/
theorem isFinite_scaleFactor {freq : F64} (h : isFinite freq = true) : isFinite (scaleFactor freq) = true := by
  have hmag : magOf freq < infMag := of_decide_eq_true h
  have hmillionth : unitsOf millionth ≤ oneUnits :=
    unitsOfMag_one ▸ unitsOfMag_strictMono.monotone (by decide : magOf millionth ≤ 0x3FF0000000000000)
  have height : oneUnits ≤ unitsOf eight :=
    unitsOfMag_one ▸ unitsOfMag_strictMono.monotone (by decide : 0x3FF0000000000000 ≤ magOf eight)
  obtain ⟨hfin, hle⟩ : AtMost (unitsOfMag (magOf freq)) (fmul millionth freq) := by
    refine atMost_fmul (by decide) h hmag ?_
    rw [Nat.mul_comm, ← unitsOf]
    exact Nat.mul_le_mul_left _ hmillionth
  exact (atMost_fdiv hfin (by decide) (oneUnits_pos.trans_le height) hmag (Nat.mul_le_mul hle height)).1

/-- The duration between two Crossing Events is finite: events are far below the largest finite value
(43_pulse_quantizer.md R163). -/
theorem isFinite_duration {e l : F64} (he : AtMost ((2 ^ 64 + 2 ^ 53) * oneUnits) e)
    (hl : AtMost ((2 ^ 64 + 2 ^ 53) * oneUnits) l) : isFinite (fsub e l) = true := by
  refine (atMost_addFor .sub he (atMost_negF64 hl) (r := infMag - 1) (by decide) ?_).1
  rw [oneUnits_eq]
  decide +kernel

section
variable {s : State} (hs : s.Inv)
include hs

theorem State.Inv.lastev_atMost {l : F64} (h : s.lastev = some l) : AtMost ((2 ^ 64 + 2 ^ 53) * oneUnits) l :=
  hs.crossOut_finite l (List.mem_of_getLast? (hs.lastev_eq ▸ h))

/-- An event that a command emits is bounded, as the invariant of the state it leaves says. -/
theorem State.Inv.emitted_atMost {i : Instr} {t : State} {e : F64} (h : exec i s = .next t)
    (hout : t.crossOut = s.crossOut ++ [e]) : AtMost ((2 ^ 64 + 2 ^ 53) * oneUnits) e :=
  (hs.performs (performs_of_exec h)).crossOut_finite e (by simp [hout])

end

/-- Settles O54: the bounds of the invariant, before and after the command, bound the duration. -/
theorem offsetsEventsAndDurationsAreFinite : Obligations.OffsetsEventsAndDurationsAreFinite := by
  intro s hs
  have hscale := isFinite_scaleFactor hs.cpuFreq_legal.1
  refine ⟨fun l hl => (hs.lastzo_finite l hl).1, fun e he => (hs.lastev_atMost he).1,
    fun e he => (hs.crossOut_finite e he).1, hscale, fun i t e hexec hout => ?_⟩
  have hevent := hs.emitted_atMost hexec hout
  refine ⟨hevent.1, fun l hl => ?_⟩
  have hduration := isFinite_duration hevent (hs.lastev_atMost hl)
  exact ⟨hduration, isNaN_fmul_of_finite hduration hscale⟩

/-! ### A sample that is accepted -/

/-- The command of a carried sample is that of a row of the configured arity with finite values (44_sample_ops.md R182,
R183). -/
theorem CarriesSample.exists_row {i : Instr} {a : F64} {s : State} (h : CarriesSample i a s) (ha : isFinite a = true) :
    ∃ row, i = sampleCommand row ∧ a = downmix row ∧ s.channels = arityOf row ∧ rowIsFinite row = true := by
  rcases h with ⟨rfl, hch⟩ | ⟨a0, a1, rfl, hch, h0, h1, rfl⟩
  · exact ⟨.mono a, rfl, rfl, hch, ha⟩
  · exact ⟨.stereo a0 a1, rfl, rfl, hch, Bool.and_eq_true_iff.2 ⟨h0, h1⟩⟩

/-- A sample that is admitted has its effect (44_sample_ops.md R180, R181). -/
theorem AcceptsSample.exec_eq {i : Instr} {a : F64} {s : State} (h : AcceptsSample i a s) :
    exec i s = .next (sampleStep a (timestamp s.sampleCount.toNat s.sampleRate) s) := by
  have hconfigured := h.channels_ne_zero
  obtain ⟨hrun, hrate, hcarries, hfin, hcount, htime⟩ := h
  obtain ⟨row, rfl, rfl, harity, hrow⟩ := hcarries.exists_row hfin
  have hopen : s.runState ≠ .faulted ∧ s.runState ≠ .ended := by rcases hrun with hrun | hrun <;> simp [hrun]
  have hpass : ∀ c ∈ sampleChecks row s, c.1 = false := by
    simp only [sampleChecks, List.forall_mem_cons, decide_eq_false_iff_not, not_or, not_not, Bool.not_eq_false',
      timestampOverflows, timestampReal]
    exact ⟨hopen.2, ⟨hrate, hconfigured⟩, harity, hrow, hfin, Nat.not_le.2 hcount, htime, List.forall_mem_nil _⟩
  have hexec : exec (sampleCommand row) s = .next (performSample row s) := by cases row <;> rfl
  rw [hexec, performSample, unlessFaulted_checked_of_pass hopen.1 hpass]

/-! ### A sample without an event -/

/-- A pair emits nothing where it does not go from below zero to zero or above, or no offset is held
(42_zero_crossing_detector.md R143, R146). -/
theorem detectEvent_eq_none {a p : F64} {t : Word64} {s : State} (hp : s.prev = some p)
    (h : flt p posZero = false ∨ fge a posZero = false ∨ s.lastzo = none) : detectEvent a t s = none := by
  refine Option.eq_none_iff_forall_ne_some.2 fun e he => ?_
  obtain ⟨q, hq, he⟩ := detectEvent_eq_some.1 he
  obtain ⟨hqual, _, l, -, hl, -⟩ := crossingEvent_eq_some.1 he
  obtain rfl : p = q := Option.some.inj (hp.symm.trans hq)
  obtain ⟨hlt, hge⟩ := Bool.and_eq_true_iff.1 hqual
  simp [hlt, hge, hl] at h

/-- The held offset is the pair's quotient, or the older one where the amplitudes are equal
(42_zero_crossing_detector.md R142, R147). -/
theorem heldOffset_eq_ite (p a : F64) (lastzo : Option F64) :
    heldOffset p a lastzo = if feq p a = true then lastzo else some (fdiv p (fsub p a)) := by
  rw [heldOffset_eq_or, crossingOffset]
  split <;> simp

/-- Settles O34: the sample is a scan alone, and the scan's offset is the held one. -/
theorem sampleWithoutEventUpdatesTheScan : Obligations.SampleWithoutEventUpdatesTheScan := by
  intro i a p s h hp hnone
  rw [h.exec_eq, sampleStep_eq, detectEvent_eq_none hp hnone, emitEvent, scanned, detectWrite_lastzo_some hp,
    heldOffset_eq_ite]

end Sys2Proof.Machine
end

section
/-! PROOFS. The pulse_quantizer unit (43_pulse_quantizer.md): the byte of a scaled duration (R162), and the crossing sample
that emits an event and its byte (R163). -/

namespace Sys2Proof.Machine

/-! ### The byte of a duration -/

theorem quantize_of_above {freq d : F64} (h : fgt (fmul d (scaleFactor freq)) maxScaled = true) : quantize freq d = 0 :=
  if_pos h

/-- The test for 255 comes first, but it answers the same 0 (90_conflicts.md C5). -/
theorem quantize_of_below {freq d : F64} (h : flt (fmul d (scaleFactor freq)) posZero = true) : quantize freq d = 0 := by
  rw [quantize, if_pos h, ite_self]

theorem quantize_of_inRange {freq d : F64} (hhi : fgt (fmul d (scaleFactor freq)) maxScaled = false)
    (hlo : flt (fmul d (scaleFactor freq)) posZero = false) :
    quantize freq d = BitVec.ofNat 8 (floorF64 (fmul d (scaleFactor freq))) := by
  rw [quantize, if_neg (Bool.eq_false_iff.1 hhi), if_neg (Bool.eq_false_iff.1 hlo)]

theorem unitsOf_maxScaled : unitsOf maxScaled = 255 * oneUnits := by
  rw [oneUnits_eq]
  decide +kernel

/-- A number that is neither above 255 nor below 0 is finite, and its floor is its whole part, which a byte holds
(43_pulse_quantizer.md R162). -/
theorem floorF64_of_inRange {x : F64} (hnan : isNaN x = false) (hhi : fgt x maxScaled = false)
    (hlo : flt x posZero = false) : floorF64 x = unitsOf x / oneUnits ∧ unitsOf x / oneUnits ≤ 255 := by
  have hkey : 0 ≤ orderKey x := by
    rw [Bool.eq_false_iff, ne_eq, flt_iff hnan (by decide), not_lt] at hlo
    exact hlo
  have hmag : magOf x ≤ magOf maxScaled := by
    have hmax : orderKey maxScaled = magOf maxScaled := by decide
    have hx : orderKey x = magOf x := by rw [← abs_of_nonneg hkey, orderKey_eq_withSign, abs_withSign]
    rw [Bool.eq_false_iff, ne_eq, fgt_iff hnan (by decide), not_lt, hmax, hx] at hhi
    exact_mod_cast hhi
  have hfin : isFinite x = true := decide_eq_true (hmag.trans_lt (by decide))
  have hunits : unitsOf x ≤ 255 * oneUnits := unitsOf_maxScaled ▸ unitsOfMag_strictMono.monotone hmag
  exact ⟨if_pos (by simp [hfin, hkey]), Nat.div_le_of_le_mul (Nat.mul_comm _ oneUnits ▸ hunits)⟩

/-- Settles O36: a product of finite values is a number, and in range its whole part is at most 255. -/
theorem pulseByteIsTheTruncatedDuration : Obligations.PulseByteIsTheTruncatedDuration := by
  intro freq d hfreq _ hd
  have hnan := isNaN_fmul_of_finite hd (isFinite_scaleFactor hfreq)
  refine ⟨hnan, quantize_of_above, quantize_of_below, fun hhi hlo => ?_⟩
  obtain ⟨hfloor, hbyte⟩ := floorF64_of_inRange hnan hhi hlo
  have htoNat : (quantize freq d).toNat = unitsOf (fmul d (scaleFactor freq)) / oneUnits := by
    rw [quantize_of_inRange hhi hlo, hfloor, BitVec.toNat_ofNat, Nat.mod_eq_of_lt (Nat.lt_succ_of_le hbyte)]
  exact ⟨htoNat.trans hfloor.symm, htoNat.symm⟩

/-! ### A crossing sample -/

/-- A qualifying pair has an offset of its own: its amplitudes stand on different sides of the test at zero
(42_zero_crossing_detector.md R148). -/
theorem crossingOffset_of_qualifies {p a : F64} (h : qualifies p a = true) :
    crossingOffset p a = some (fdiv p (fsub p a)) := by
  obtain ⟨hlt, hge⟩ := Bool.and_eq_true_iff.1 h
  simp only [flt, fge, Bool.and_eq_true, decide_eq_true_eq] at hlt hge
  have hne : orderKey p ≠ orderKey a := (hlt.2.trans_le hge.2).ne
  exact if_neg (by simp [feq, hne])

/-- A qualifying pair that finds an offset held emits its candidate (42_zero_crossing_detector.md R145, R146). -/
theorem detectEvent_of_qualifies {a p l : F64} {t : Word64} {s : State} (hp : s.prev = some p) (hl : s.lastzo = some l)
    (h : qualifies p a = true) : detectEvent a t s = some (candidate t (fdiv p (fsub p a)) l) :=
  detectEvent_eq_some.2 ⟨p, hp, crossingEvent_eq_some.2 ⟨h, _, l, crossingOffset_of_qualifies h, hl, rfl⟩⟩

theorem heldOffset_of_qualifies {p a : F64} (lastzo : Option F64) (h : qualifies p a = true) :
    heldOffset p a lastzo = some (fdiv p (fsub p a)) := by
  rw [heldOffset_eq_or, crossingOffset_of_qualifies h, Option.some_or]

/-- Settles O35: the sample is a scan, which holds the pair's own offset, and then an event whose byte reads the old
LASTEV. With the event named, `emitEvent` and `pulseByte` are the statement's fields as they stand. -/
theorem crossingSampleEmitsEventAndPulse : Obligations.CrossingSampleEmitsEventAndPulse := by
  intro i a p l s h hp hl hneg hnonneg t zo e scaled byte
  have hq : qualifies p a = true := Bool.and_eq_true_iff.2 ⟨hneg, hnonneg⟩
  have he : candidate (timestamp s.sampleCount.toNat s.sampleRate) (fdiv p (fsub p a)) l = e := by
    rw [candidate, timestamp, BitVec.toNat_ofNat, timestampReal]
  rw [h.exec_eq, sampleStep_eq, detectEvent_of_qualifies hp hl hq, scanned, detectWrite_lastzo_some hp,
    heldOffset_of_qualifies _ hq, he]
  clear_value e
  rfl

end Sys2Proof.Machine
end

section
/-! PROOFS. The sample commands (44_sample_ops.md): which check a refused sample reports (R180), what an accepted one emits
(R184) and loads (R181), and the batch pipeline of R185, which the streaming machine computes sample by sample (R186). -/

namespace Sys2Proof.Machine

/-! ### Admission -/

theorem exec_sampleCommand (row : SampleRow) (s : State) : exec (sampleCommand row) s = .next (performSample row s) := by
  cases row <;> rfl

/-- A sample command outside FAULTED raises the cause of its first failing check (44_sample_ops.md R180). -/
theorem exec_sampleCommand_of_fail {row : SampleRow} {s : State} {c : Cause} (hs : s.runState ≠ .faulted)
    (hfail : firstFailing (sampleChecks row s) = some c) :
    exec (sampleCommand row) s = .next { s with runState := .faulted, cause := c } := by
  rw [exec_sampleCommand, performSample, unlessFaulted_checked_of_fail hs hfail, raiseFault]

/-- The checks of `SampleAdmit` as the conditions they test, in their order (44_sample_ops.md R180). -/
theorem firstFailing_sampleChecks (row : SampleRow) (s : State) : firstFailing (sampleChecks row s) =
    if s.runState = .ended then some .afterEnd
    else if s.sampleRate = 0 ∨ s.channels = 0 then some .notConfigured
    else if s.channels ≠ arityOf row then some .arityMismatch
    else if rowIsFinite row = false then some .nonfiniteSample
    else if isFinite (downmix row) = false then some .nonfiniteSample
    else if Config.maxSamples ≤ s.sampleCount.toNat then some .indexOverflow
    else if flt (timestampReal s.sampleCount.toNat s.sampleRate) twoTo64 = false then some .timestampOverflow
    else none := by
  simp only [sampleChecks, firstFailing, decide_eq_true_eq, Bool.not_eq_true', timestampOverflows]

/-- Settles O29: the conditions of the statement are those of the checks, in the same order. -/
theorem sampleReportsItsFirstFailingCheck : Obligations.SampleReportsItsFirstFailingCheck := by
  intro row s hs faults x
  have h := firstFailing_sampleChecks row s
  rw [Config.maxSamples, show timestampReal s.sampleCount.toNat s.sampleRate = x from rfl] at h
  split_ifs at h ⊢
  case neg => exact acceptsSample_of_checks hs (firstFailing_eq_none.1 h)
  all_goals exact exec_sampleCommand_of_fail hs h

/-! ### What a sample emits -/

/-- Settles O32: the streams, the counts and LASTEV are written by an accepted sample alone. -/
theorem eventAndPulseComeTogether : Obligations.EventAndPulseComeTogether := by
  intro i s t h hreset
  have hp := performs_of_exec h
  clear h
  cases hp with
  | reset => exact absurd rfl hreset
  | ignored | faulted | setRate | setChannels | setCpufreq | endStream | readReg =>
    exact .inl ⟨rfl, rfl, rfl, rfl, rfl⟩
  | @sample _ a ha =>
    rcases sampleStep_cases a (timestamp s.sampleCount.toNat s.sampleRate) s with ⟨-, he⟩ | ⟨e, -, he⟩
    · rw [he]
      exact .inl ⟨rfl, rfl, rfl, rfl, rfl⟩
    · rw [he]
      exact .inr ⟨ha.isSampleCommand, e, _, rfl, rfl, rfl, rfl, rfl⟩

/-- With no amplitude held there is no pair (42_zero_crossing_detector.md R147). -/
theorem detectEvent_of_prev_none {a : F64} {t : Word64} {s : State} (hp : s.prev = none) : detectEvent a t s = none := by
  rw [detectEvent, hp]

/-- Settles O33: with no pair the sample is a scan alone, which leaves LASTZO as it was. -/
theorem firstSampleLoadsPrev : Obligations.FirstSampleLoadsPrev := by
  intro i a s h hp
  rw [h.exec_eq, sampleStep_eq, detectEvent_of_prev_none hp, emitEvent, scanned, detectWrite_lastzo_none hp]

/-- What an accepted sample leaves in STATE, SAMPLE_COUNT, the scan's registers and CROSS_OUT (44_sample_ops.md R181). -/
theorem sampleStep_carried (a : F64) (t : Word64) (s : State) :
    (sampleStep a t s).runState = .running ∧ (sampleStep a t s).sampleCount = s.sampleCount + 1 ∧
      (sampleStep a t s).prev = some a ∧ (sampleStep a t s).lastzo = (detectWrite a s).lastzo ∧
      (sampleStep a t s).crossOut = s.crossOut ++ (detectEvent a t s).toList := by
  rcases sampleStep_cases a t s with ⟨hev, he⟩ | ⟨e, hev, he⟩ <;> simp [he, hev]

/-! ### The batch definition, pair by pair -/

/-- The amplitude before the sample of index `k`, which its pair begins with; none for the first sample. -/
def amplitudeBefore (tr : MonoTrace) : Nat → Option F64
  | 0 => none
  | j + 1 => (tr[j]?).map Prod.snd

theorem pairHeld_succ (tr : MonoTrace) (k : Nat) : pairHeld tr (k + 1) = (pairOffset tr k).or (pairHeld tr k) := by
  cases h : pairOffset tr k <;> simp [pairHeld, h]

section
variable {tr : MonoTrace} {k : Nat} {t : Word64} {a : F64} (hk : tr[k]? = some (t, a))
include hk

theorem pairOffset_eq_bind : pairOffset tr k = (amplitudeBefore tr k).bind (crossingOffset · a) := by
  cases k with
  | zero => rfl
  | succ j => cases hj : tr[j]? <;> simp [pairOffset, amplitudeBefore, hj, hk]

theorem pairEvent_eq_bind :
    pairEvent tr k = (amplitudeBefore tr k).bind (crossingEvent · a t (pairHeld tr k)) := by
  cases k with
  | zero => rfl
  | succ j =>
    cases hj : tr[j]? with
    | none => simp [pairEvent, pairQualifies, amplitudeBefore, hj]
    | some p =>
      simp only [pairEvent, pairQualifies, pairOffset, crossingEvent, amplitudeBefore, hj, hk, Option.map_some,
        Option.bind_some]
      cases qualifies p.2 a <;> cases crossingOffset p.2 a <;> cases pairHeld tr (j + 1) <;> rfl

variable {s : State} (hprev : s.prev = amplitudeBefore tr k) (hheld : s.lastzo = pairHeld tr k)
include hprev hheld

/-- The detector gives the event of the batch definition's pair (42_zero_crossing_detector.md R146, R147). -/
theorem detectEvent_eq_pairEvent : detectEvent a t s = pairEvent tr k := by
  rw [pairEvent_eq_bind hk, ← hprev, ← hheld]
  cases h : s.prev <;> simp [detectEvent, h]

/-- The detector holds the offset that the batch definition holds for the next pair (42_zero_crossing_detector.md R144,
R147). -/
theorem detectWrite_lastzo_eq_pairHeld : (detectWrite a s).lastzo = pairHeld tr (k + 1) := by
  rw [pairHeld_succ, pairOffset_eq_bind hk, ← hprev, ← hheld]
  cases h : s.prev with
  | none => rw [detectWrite_lastzo_none h, Option.bind_none, Option.none_or]
  | some p => rw [detectWrite_lastzo_some h, heldOffset_eq_or, Option.bind_some]

end

/-- One more index gives the element it has, or none. -/
theorem filterMap_range_succ {α : Type} (f : Nat → Option α) (k : Nat) :
    (List.range (k + 1)).filterMap f = (List.range k).filterMap f ++ (f k).toList := by
  rw [List.range_succ, List.filterMap_append]
  cases h : f k <;> simp [h]

/-! ### The sample matrix -/

theorem length_monoTrace (rows : List SampleRow) (sr : Word32) : (monoTrace rows sr).length = rows.length := by
  simp [monoTrace]

theorem getElem?_monoTrace (rows : List SampleRow) (sr : Word32) (k : Nat) :
    (monoTrace rows sr)[k]? = (rows[k]?).map fun row => (timestamp k sr, downmix row) := by
  simp [monoTrace, List.getElem?_zipIdx, Function.comp_def]

theorem pipelineDefined_iff (rows : List SampleRow) (ch : Byte) (sr : Word32) : pipelineDefined rows ch sr = true ↔
    (ch = 1 ∨ ch = 2) ∧ sr ≠ 0 ∧
      (∀ row ∈ rows, arityOf row = ch ∧ rowIsFinite row = true ∧ isFinite (downmix row) = true) ∧
      rows.length ≤ 2 ^ 53 ∧ ∀ i < rows.length, timestampOverflows i sr = false := by
  simp only [pipelineDefined, Bool.and_eq_true, decide_eq_true_eq, List.all_eq_true, List.mem_range,
    Bool.not_eq_true', and_assoc]
  rfl

/-! ### The streaming machine, sample by sample -/

/-- What the block holds once it is configured and has accepted the first `k` samples of a matrix (44_sample_ops.md R186):
the batch definition's values, and the streams and counts that the invariant ties to them. -/
structure HoldsPrefix (rows : List SampleRow) (ch : Byte) (sr : Word32) (freq : F64) (k : Nat) (s : State) : Prop where
  inv : s.Inv
  accepting : s.runState = .idle ∨ s.runState = .running
  sampleRate_eq : s.sampleRate = sr
  channels_eq : s.channels = ch
  cpuFreq_eq : s.cpuFreq = freq
  sampleCount_eq : s.sampleCount.toNat = k
  prev_eq : s.prev = amplitudeBefore (monoTrace rows sr) k
  lastzo_eq : s.lastzo = pairHeld (monoTrace rows sr) k
  crossOut_eq : s.crossOut = (List.range k).filterMap (pairEvent (monoTrace rows sr))
  respOut_eq : s.respOut = []

/-- A list of commands begins with its first (20_memory.md R51). -/
theorem execAll_cons_of_next {i : Instr} {s t : State} (h : exec i s = .next t) (is : List Instr) :
    execAll (i :: is) s = execAll is t := by
  rw [execAll, h]

theorem execAll_singleton_of_next {i : Instr} {s t : State} (h : exec i s = .next t) : execAll [i] s = .next t :=
  execAll_cons_of_next h []

/-- Commands after a list that completes are performed in the state it leaves. -/
theorem execAll_append_of_next {is : List Instr} {s t : State} (h : execAll is s = .next t) (js : List Instr) :
    execAll (is ++ js) s = execAll js t := by
  induction is generalizing s with
  | nil => rw [List.nil_append, Host.Outcome.next.inj h]
  | cons i is ih =>
    obtain ⟨u, hu, -⟩ := exec_presenting i s
    rw [execAll_cons_of_next hu] at h
    rw [List.cons_append, execAll_cons_of_next hu, ih h]

/-- The commands that precede the samples of a stream (44_sample_ops.md R186). -/
def configCommands (ch : Byte) (sr : Word32) (freq : Option F64) : List Instr :=
  [.reset, .setChannels ch, .setRate sr] ++ (freq.map Instr.setCpufreq).toList

section
variable {rows : List SampleRow} {ch : Byte} {sr : Word32}

/-- Reset and configuration leave a block that has accepted nothing (10_state.md R35; 40_control_ops.md R102 to R104). -/
theorem exists_holdsPrefix_zero (rows : List SampleRow) {freq : Option F64} (s : State) (hch : ch = 1 ∨ ch = 2)
    (hsr : sr ≠ 0) (hfreq : ∀ f, freq = some f → isFinite f = true ∧ fgt f posZero = true) :
    ∃ t, execAll (configCommands ch sr freq) s = .next t ∧
      HoldsPrefix rows ch sr (freq.getD Config.cpuFreqDefault) 0 t := by
  let c : State := { performReset s with channels := ch, sampleRate := sr }
  have hidle : c.runState = .idle := rfl
  have hinv : c.Inv := ((inv_performReset s).setChannels rfl hch).setRate rfl
  have hrun : execAll [.reset, .setChannels ch, .setRate sr] s = .next c := by
    have hreset : exec .reset s = .next (performReset s) := rfl
    rw [execAll_cons_of_next hreset, execAll_cons_of_next (exec_setChannels_of_idle rfl hch)]
    exact execAll_singleton_of_next (exec_setRate_of_idle rfl hsr)
  rw [configCommands, execAll_append_of_next hrun]
  cases freq with
  | none => exact ⟨c, rfl, hinv, .inl rfl, rfl, rfl, rfl, rfl, rfl, rfl, rfl, rfl⟩
  | some f =>
    obtain ⟨hfin, hpos⟩ := hfreq f rfl
    exact ⟨{ c with cpuFreq := f }, execAll_singleton_of_next (exec_setCpufreq_of_idle hidle hfin hpos),
      hinv.setCpufreq hidle hfin hpos, .inl rfl, rfl, rfl, rfl, rfl, rfl, rfl, rfl, rfl⟩

variable {freq : F64} {k : Nat} {s : State}

/-- The next row of a matrix for which the pipeline is defined is admitted (44_sample_ops.md R180, R185). -/
theorem HoldsPrefix.acceptsSample {row : SampleRow} (hs : HoldsPrefix rows ch sr freq k s)
    (hdef : pipelineDefined rows ch sr = true) (hrow : rows[k]? = some row) :
    AcceptsSample (sampleCommand row) (downmix row) s := by
  obtain ⟨-, hsr, hrows, hlen, htime⟩ := (pipelineDefined_iff rows ch sr).1 hdef
  obtain ⟨hk, -⟩ := List.getElem?_eq_some_iff.1 hrow
  obtain ⟨harity, hfin, hmean⟩ := hrows row (List.mem_of_getElem? hrow)
  have hfits := htime k hk
  rw [timestampOverflows, Bool.not_eq_false', timestampReal, ← hs.sampleCount_eq, ← hs.sampleRate_eq] at hfits
  exact ⟨hs.accepting, hs.sampleRate_eq ▸ hsr, carriesSample_sampleCommand (hs.channels_eq.trans harity.symm) hfin, hmean,
    hs.sampleCount_eq ▸ hk.trans_le hlen, hfits⟩

/-- One more sample gives the values of one more pair (44_sample_ops.md R186). -/
theorem HoldsPrefix.exists_succ {row : SampleRow} (hs : HoldsPrefix rows ch sr freq k s)
    (hdef : pipelineDefined rows ch sr = true) (hrow : rows[k]? = some row) :
    ∃ t, exec (sampleCommand row) s = .next t ∧ HoldsPrefix rows ch sr freq (k + 1) t := by
  have haccepts := hs.acceptsSample hdef hrow
  have hentry : (monoTrace rows sr)[k]? = some (timestamp k sr, downmix row) := by
    rw [getElem?_monoTrace, hrow, Option.map_some]
  have htime : timestamp s.sampleCount.toNat s.sampleRate = timestamp k sr := by
    rw [hs.sampleCount_eq, hs.sampleRate_eq]
  refine ⟨_, htime ▸ haccepts.exec_eq, ?_⟩
  obtain ⟨hrate, hfreq, hch⟩ := sampleStep_configuration (downmix row) (timestamp k sr) s
  obtain ⟨hrun, hcount, hprev, hheld, hcross⟩ := sampleStep_carried (downmix row) (timestamp k sr) s
  obtain ⟨-, -, hresp⟩ := sampleStep_streams (downmix row) (timestamp k sr) s
  obtain ⟨-, -, -, -, hlt, -⟩ := haccepts
  exact
    { inv := hs.inv.sampleStep _ (hs.acceptsSample hdef hrow)
      accepting := .inr hrun
      sampleRate_eq := hrate.trans hs.sampleRate_eq
      channels_eq := hch.trans hs.channels_eq
      cpuFreq_eq := hfreq.trans hs.cpuFreq_eq
      sampleCount_eq := by rw [hcount, toNat_succ_of_lt hlt, hs.sampleCount_eq]
      prev_eq := by rw [hprev, amplitudeBefore, hentry, Option.map_some]
      lastzo_eq := hheld.trans (detectWrite_lastzo_eq_pairHeld hentry hs.prev_eq hs.lastzo_eq)
      crossOut_eq := by
        rw [hcross, detectEvent_eq_pairEvent hentry hs.prev_eq hs.lastzo_eq, hs.crossOut_eq, filterMap_range_succ]
      respOut_eq := hresp.trans hs.respOut_eq }

/-- The samples before index `k`, performed in order, give the values of the pairs before index `k`. -/
theorem HoldsPrefix.exists_of_zero (hs : HoldsPrefix rows ch sr freq 0 s) (hdef : pipelineDefined rows ch sr = true)
    (hk : k ≤ rows.length) :
    ∃ t, execAll ((rows.take k).map sampleCommand) s = .next t ∧ HoldsPrefix rows ch sr freq k t := by
  induction k with
  | zero => exact ⟨s, rfl, hs⟩
  | succ k ih =>
    obtain ⟨t, hrun, ht⟩ := ih (Nat.le_of_succ_le hk)
    have hrow : rows[k]? = some rows[k] := List.getElem?_eq_getElem hk
    obtain ⟨u, hexec, hu⟩ := ht.exists_succ hdef hrow
    refine ⟨u, ?_, hu⟩
    rw [List.take_add_one, hrow, Option.toList_some, List.map_append, execAll_append_of_next hrun]
    exact execAll_singleton_of_next hexec

/-- A stream cut off before the sample of index `k`, from any state. -/
theorem exists_holdsPrefix {freq : Option F64} (s : State) (hdef : pipelineDefined rows ch sr = true)
    (hfreq : ∀ f, freq = some f → isFinite f = true ∧ fgt f posZero = true) (hk : k ≤ rows.length) :
    ∃ t, execAll (configCommands ch sr freq ++ (rows.take k).map sampleCommand) s = .next t ∧
      HoldsPrefix rows ch sr (freq.getD Config.cpuFreqDefault) k t := by
  obtain ⟨hch, hsr, -⟩ := (pipelineDefined_iff rows ch sr).1 hdef
  obtain ⟨c, hconfig, hc⟩ := exists_holdsPrefix_zero rows s hch hsr hfreq
  obtain ⟨t, hrun, ht⟩ := hc.exists_of_zero hdef hk
  exact ⟨t, (execAll_append_of_next hconfig _).trans hrun, ht⟩

theorem HoldsPrefix.running (hs : HoldsPrefix rows ch sr freq (k + 1) s) : s.runState = .running := by
  refine hs.accepting.resolve_left fun hidle => ?_
  have hcount := hs.sampleCount_eq
  rw [hs.inv.idle_unsampled hidle] at hcount
  exact absurd hcount.symm (Nat.succ_ne_zero k)

theorem HoldsPrefix.pulseOut_eq (hs : HoldsPrefix rows ch sr freq k s) : s.pulseOut = pulseBytes freq s.crossOut :=
  hs.cpuFreq_eq ▸ hs.inv.pulses_eq

end

/-- Settles O39: the values held after the sample of index `k`, with PULSE_OUT and LASTEV as the invariant of the state
has them. -/
theorem streamPrefixHoldsTheReferenceValues : Obligations.StreamPrefixHoldsTheReferenceValues := by
  intro rows ch sr freq s k hdef hfreq hk
  obtain ⟨t, hrun, ht⟩ := exists_holdsPrefix s hdef hfreq (Nat.succ_le_of_lt hk)
  exact ⟨t, hrun, ht.running, ht.sampleCount_eq, ht.prev_eq, ht.lastzo_eq, ht.crossOut_eq, ht.pulseOut_eq,
    ht.inv.lastev_eq⟩

/-- END closes a stream that accepts samples and whose bytes fill no more than the length field (40_control_ops.md
R105). -/
theorem exec_endStream_of_accepting {s : State} (hs : s.runState = .idle ∨ s.runState = .running)
    (hlen : s.pulseCount.toNat ≤ 2 ^ 32 - 1) : exec .endStream s = .next { s with runState := .ended } := by
  have hopen : s.runState ≠ .faulted ∧ s.runState ≠ .ended := by rcases hs with hs | hs <;> simp [hs]
  have hpass : s.pulseCount.toNat ≤ Config.maxPulses := hlen
  exact congrArg Host.Outcome.next (unlessFaulted_checked_of_pass hopen.1 (by simpa [hopen.2] using hpass))

/-- Settles O40: the values held after the last sample are the whole pipeline's, and END writes STATE alone. -/
theorem streamComputesTheReferencePipeline : Obligations.StreamComputesTheReferencePipeline := by
  intro rows ch sr freq s hdef hfreq hlen
  obtain ⟨t, hrun, ht⟩ := exists_holdsPrefix s hdef hfreq le_rfl
  rw [List.take_length] at hrun
  have hcross : t.crossOut = crossingEvents (monoTrace rows sr) := by
    rw [ht.crossOut_eq, crossingEvents, length_monoTrace]
  have hpulse := ht.pulseOut_eq
  rw [hcross] at hpulse
  have hcount : t.crossCount.toNat = (crossingEvents (monoTrace rows sr)).length := by rw [ht.inv.crossCount_eq, hcross]
  have hfits : t.pulseCount.toNat ≤ 2 ^ 32 - 1 := by
    rw [ht.inv.pulseCount_eq, hpulse]
    exact hlen
  refine ⟨{ t with runState := .ended }, ?_, rfl, hcross, hpulse, ht.sampleCount_eq, hcount, ?_, ht.respOut_eq⟩
  · rw [streamCommands, ← configCommands, execAll_append_of_next hrun]
    exact execAll_singleton_of_next (exec_endStream_of_accepting ht.accepting hfits)
  · exact ht.inv.pulse_eq_cross ▸ hcount

end Sys2Proof.Machine
end

section
/-! PROOFS. Faults and STATUS.STATE (60_exceptions.md): what FAULTED lets through (R205), what a fault writes (R203, R204),
and the transitions of STATE (R209). -/

namespace Sys2Proof.Machine

/-! ### READ_REG by its index -/

/-- The assigned indices are 0 to 6 (10_state.md R34). -/
theorem exists_eq_indexOf {idx : Byte} (h : idx ≤ 6) : ∃ r, idx = indexOf r := by
  cases hr : registerOf idx with
  | some r => exact ⟨r, (indexOf_of_registerOf hr).symm⟩
  | none =>
    have hle : idx.toNat ≤ 6 := h
    rw [registerOf] at hr
    generalize idx.toNat = n at hle hr
    interval_cases n <;> nomatch hr

theorem exists_exec_readReg_of_assigned {idx : Byte} (s : State) (h : idx ≤ 6) :
    ∃ v, exec (.readReg idx) s = .next (emitResp v s) := by
  obtain ⟨r, hr⟩ := exists_eq_indexOf h
  exact ⟨readRegister r s, exec_readReg_of_eq_indexOf r s hr⟩

/-- Where a fault is raised or ignored, the block is in FAULTED afterwards (40_control_ops.md R106, R107). -/
theorem unlessFaulted_raiseFault_runState (c : Cause) (s : State) :
    (unlessFaulted (raiseFault c) s).runState = .faulted := by
  by_cases hs : s.runState = .faulted
  · rw [unlessFaulted_of_faulted hs, hs]
  · rw [unlessFaulted_of_not hs, raiseFault_runState]

/-! ### In FAULTED -/

/-- Settles O25: RESET and READ_REG by their own rules, every other command by R100. -/
theorem faultedIgnoresAllButResetAndReads : Obligations.FaultedIgnoresAllButResetAndReads := by
  intro i s hs
  refine ⟨?_, ?_, fun hreset hunassigned => ?_⟩
  · rintro rfl
    rfl
  · rintro idx rfl hidx
    exact exists_exec_readReg_of_assigned s hidx
  · by_cases hread : ∃ idx, i = .readReg idx
    · obtain ⟨idx, rfl⟩ := hread
      rw [exec_readReg_of_unassigned s (hunassigned idx rfl), unlessFaulted_of_faulted hs]
    · exact exec_of_faulted hs hreset (not_exists.1 hread)

/-- In FAULTED a command other than RESET writes nothing but RESP_OUT (60_exceptions.md R205). -/
theorem exists_respOut_of_exec_faulted {i : Instr} {s t : State} (h : exec i s = .next t) (hs : s.runState = .faulted)
    (hreset : i ≠ .reset) : ∃ out, t = { s with respOut := out } := by
  have hp := performs_of_exec h
  clear h
  cases hp with
  | reset => exact absurd rfl hreset
  | ignored => exact ⟨s.respOut, rfl⟩
  | faulted _ hf _ => exact absurd hs hf
  | setRate hidle | setChannels hidle | setCpufreq hidle => simp [hs] at hidle
  | sample ha => simp [hs, AcceptsSample] at ha
  | endStream hopen => simp [hs] at hopen
  | readReg => exact ⟨_, rfl⟩

/-- Settles O27: what CMD_IN has next is nothing, a command, or an `Invalid` verdict, which FAULTED ignores. -/
theorem firstCauseSticksUntilReset : Obligations.FirstCauseSticksUntilReset := by
  intro s t hs h hreset
  cases hd : decodeNext s.cmdIn with
  | none =>
    rw [step, hd] at h
    obtain rfl := Host.Outcome.next.inj h
    exact ⟨hs, rfl, rfl, rfl⟩
  | some d =>
    cases d with
    | command i rest =>
      rw [step_of_command hd] at h
      have hi : i ≠ .reset := by
        rintro rfl
        exact hreset rest hd
      obtain ⟨out, rfl⟩ := exists_respOut_of_exec_faulted h hs hi
      exact ⟨hs, rfl, rfl, rfl⟩
    | invalid v rest =>
      rw [step_of_invalid hd, performInvalid, unlessFaulted_of_faulted (by simpa using hs)] at h
      obtain rfl := Host.Outcome.next.inj h
      exact ⟨hs, rfl, rfl, rfl⟩

/-! ### Outside FAULTED -/

theorem sampleStep_runState (a : F64) (t : Word64) (s : State) : (sampleStep a t s).runState = .running :=
  (sampleStep_carried a t s).1

section
variable {i : Instr} {s t : State} (h : exec i s = .next t) (hs : s.runState ≠ .faulted)
include h hs

/-- Only a fault enters FAULTED: every other effect leaves STATE as it is, or at IDLE, RUNNING or ENDED. -/
theorem exists_raiseFault_of_enters_faulted (ht : t.runState = .faulted) :
    ∃ c : Cause, c ≠ .noFault ∧ t = raiseFault c s := by
  have hp := performs_of_exec h
  clear h
  cases hp with
  | reset => simp [State.reset] at ht
  | faulted _ _ hc => exact ⟨_, hc, rfl⟩
  | ignored | setRate | setChannels | setCpufreq | readReg => exact absurd ht hs
  | sample => simp [sampleStep_runState] at ht
  | endStream => simp at ht

theorem runState_of_isSetCommand (hi : IsSetCommand i) :
    t.runState = .faulted ∨ (s.runState = .idle ∧ t.runState = .idle) := by
  have hp := performs_of_exec h
  clear h
  cases hp with
  | ignored _ hf => exact absurd hf hs
  | faulted => exact .inl rfl
  | setRate hidle | setChannels hidle | setCpufreq hidle => exact .inr ⟨hidle, hidle⟩
  | sample ha => exact absurd ha.isSampleCommand (not_isSampleCommand_of_configures (.inr hi))
  | reset | endStream | readReg => simp [IsSetCommand] at hi

theorem runState_of_isSampleCommand (hi : IsSampleCommand i) :
    t.runState = .faulted ∨ ((s.runState = .idle ∨ s.runState = .running) ∧ t.runState = .running) := by
  have hp := performs_of_exec h
  clear h
  cases hp with
  | ignored _ hf => exact absurd hf hs
  | faulted => exact .inl rfl
  | sample ha => exact .inr ⟨ha.1, sampleStep_runState _ _ s⟩
  | reset | setRate | setChannels | setCpufreq | endStream | readReg => simp [IsSampleCommand] at hi

end

theorem runState_of_endStream {s t : State} (h : exec .endStream s = .next t) (hs : s.runState ≠ .faulted) :
    t.runState = .faulted ∨ ((s.runState = .idle ∨ s.runState = .running) ∧ t.runState = .ended) := by
  have hp := performs_of_exec h
  clear h
  cases hp with
  | ignored _ hf => exact absurd hf hs
  | faulted => exact .inl rfl
  | endStream hopen => exact .inr ⟨hopen, rfl⟩
  | sample ha => simpa [IsSampleCommand] using ha.isSampleCommand

/-- Settles O26: a fault is all that can have entered FAULTED, and it writes STATUS alone. -/
theorem faultsWriteStatusAlone : Obligations.FaultsWriteStatusAlone :=
  fun _ _ _ hs h ht => exists_raiseFault_of_enters_faulted h hs ht

/-- Settles O28, row by row of the transition table. -/
theorem stateMovesOnlyAsTabled : Obligations.StateMovesOnlyAsTabled := by
  intro i s t h
  refine ⟨?_, fun hreset hs => ?_, ?_, ?_, fun hi hs => runState_of_isSetCommand h hs hi,
    fun hi hs => runState_of_isSampleCommand h hs hi, fun hi hs => runState_of_endStream (hi ▸ h) hs⟩
  · rintro rfl
    obtain rfl := Host.Outcome.next.inj h
    rfl
  · obtain ⟨out, rfl⟩ := exists_respOut_of_exec_faulted h hs hreset
    exact hs
  · rintro idx rfl hidx
    obtain ⟨v, hv⟩ := exists_exec_readReg_of_assigned s hidx
    obtain rfl := Host.Outcome.next.inj (hv.symm.trans h)
    rfl
  · rintro idx rfl hidx
    obtain rfl := Host.Outcome.next.inj ((exec_readReg_of_unassigned s hidx).symm.trans h)
    exact unlessFaulted_raiseFault_runState .badRegister s

end Sys2Proof.Machine
end

section
/-! PROOFS. Every step completes (70_reset_and_hazards.md R244): whatever verdict CMD_IN has next, performing it ends in a
next state, and only taking it off CMD_IN moves the bytes presented and the position (10_state.md R20, R21). -/

namespace Sys2Proof.Machine

theorem cmdIn_position_of_eq_presenting {t : State} {bytes : List Byte} {n : Nat} (h : t = t.presenting bytes n) :
    t.cmdIn = bytes ∧ t.position = n := by
  rw [h]
  exact ⟨rfl, rfl⟩

theorem hostBlind_performInvalid (v : Verdict) : HostBlind (performInvalid v) :=
  hostBlind_unlessFaulted fun _ _ _ => rfl

/-- Every command completes, and leaves alone what the host presents and the position (10_state.md R20, R21). -/
theorem exists_exec_cmdIn_position (i : Instr) (s : State) :
    ∃ t, exec i s = .next t ∧ t.cmdIn = s.cmdIn ∧ t.position = s.position := by
  obtain ⟨t, ht, hblind⟩ := exec_presenting i s
  have hself : t = t.presenting s.cmdIn s.position := Host.Outcome.next.inj (ht.symm.trans (hblind _ _))
  exact ⟨t, ht, cmdIn_position_of_eq_presenting hself⟩

/-- A step with nothing presented holds the state (60_exceptions.md R212; log entry 2). -/
theorem step_of_nil {s : State} (h : s.cmdIn = []) : step s = .next s := by
  rw [step, h, decodeNext]

/-- A step on a verdict of either kind completes, leaves the bytes after it, and moves the position on by one. -/
theorem exists_step_of_decodeNext {s : State} {d : Decoded} (h : decodeNext s.cmdIn = some d) :
    ∃ t, step s = .next t ∧ t.cmdIn = d.rest ∧ t.position = s.position + 1 := by
  cases d with
  | command i rest =>
    rw [step_of_command h]
    exact exists_exec_cmdIn_position i (takeCommand rest s)
  | invalid v rest =>
    exact ⟨_, step_of_invalid h, cmdIn_position_of_eq_presenting (hostBlind_performInvalid v (takeCommand rest s) _ _)⟩

/-- Settles O12: with bytes presented there is a verdict, and every verdict uses up at least one of them. -/
theorem everyStepCompletes : Obligations.EveryStepCompletes := by
  intro s
  by_cases hs : s.cmdIn = []
  · exact ⟨s, step_of_nil hs, fun _ => rfl, fun hne => absurd hs hne⟩
  · obtain ⟨d, hd⟩ := exists_decodeNext_eq_some hs
    obtain ⟨t, ht, hcmd, hpos⟩ := exists_step_of_decodeNext hd
    have hlen : t.cmdIn.length < s.cmdIn.length := hcmd ▸ length_rest_of_decodeNext hd
    exact ⟨t, ht, fun hnil => absurd hnil hs, fun _ => ⟨hpos, hlen⟩⟩

end Sys2Proof.Machine
end

section
/-! PROOFS. What RESET leaves alone: the bytes the host presents and the position (10_state.md R20, R21; log entry 1). -/

namespace Sys2Proof.Machine

/-- RESET has no checks: it is performed in every state, FAULTED included (40_control_ops.md R101). -/
theorem exec_reset (s : State) : exec .reset s = .next (performReset s) := rfl

/-- Settles O16: of the state before it, `performReset` keeps CMD_IN and POSITION alone. -/
theorem resetLeavesWhatTheHostPresents : Obligations.ResetLeavesWhatTheHostPresents := by
  intro s
  rw [exec_reset, performReset]

end Sys2Proof.Machine
end
